-- ==== Sys2Proof/Word.lean ====
section
/-! DEFINITION. The words of the block (00_scope.md R6, R7; 10_state.md R20, R32): every value is unsigned. -/

namespace Sys2Proof

/-- 8 bits: data bytes, opcodes, `ADDR_W`, `R_DATA`, `R_MFG`, the status byte. -/
abbrev Byte := BitVec 8

/-- 16 bits: the `count` operand of WRITE, `R_PROD`. -/
abbrev Half := BitVec 16

/-- 24 bits: the highest address field a frame can carry (R86). -/
abbrev Addr24 := BitVec 24

/-- 32 bits: the address operand of WRITE8, WRITE and READ8 (`ADDR_OPERAND_W`, R6). -/
abbrev Addr := BitVec 32

end Sys2Proof
end

