-- ==== Sys2Proof/Config.lean ====
section
/-! DEFINITION. What is fixed at construction (00_scope.md R6; 10_state.md R22) and the free values: opaque
constants without a body, one for every value the spec leaves unspecified. -/

namespace Sys2Proof

/-- Bus Configuration (R22, R23, R110). The software-SPI triple is present as a whole or absent as a whole: a partial
set cannot be written. The argument order of `sw` is the constructor's: clock, data-in, data-out, chip-select
(R110, conflict C7). Pin identities are abstract (D22). -/
inductive BusConfig where
  | hw (cs : Nat)
  | sw (sck miso mosi cs : Nat)
  deriving DecidableEq, Repr

/-- The transfer strategy `MODE` (R6, R111). -/
inductive Mode where
  | hw
  | sw
  deriving DecidableEq, Repr

/-- `MODE` is `SW` when the triple is present and `HW` when it is absent (R22). -/
def BusConfig.mode : BusConfig → Mode
  | .hw _ => .hw
  | .sw _ _ _ _ => .sw

/-- The seven opcode bytes as parameters (R6, R85, D5). -/
structure Opcodes where
  wren : Byte
  wrdi : Byte
  rdsr : Byte
  wrsr : Byte
  read : Byte
  write : Byte
  rdid : Byte
  deriving DecidableEq, Repr

/-- The seven opcodes in the order of R85. -/
def Opcodes.toList (o : Opcodes) : List Byte := [o.wren, o.wrdi, o.rdsr, o.wrsr, o.read, o.write, o.rdid]

/-- "Whatever values are configured, the seven must be pairwise distinct" (R85). -/
abbrev Opcodes.Distinct (o : Opcodes) : Prop := o.toList.Nodup

/-- Which column of R213 the machine follows where R213 gives a model-level outcome. DESIGN CHOICE, safe: assumption 6.
`strict`: the outcome the spec prescribes for a model (fault or refusal). `hardware`: what the same rules say the
hardware does (R98, R141, R223, R236), with a free value for everything they call unspecified. -/
inductive Conduct where
  | strict
  | hardware
  deriving DecidableEq, Repr

/-- The parameters of R6 that the block itself has. Immutable after construction (R22, R38). `sckHz` is the nominal
rate HwInit asks for; no rule depends on it (R250). -/
structure Params where
  bus : BusConfig
  opc : Opcodes
  dummy : Byte
  sckHz : Nat
  conduct : Conduct
  deriving DecidableEq, Repr

/-- `MODE` of a configuration. -/
def Params.mode (p : Params) : Mode := p.bus.mode

/-- The number of address bytes of an addressed frame, or of the attached device (`AW`, R64). -/
inductive AddrWidth where
  | w1
  | w2
  | w3
  deriving DecidableEq, Repr

/-- The width as a number of bytes. -/
def AddrWidth.bytes : AddrWidth → Nat
  | .w1 => 1
  | .w2 => 2
  | .w3 => 3

/-- An unspecified state of the attached device, but for its parameters (R236: "the device may or may not see a
frame"). Plain data. -/
structure FreeChip where
  cells : List (Nat × Byte)
  sr : Byte
  wel : Bool
  rxn : Nat
  opc : Byte
  ptr : Nat
  staged : List (Nat × Byte)
  stagedSr : Option Byte
  out : Byte
  shin : Byte
  bitn : Nat
  deriving DecidableEq, Repr, Inhabited

/-- One event on the wires of the bus as an attached device sees them (R56): a level driven on CS, SCK or MOSI, or
`floating v`: a movement whose effect on the wires is unspecified, `v` being the level that was asked for (R181, R236); or
`released`: reset lets go of the pins, so that their wires are `Z` (R39, R231). Plain data. -/
inductive WireEvent where
  | cs (v : Bool)
  | sck (v : Bool)
  | mosi (v : Bool)
  | floating (v : Bool)
  | released
  deriving DecidableEq, Repr

/-- One sample of a MISO line that an unknown device or nothing drives: an oracle that sees the whole history of wire
events (R56), and that answers anew at each sample, by the number of the sample (R192). Assumption 13. -/
opaque Config.sampleBit : List WireEvent → Nat → Bool

/-- The byte read in a phase in which the device drives nothing, where its parameter fixes none (R192): any byte, by the
device's count of bytes, its opcode and its address pointer. Assumption 13. -/
opaque Config.undrivenByte : Nat → Byte → Nat → Byte

/-- The device after pins without a defined level were moved, by the history of wire events (R181, R236). Assumption
22. -/
opaque Config.freeChip : List WireEvent → Nat → FreeChip

/-- `SH_TX`, `SH_RX` and `BITCNT` between exchanges (R30). Assumption 12. -/
opaque Config.shiftTx : Nat → Byte
opaque Config.shiftRx : Nat → Byte
opaque Config.shiftCount : Nat → BitVec 3

/-- `OP_ADDR`, `OP_DATA`, `OP_COUNT`, `OP_EN` between operations (R20, U13). Assumption 12. -/
opaque Config.latchAddr : Nat → Addr
opaque Config.latchData : Nat → Byte
opaque Config.latchCount : Nat → Half
opaque Config.latchEn : Nat → Bool

/-- `R_DATA`, `R_MFG`, `R_PROD`, `R_OK` that an operation does not write (R32). Assumption 11. -/
opaque Config.respData : Nat → Byte
opaque Config.respMfg : Nat → Byte
opaque Config.respProd : Nat → Half
opaque Config.respOk : Nat → Bool

/-- The address bytes sent when `ADDR_W` is outside 1, 2, 3, by `ADDR_W` and the address: "which address bytes, and how
many, were sent is unspecified" (R141). Assumption 4. -/
opaque Config.malformedAddress : Nat → Byte → Addr → List Byte

/-- The byte READ8 returns when `ADDR_W` is outside 1, 2, 3, by `ADDR_W`, the address and the answers of the frame (R141,
vector M13). Assumption 4. -/
opaque Config.malformedResult : Nat → Byte → Addr → List Byte → Byte

end Sys2Proof
end

