-- ==== Sys2Proof/Syntax.lean ====
section
/-! DEFINITION. The two encodings' carriers (30_encoding.md R80, R97) and the instructions: one constructor for each
of the 18 rows of the opcode table, eleven host operations (R96) and seven frames of the wire (R85). -/

namespace Sys2Proof

/-- The command port as the host presents it (R36, R97): the 5-bit word `cmd_en ++ cmd_op` and the operand ports. -/
structure Command where
  word : BitVec 5
  addr : Addr
  data : Byte
  count : Half
  deriving DecidableEq, Repr

/-- What reaches the machine from outside: a command word on the host port, a frame as its bytes stand between one CS falling
and the next CS rising (R10, R57), or the input `rst` (R37, R230), which carries no word. -/
inductive Encoded where
  | command (c : Command)
  | frame (bytes : List Byte)
  | rst
  deriving DecidableEq, Repr

/-- An instruction. The host operations name no register; every operand is supplied with the operation (R20). The
`buffer` of WRITE is the `wdat` stream (R97), not part of the word. The frames carry what follows their opcode byte:
`wireRead` and `wireWrite` the address field of `w` bytes and, for `wireWrite`, the data bytes; dummy bytes are fixed
by the format (R82 to R84). -/
inductive Instr where
  | begin
  | getAddrLen
  | setAddrLen (n : Byte)
  | writeEnableT
  | writeEnableF
  | write8 (a : Addr) (v : Byte)
  | write (a : Addr) (count : Half)
  | read8 (a : Addr)
  | getDeviceId
  | getStatus
  | setStatus (v : Byte)
  | wireWren
  | wireWrdi
  | wireRdsr
  | wireWrsr (v : Byte)
  | wireRead (w : AddrWidth) (a : Addr24)
  | wireWrite (w : AddrWidth) (a : Addr24) (data : List Byte)
  | wireRdid
  deriving DecidableEq, Repr

end Sys2Proof
end

