-- ==== Sys2Proof/WellFormed.lean ====
section
/-! DEFINITION. Which instructions the encodings can carry. The operand types carry every bound of the host operations
(R99); a frame's address field has no bits above its width (R86) and its data bytes are at most 65 535 (R145 (e)). -/

namespace Sys2Proof

/-- The address field of a frame of width `w` has no bit at or above `8 w` (R66, R86). -/
def addrFits (w : AddrWidth) (a : Addr24) : Bool := decide (a.toNat < 2 ^ (8 * w.bytes))

/-- Well-formed instructions. -/
def Instr.wellFormed : Instr → Bool
  | .begin => true
  | .getAddrLen => true
  | .setAddrLen _ => true
  | .writeEnableT => true
  | .writeEnableF => true
  | .write8 _ _ => true
  | .write _ _ => true
  | .read8 _ => true
  | .getDeviceId => true
  | .getStatus => true
  | .setStatus _ => true
  | .wireWren => true
  | .wireWrdi => true
  | .wireRdsr => true
  | .wireWrsr _ => true
  | .wireRead w a => addrFits w a
  | .wireWrite w a data => addrFits w a && decide (data.length < 2 ^ 16)
  | .wireRdid => true

end Sys2Proof
end

