-- ==== Sys2Proof/Decode.lean ====
section
/-! DEFINITION. Decoding and encoding of the host command word (30_encoding.md R97, R98) and of the SPI frames
(R80 to R87), and the host's numbering of the opcode table's words. Decoding is total and rejects by name. -/

namespace Sys2Proof

/-- The default opcode values of R85. PRESUMED (R85 marks them as general knowledge), unsafe for a claim that names
the numbers: assumption 1. -/
def Opcodes.default : Opcodes :=
  { wren := 0x06, wrdi := 0x04, rdsr := 0x05, wrsr := 0x01, read := 0x03, write := 0x02, rdid := 0x9F }

/-- Why a word or a frame is no instruction. -/
inductive Reject where
  /-- `cmd_op` 0xA to 0xF (R98). -/
  | reservedCommand (code : BitVec 4)
  /-- A frame of no format of R81 to R84, or with no opcode of R85 (R92): no instruction, though its bytes act on the
  device (R64). -/
  | noFormat (bytes : List Byte)
  /-- The input `rst` (R37): it selects no operation; the block takes its reset values (R230). -/
  | rst
  deriving DecidableEq, Repr

/-- `cmd_op`, bits 3:0 of the host command word (R97). -/
def cmdOp (word : BitVec 5) : BitVec 4 := word.extractLsb' 0 4

/-- `cmd_en`, bit 4 of the host command word (R97). -/
def cmdEn (word : BitVec 5) : Bool := word.getLsbD 4

/-- The table of R97. `cmd_en` selects only between the two forms of WRITEENABLE; operand ports an operation does not
read are ignored (R98). -/
def decodeCommand (c : Command) : Except Reject Instr :=
  match (cmdOp c.word).toNat with
  | 0 => .ok .begin
  | 1 => .ok .getAddrLen
  | 2 => .ok (.setAddrLen c.data)
  | 3 => .ok (if cmdEn c.word then .writeEnableT else .writeEnableF)
  | 4 => .ok (.write8 c.addr c.data)
  | 5 => .ok (.write c.addr c.count)
  | 6 => .ok (.read8 c.addr)
  | 7 => .ok .getDeviceId
  | 8 => .ok .getStatus
  | 9 => .ok (.setStatus c.data)
  | _ => .error (.reservedCommand (cmdOp c.word))

/-- The address field at the head of `bytes`: `w` bytes, most significant first (R52, R86), and what follows it. -/
def takeAddr (w : AddrWidth) (bytes : List Byte) : Option (Addr24 × List Byte) :=
  match w, bytes with
  | .w1, b0 :: rest => some (((0 : Byte) ++ (0 : Byte) ++ b0 : BitVec 24), rest)
  | .w2, b1 :: b0 :: rest => some (((0 : Byte) ++ b1 ++ b0 : BitVec 24), rest)
  | .w3, b2 :: b1 :: b0 :: rest => some ((b2 ++ b1 ++ b0 : BitVec 24), rest)
  | _, _ => none

/-- A frame that is only an opcode: format F0 (R81). -/
def decodeF0 (i : Instr) : List Byte → Option Instr
  | [] => some i
  | _ :: _ => none

/-- One value byte after the opcode: format F1W (R82). -/
def decodeF1W (i : Byte → Instr) : List Byte → Option Instr
  | [v] => some (i v)
  | _ => none

/-- `n` dummy bytes and nothing else (R82, R83, R84). -/
def decodeDummies (dummy : Byte) (n : Nat) (i : Instr) (rest : List Byte) : Option Instr :=
  if rest = List.replicate n dummy then some i else none

/-- Format FAR: address bytes and one dummy (R84). -/
def decodeFAR (dummy : Byte) (w : AddrWidth) (rest : List Byte) : Option Instr :=
  match takeAddr w rest with
  | some (a, tail) => decodeDummies dummy 1 (.wireRead w a) tail
  | none => none

/-- Format FAW: address bytes and at most 65 535 data bytes (R84, R145). -/
def decodeFAW (w : AddrWidth) (rest : List Byte) : Option Instr :=
  match takeAddr w rest with
  | some (a, data) => if data.length < 2 ^ 16 then some (.wireWrite w a data) else none
  | none => none

/-- What follows an opcode byte (R81 to R85). -/
def decodeAfter (o : Opcodes) (dummy : Byte) (w : AddrWidth) (op : Byte) (rest : List Byte) : Option Instr :=
  if op = o.wren then decodeF0 .wireWren rest
  else if op = o.wrdi then decodeF0 .wireWrdi rest
  else if op = o.rdsr then decodeDummies dummy 1 .wireRdsr rest
  else if op = o.wrsr then decodeF1W .wireWrsr rest
  else if op = o.read then decodeFAR dummy w rest
  else if op = o.write then decodeFAW w rest
  else if op = o.rdid then decodeDummies dummy 4 .wireRdid rest
  else none

/-- A whole frame: its first byte is its opcode (R80). `w` is the number of address bytes the device expects (R64). -/
def decodeFrame (o : Opcodes) (dummy : Byte) (w : AddrWidth) (bytes : List Byte) : Except Reject Instr :=
  match bytes with
  | [] => .error (.noFormat [])
  | op :: rest =>
    match decodeAfter o dummy w op rest with
    | some i => .ok i
    | none => .error (.noFormat bytes)

/-- The decoder, total on whatever reaches the machine. -/
def decode (o : Opcodes) (dummy : Byte) (w : AddrWidth) (e : Encoded) : Except Reject Instr :=
  match e with
  | .command c => decodeCommand c
  | .frame bytes => decodeFrame o dummy w bytes
  | .rst => .error .rst

/-- The address field of `w` bytes of a frame address, most significant byte first (R52, R84, R86). -/
def addrField (w : AddrWidth) (a : Addr24) : List Byte :=
  match w with
  | .w1 => [a.extractLsb' 0 8]
  | .w2 => [a.extractLsb' 8 8, a.extractLsb' 0 8]
  | .w3 => [a.extractLsb' 16 8, a.extractLsb' 8 8, a.extractLsb' 0 8]

/-- A command word with the operand ports an operation does not read at 0 (R97). -/
def commandOf (word : BitVec 5) (addr : Addr) (data : Byte) (count : Half) : Encoded :=
  .command { word := word, addr := addr, data := data, count := count }

/-- The encoder (R81 to R87, R97). -/
def encode (o : Opcodes) (dummy : Byte) : Instr → Encoded
  | .begin => commandOf 0x00 0 0 0
  | .getAddrLen => commandOf 0x01 0 0 0
  | .setAddrLen n => commandOf 0x02 0 n 0
  | .writeEnableT => commandOf 0x13 0 0 0
  | .writeEnableF => commandOf 0x03 0 0 0
  | .write8 a v => commandOf 0x04 a v 0
  | .write a count => commandOf 0x05 a 0 count
  | .read8 a => commandOf 0x06 a 0 0
  | .getDeviceId => commandOf 0x07 0 0 0
  | .getStatus => commandOf 0x08 0 0 0
  | .setStatus v => commandOf 0x09 0 v 0
  | .wireWren => .frame [o.wren]
  | .wireWrdi => .frame [o.wrdi]
  | .wireRdsr => .frame [o.rdsr, dummy]
  | .wireWrsr v => .frame [o.wrsr, v]
  | .wireRead w a => .frame (o.read :: addrField w a ++ [dummy])
  | .wireWrite w a data => .frame (o.write :: addrField w a ++ data)
  | .wireRdid => .frame [o.rdid, dummy, dummy, dummy, dummy]

/-- The bytes of a frame instruction, and no bytes for a host operation. -/
def frameBytes (o : Opcodes) (dummy : Byte) (i : Instr) : List Byte :=
  match encode o dummy i with
  | .frame bytes => bytes
  | .command _ => []
  | .rst => []

/-- How many bytes follow the opcode byte in a frame of the default opcodes, with one data byte for WRITE. -/
def frameTail (w : AddrWidth) (op : Byte) : Nat :=
  if op = Opcodes.default.rdsr || op = Opcodes.default.wrsr then 1
  else if op = Opcodes.default.read || op = Opcodes.default.write then w.bytes + 1
  else if op = Opcodes.default.rdid then 4
  else 0

/-- The opcode table's word `v` of a wire row, with operand bytes of zeros, as a frame. -/
def tableFrame (w : AddrWidth) (v : Nat) : Encoded :=
  .frame (BitVec.ofNat 8 v :: List.replicate (frameTail w (BitVec.ofNat 8 v)) 0)

/-- The opcode table's word `v` of a host row, with operand ports of zeros. -/
def tableCommand (v : Nat) : Encoded := commandOf (BitVec.ofNat 5 v) 0 0 0

/-- The table's word as it reaches the machine. Rows of fewer than 8 bits are command words. A word of 8 bits is a
frame's opcode byte where it is one, and else a command word in one byte (assumption 29). A number too wide for its
row is the empty frame, which no decoder accepts. -/
def tableEncoded (w : AddrWidth) (nbits v : Nat) : Encoded :=
  if nbits < 8 then
    if v < 2 ^ 5 then tableCommand v else .frame []
  else if v < 2 ^ 8 then
    if BitVec.ofNat 8 v ∈ Opcodes.default.toList then tableFrame w v
    else if v < 2 ^ 5 then tableCommand v else tableFrame w v
  else .frame []

/-- What the decoder reads from the table's word, with the default opcodes, the dummy byte 0 and two address bytes. -/
def decodeTableWord (nbits w : Nat) : Option Instr :=
  match decode Opcodes.default 0 .w2 (tableEncoded .w2 nbits w) with
  | .ok i => some i
  | .error _ => none

end Sys2Proof
end

