-- ==== Sys2Proof/Machine/State.lean ====
section
/-! DEFINITION. The machine's state: the block (10_state.md R20 to R39), its pins, the capability to the hardware engine,
the attached device (20_memory.md R35, R64), the host's inputs, and the traces of R10. Plain data. -/

namespace Sys2Proof.Machine

/-- A pin's role (R28). -/
inductive Pin where
  | cs
  | sck
  | mosi
  | miso
  deriving DecidableEq, Repr

/-- A pin's direction: never configured, output, input (R8). -/
inductive Dir where
  | unconf
  | out
  | inp
  deriving DecidableEq, Repr

/-- Direction and output latch of a pin (R8, R28). -/
structure PinState where
  dir : Dir
  latch : Bool
  deriving DecidableEq, Repr

/-- The block's pins (R28), by role. In hardware mode only `cs` is the block's; the other three keep their reset value.
DESIGN CHOICE, unsafe, assumption 35: the spec does not say whether two roles may be given one pin id (R6, R22, D22); the
model keeps a direction and a latch for each role, so two roles with one id are still two pins. -/
structure Pins where
  cs : PinState
  sck : PinState
  mosi : PinState
  miso : PinState
  deriving DecidableEq, Repr

/-- The settings `HwInit` asks for (R186): SPI mode, nominal rate in Hz, bit order. -/
structure HwSettings where
  spiMode : Nat
  hz : Nat
  msbFirst : Bool
  deriving DecidableEq, Repr

/-- A pin-level event (R10, R196), with the two services of the hardware engine. -/
inductive Event where
  | pinMode (p : Pin) (d : Dir)
  | pinWrite (p : Pin) (v : Bool)
  | pinRead (p : Pin) (v : Bool)
  | hwInit (h : HwSettings)
  | hwExchange (tx rx : Byte)
  deriving DecidableEq, Repr

/-- Working state of the software engine (R30). -/
structure Engine where
  shTx : Byte
  shRx : Byte
  bitCnt : BitVec 3
  deriving DecidableEq, Repr

/-- The hardware engine as the block sees it (R31, R37). `settings`: what `HwInit` asked for. `pending`: the byte of an
exchange started (`hwx_start`, `hwx_tx`) and not done. `budget`: the environment's choice of how many more exchanges
complete; `none` is every one, `some 0` is a peripheral that never raises `hwx_done` again (R195, assumption 14). -/
structure Hwx where
  settings : Option HwSettings
  pending : Option Byte
  budget : Option Nat
  deriving DecidableEq, Repr

/-- The device's memory: bytes by address in one canonical form (`Memory.wf`). -/
abbrev Memory := List Host.Cell

/-- Parameters of RefFRAM (R64). `undriven` is what a phase in which the device drives nothing reads as: `some 0xFF`
in RefFRAM, `none` for any value (R192). -/
structure ChipParams where
  memBytes : Nat
  aw : AddrWidth
  requireWel : Bool
  id0 : Byte
  id1 : Byte
  id2 : Byte
  id3 : Byte
  srReset : Byte
  undriven : Option Byte
  deriving DecidableEq, Repr

/-- The attached device (R35, R64). `rxn`, `opc`, `ptr`, `staged`, `stagedSr` are per frame. `out`, `shin`, `bitn` are
its shift register out, its shift register in and the number of bits of the current byte already clocked (R57,
R189 (d)). `fresh` is the model's counter of free values. -/
structure Chip where
  params : ChipParams
  mem : Memory
  sr : Byte
  wel : Bool
  rxn : Nat
  opc : Byte
  ptr : Nat
  staged : List Host.Cell
  stagedSr : Option Byte
  out : Byte
  shin : Byte
  bitn : Nat
  fresh : Nat
  deriving DecidableEq, Repr

/-- What answers on MISO (R56): any device at all, each sample a free value of the whole history of the wires; MISO wired
to MOSI (R194); the reference device (R64). A line that nothing drives is a free value in every wiring (R192). -/
inductive Wiring where
  | arbitrary
  | loopback
  | fram
  deriving DecidableEq, Repr

/-- The pins, the engines, what is attached, and the traces. `frame` holds the pairs (sent, received) of the open
frame, `frames` the completed frames in order, `trace` the pin-level events in order (R10). `seen` is the history of
wire events that the environment's oracle sees (R56), `draws` the model's counter of free samples. -/
structure Bus where
  pins : Pins
  engine : Engine
  hwx : Hwx
  wiring : Wiring
  chip : Chip
  draws : Nat
  seen : List WireEvent
  trace : List Event
  frame : List (Byte × Byte)
  frames : List (List (Byte × Byte))
  deriving DecidableEq, Repr

/-- The sequencer phase (R21). -/
inductive Seq where
  | idle
  | opc
  | addr (k : Nat)
  | data (i : Nat)
  | fin
  deriving DecidableEq, Repr

/-- The operations that touch pins (R213), by name. -/
inductive OpKind where
  | begin
  | writeEnableT
  | writeEnableF
  | write8
  | write
  | read8
  | getDeviceId
  | getStatus
  | setStatus
  deriving DecidableEq, Repr

/-- One exchange still to do in the frame of the operation in progress (R90): a byte whose answer is kept or dropped
(R191), data byte `i` from the `wdat` stream (R144), or the undefined address field (R141). -/
inductive Beat where
  | byte (ph : Seq) (tx : Byte) (keep : Bool)
  | stream (i : Nat)
  | malformed (w : Byte)
  deriving DecidableEq, Repr

/-- The operand latches `OP_ADDR`, `OP_DATA`, `OP_COUNT`, `OP_EN` (R20). -/
structure OpLatches where
  addr : Addr
  data : Byte
  count : Half
  en : Bool
  deriving DecidableEq, Repr

/-- The response latches `R_DATA`, `R_MFG`, `R_PROD`, `R_OK` (R32). -/
structure Response where
  data : Byte
  mfg : Byte
  prod : Half
  ok : Bool
  deriving DecidableEq, Repr

/-- Who presents an input: the host, or a second host agent or bus master (R213 `Overlap`, R223). -/
inductive Agent where
  | primary
  | second
  deriving DecidableEq, Repr

/-- One input, as it is presented to the machine. -/
structure Entry where
  agent : Agent
  enc : Encoded
  deriving DecidableEq, Repr

/-- The whole machine. `op`, `todo` and `got` are the operation in progress, what is left of its frame and the answers
it keeps; `inbox` is what will be presented, in order; `wdat` the bytes offered on the stream; `frees` the model's
counter of free latch values. -/
structure State where
  params : Params
  addrW : Byte
  init : Bool
  busy : Bool
  seq : Seq
  op : Option OpKind
  lat : OpLatches
  resp : Response
  respValid : Bool
  todo : List Beat
  got : List Byte
  inbox : List Entry
  wdat : List Byte
  bus : Bus
  frees : Nat
  deriving DecidableEq, Repr

/-- Model-level faults (R213): a fault ends the run (R218). -/
inductive Fault where
  /-- WRITE8, WRITE or READ8 reaches `EmitAddress` with `ADDR_W = w` outside 1, 2, 3, in conduct `strict` (R141). Safe:
  the hardware goes on with an unspecified frame, the model claims nothing of it. -/
  | malformedWidth (w : Byte)
  deriving DecidableEq, Repr

/-- Refusals. -/
inductive Refusal where
  /-- An instruction that exec rejects by name. Raised by no arm of this model. Safe. -/
  | notModelled (mnemonic : String)
  /-- A pin-touching operation while `INIT = 0`, in conduct `strict` (R213, R236). Safe: the hardware goes on with
  unspecified levels, the model claims nothing of it. -/
  | notInitialised (op : OpKind)
  /-- A command word with `cmd_op` 0xA to 0xF, in conduct `strict` (R98, R213). Safe: no source gives it a meaning. -/
  | reservedCommand (code : BitVec 4)
  /-- An operation or a frame of a second agent while `BUSY = 1`, in conduct `strict` (R213, R223). Safe: outside the
  design. -/
  | overlap
  deriving DecidableEq, Repr

/-- The three outcomes of a step of this machine. -/
abbrev Outcome := Host.Outcome State Fault Refusal

/-- A pin after reset: never configured (R39). -/
def PinState.atReset : PinState := { dir := .unconf, latch := false }

/-- The pins after reset (R39: SCK and MOSI latches 0; the CS and MISO latches are DESIGN CHOICE, assumption 7). -/
def Pins.atReset : Pins :=
  { cs := .atReset, sck := .atReset, mosi := .atReset, miso := .atReset }

/-- The reference device of program P1 (95_test_vectors.md). DESIGN CHOICE, unsafe for claims about received bytes from
reset: assumption 9. -/
def ChipParams.p1 : ChipParams :=
  { memBytes := 65536, aw := .w2, requireWel := true, id0 := 0x04, id1 := 0x7F, id2 := 0x03, id3 := 0x02
    srReset := 0x00, undriven := some 0xFF }

/-- RefFRAM in its initial state (R64): `sr = SR_RESET`, `wel = 0`, memory with nothing listed. -/
def Chip.initial (p : ChipParams) : Chip :=
  { params := p, mem := [], sr := p.srReset, wel := false, rxn := 0, opc := 0, ptr := 0, staged := [], stagedSr := none
    out := 0, shin := 0, bitn := 0, fresh := 0 }

/-- The bus when the block has just been constructed and has not touched it (R39, R230). -/
def Bus.atReset (w : Wiring) (c : Chip) (budget : Option Nat) : Bus :=
  { pins := .atReset, engine := { shTx := 0, shRx := 0, bitCnt := 0 }
    hwx := { settings := none, pending := none, budget := budget }
    wiring := w, chip := c, draws := 0, seen := [], trace := [], frame := [], frames := [] }

/-- Construction, which is reset (R110, R230): the "after reset" column of R39. It reads nothing from the device and
emits nothing on the bus. Latches the spec leaves unspecified are 0 (DESIGN CHOICE, unsafe: assumption 7). -/
def construct (p : Params) (w : Wiring) (c : Chip) (budget : Option Nat) : State :=
  { params := p, addrW := 2, init := false, busy := false, seq := .idle, op := none
    lat := { addr := 0, data := 0, count := 0, en := false }
    resp := { data := 0, mfg := 0, prod := 0, ok := false }, respValid := false
    todo := [], got := [], inbox := [], wdat := [], bus := .atReset w c budget, frees := 0 }

/-- Parameters with the defaults of R6 for a Bus Configuration. -/
def paramsOf (b : BusConfig) : Params :=
  { bus := b, opc := .default, dummy := 0x00, sckHz := 8000000, conduct := .strict }

/-- The hardware-SPI form of construction: "takes only a chip-select pin" (R110). -/
def constructHw (cs : Nat) (w : Wiring) (c : Chip) (budget : Option Nat) : State :=
  construct (paramsOf (.hw cs)) w c budget

/-- The software-SPI form of construction: clock, data-in, data-out, chip-select (R110). -/
def constructSw (clock dataIn dataOut cs : Nat) (w : Wiring) (c : Chip) : State :=
  construct (paramsOf (.sw clock dataIn dataOut cs)) w c none

/-- The machine right after reset: the start of program P1 (software form, four distinct pins, RefFRAM). The choice of
form, pins and device is DESIGN CHOICE: assumptions 8 and 9. -/
def State.reset : State := constructSw 0 1 2 3 .fram (.initial .p1)

end Sys2Proof.Machine
end

