-- ==== Sys2Proof/Machine/Ops.lean ====
section
/-! DEFINITION. The named operations over the device's memory and over the block's registers, and the model-level
outcomes of 60_exceptions.md R213. The block has no trap entry and no trap return (R217, R218): nothing is saved, no
mode changes, and there is no handler; what stands here is where a meaning stops or goes on instead. -/

namespace Sys2Proof.Machine

/-! ### Memory of the attached device -/

/-- What an address that is not listed reads as: zero, the start of the programs P1 to P4. DESIGN CHOICE, unsafe:
assumption 10. -/
def memDefault : Byte := 0

/-- The byte at an address. -/
def memRead : Memory → Nat → Byte
  | [], _ => memDefault
  | (k, x) :: m, a => if k = a then x else memRead m a

/-- Write one byte and keep the canonical form: writing what an unlisted address reads as removes the entry. -/
def memWrite : Memory → Nat → Byte → Memory
  | [], a, v => if v = memDefault then [] else [(a, v)]
  | (k, x) :: m, a, v =>
    if a < k then (if v = memDefault then (k, x) :: m else (a, v) :: (k, x) :: m)
    else if a = k then (if v = memDefault then m else (a, v) :: m)
    else (k, x) :: memWrite m a v

/-- Write bytes in order (R60, R64: `for (a, b) in staged in order`). -/
def memWriteAll (m : Memory) (cells : List Host.Cell) : Memory :=
  cells.foldl (fun acc c => memWrite acc c.1 c.2) m

/-- A first address below every listed one. -/
def memHeadAbove (a : Nat) : Memory → Bool
  | [] => true
  | (k, _) :: _ => decide (a < k)

/-- The canonical form: addresses strictly rising, no entry equal to what an unlisted address reads as. -/
def Memory.wf : Memory → Bool
  | [] => true
  | (a, v) :: m => decide (v ≠ memDefault) && memHeadAbove a m && Memory.wf m

/-! ### Registers that may hold any value -/

/-- The response latches at an acceptance: an operation "writes only the latches it has a result for; the others then
hold unspecified values" (R32, conflict C9). Assumption 11. -/
def anyResponse (n : Nat) : Response :=
  { data := Config.respData n, mfg := Config.respMfg n, prod := Config.respProd n, ok := Config.respOk n }

/-- The operand latches between operations (R20, U13). Assumption 12. -/
def anyLatches (n : Nat) : OpLatches :=
  { addr := Config.latchAddr n, data := Config.latchData n, count := Config.latchCount n, en := Config.latchEn n }

/-! ### Model-level outcomes -/

/-- A refusal of R213 in conduct `strict`; in conduct `hardware` the machine goes on as `go` says. -/
def refuseOr (s : State) (r : Refusal) (go : State → Outcome) : Outcome :=
  match s.params.conduct with
  | .strict => .refused r
  | .hardware => go s

/-- The fault of R141, raised where `EmitAddress` would start. -/
def raiseMalformedWidth (w : Byte) : Outcome := .fault (.malformedWidth w)

end Sys2Proof.Machine
end

