-- ==== Sys2Proof/Machine/Device.lean ====
section
/-! DEFINITION. The attached device at byte level and bit by bit (20_memory.md R57 to R64). Each clause is a line of
the pseudocode of R64; the parameters of R64 are fields of `ChipParams`. -/

namespace Sys2Proof.Machine

/-- What a phase in which the device drives nothing reads as: its parameter, or any value (R64 (D), R192). -/
def chipUndriven (c : Chip) : Byte :=
  match c.params.undriven with
  | some v => v
  | none => Config.undrivenByte c.fresh c.opc c.ptr

/-- Identification byte `k` (R63, R64). -/
def chipId (p : ChipParams) (k : Nat) : Byte :=
  match k with
  | 0 => p.id0
  | 1 => p.id1
  | 2 => p.id2
  | _ => p.id3

/-- CS falls: a frame begins (R57, R64). -/
def chipSelect (c : Chip) : Chip :=
  { c with rxn := 0, staged := [], stagedSr := none, bitn := 0 }

/-- The byte the device returns in the next exchange, computed before it sees the byte sent (R64, R189 (d)). -/
def chipAnswer (o : Opcodes) (c : Chip) : Byte :=
  if c.rxn = 0 then chipUndriven c
  else if c.opc = o.rdsr then c.sr
  else if c.opc = o.rdid then (if c.rxn ≤ 4 then chipId c.params (c.rxn - 1) else chipUndriven c)
  else if c.opc = o.wrsr then chipUndriven c
  else if (c.opc = o.read ∨ c.opc = o.write) ∧ c.rxn ≤ c.params.aw.bytes then chipUndriven c
  else if c.opc = o.read then memRead c.mem (c.ptr % c.params.memBytes)
  else chipUndriven c

/-- The address pointer after an address byte: shifted in, restricted to `8 AW` bits (R59, R64). -/
def chipShiftPtr (c : Chip) (tx : Byte) : Nat :=
  if c.rxn = 1 then tx.toNat else (c.ptr * 256 + tx.toNat) % 2 ^ (8 * c.params.aw.bytes)

/-- The byte `tx` of the frame as the device takes it, before it counts it (R64). -/
def chipAbsorb (o : Opcodes) (tx : Byte) (c : Chip) : Chip :=
  if c.rxn = 0 then { c with opc := tx }
  else if c.opc = o.rdsr then c
  else if c.opc = o.rdid then c
  else if c.opc = o.wrsr then (if c.rxn = 1 then { c with stagedSr := some tx } else c)
  else if (c.opc = o.read ∨ c.opc = o.write) ∧ c.rxn ≤ c.params.aw.bytes then { c with ptr := chipShiftPtr c tx }
  else if c.opc = o.read then { c with ptr := c.ptr + 1 }
  else if c.opc = o.write then
    { c with staged := c.staged ++ [(c.ptr % c.params.memBytes, tx)], ptr := c.ptr + 1 }
  else c

/-- A whole byte taken (R64: `rxn <- rxn + 1`). -/
def chipTake (o : Opcodes) (tx : Byte) (c : Chip) : Chip :=
  { chipAbsorb o tx c with rxn := c.rxn + 1, fresh := c.fresh + 1 }

/-- Whether the device accepts writes now (R62, R64). -/
def chipAccepts (c : Chip) : Bool := c.wel || !c.params.requireWel

/-- The write-protect latch after CS rises: WREN sets it, WRDI clears it, and a device that requires it clears it after
WRITE and WRSR (R62, R64; the last clause is R64's own mark G, assumption 28). -/
def chipWelAfter (o : Opcodes) (c : Chip) : Bool :=
  let wel := if c.rxn = 1 ∧ c.opc = o.wren then true else if c.rxn = 1 ∧ c.opc = o.wrdi then false else c.wel
  if (c.opc = o.write ∨ c.opc = o.wrsr) ∧ c.params.requireWel then false else wel

/-- The memory after CS rises (R60, R62, R64). -/
def chipMemAfter (o : Opcodes) (c : Chip) : Memory :=
  if c.opc = o.write ∧ chipAccepts c then memWriteAll c.mem c.staged else c.mem

/-- The status register after CS rises (R60, R63, R64). -/
def chipSrAfter (o : Opcodes) (c : Chip) : Byte :=
  if c.opc = o.wrsr ∧ chipAccepts c then c.stagedSr.getD c.sr else c.sr

/-- CS rises: the frame ends and writes commit (R60, R64). -/
def chipDeselect (o : Opcodes) (c : Chip) : Chip :=
  { c with mem := chipMemAfter o c, sr := chipSrAfter o c, wel := chipWelAfter o c }

/-- One byte exchanged with the device: what it answers, and the device after it (R64). The shift registers are left
as eight clocked bits leave them. -/
def chipByte (o : Opcodes) (tx : Byte) (c : Chip) : Byte × Chip :=
  let rx := chipAnswer o c
  (rx, chipTake o tx { c with out := rx, shin := tx, bitn := 8 })

/-- A bit shifted in at the least significant end of a byte (R91 (c)). -/
def shiftIn (r : Byte) (v : Bool) : Byte := (r <<< 1) ||| (BitVec.ofBool v).setWidth 8

/-- At the first rising edge of a byte the device has its answer ready in the shift register (R189 (d)). -/
def chipLoad (o : Opcodes) (c : Chip) : Chip :=
  if c.bitn % 8 = 0 then { c with out := chipAnswer o c, shin := 0, bitn := 0 } else c

/-- A rising edge of SCK with MOSI at level `d`: the device samples MOSI, and takes the byte at the eighth edge (R57,
R189). DEDUCED from R189 (d): assumption 23. -/
def chipRise (o : Opcodes) (d : Bool) (c : Chip) : Chip :=
  let l := chipLoad o c
  let c1 := { l with shin := shiftIn l.shin d, bitn := l.bitn + 1 }
  if c1.bitn = 8 then chipTake o c1.shin c1 else c1

/-- The level the device holds on MISO after the last rising edge, most significant bit first (R51, R189 (c)). -/
def chipMiso (c : Chip) : Bool := c.out.getLsbD (8 - c.bitn)

/-- The device after a movement of pins without a defined level, `h` being the history of the wires: its state is
unspecified, its parameters are not (R181, R236). Assumption 22. -/
def chipDisturb (h : List WireEvent) (c : Chip) : Chip :=
  let f := Config.freeChip h c.fresh
  { params := c.params, mem := memWriteAll [] f.cells, sr := f.sr, wel := f.wel, rxn := f.rxn, opc := f.opc, ptr := f.ptr
    staged := f.staged, stagedSr := f.stagedSr, out := f.out, shin := f.shin, bitn := f.bitn, fresh := c.fresh + 1 }

end Sys2Proof.Machine
end

