-- ==== Sys2Proof/Machine/Transfer.lean ====
section
/-! DEFINITION. The pin micro-operations, chip-select, and the byte exchange in both strategies
(44_transfer_primitive.md R180 to R195). -/

namespace Sys2Proof.Machine

/-! ### Pins -/

/-- The state of a pin (R28). -/
def pinOf (p : Pin) (b : Bus) : PinState :=
  match p with
  | .cs => b.pins.cs
  | .sck => b.pins.sck
  | .mosi => b.pins.mosi
  | .miso => b.pins.miso

/-- Replace the state of a pin. -/
def setPin (p : Pin) (x : PinState) (b : Bus) : Bus :=
  match p with
  | .cs => { b with pins := { b.pins with cs := x } }
  | .sck => { b with pins := { b.pins with sck := x } }
  | .mosi => { b with pins := { b.pins with mosi := x } }
  | .miso => { b with pins := { b.pins with miso := x } }

/-- Record a pin-level event (R10). -/
def log (e : Event) (b : Bus) : Bus := { b with trace := b.trace ++ [e] }

/-- The level on a pin's wire: the latch if the pin is an output, otherwise not driven (R8). -/
def wire (x : PinState) : Option Bool :=
  match x.dir with
  | .out => some x.latch
  | .unconf => none
  | .inp => none

/-- The attached device sees itself selected: CS is driven low (R8, R57). -/
def selected (b : Bus) : Bool := wire b.pins.cs == some false

/-! ### What the attached device sees of the wires -/

/-- Add to the history of wire events (R56). -/
def see (es : List WireEvent) (b : Bus) : Bus := { b with seen := b.seen ++ es }

/-- A level `v` on the wire of an output pin. MISO is no output of the block. -/
def levelOf (p : Pin) (v : Bool) : List WireEvent :=
  match p with
  | .cs => [.cs v]
  | .sck => [.sck v]
  | .mosi => [.mosi v]
  | .miso => []

/-- One clock pulse that carries the bit `d`: data settles while the clock is low, then the clock rises (R187, R188). Where
SCK goes after the pulse is left to the next one: no rule depends on its idle level (R187). -/
def pulse (d : Bool) : List WireEvent := [.sck false, .mosi d, .sck true]

/-- The bit indices of a byte in the order they are sent (R51). -/
def bitOrder : List Nat := [7, 6, 5, 4, 3, 2, 1, 0]

/-- The bits of a byte in the order they are sent. -/
def byteBits (tx : Byte) : List Bool := bitOrder.map fun i => tx.getLsbD i

/-- The eight pulses of a byte (R187, R188). -/
def bytePulses (tx : Byte) : List WireEvent := (byteBits tx).flatMap pulse

/-- CS falls on the wire. -/
def busFall (b : Bus) : Bus :=
  match b.wiring with
  | .fram => { b with chip := chipSelect b.chip }
  | .arbitrary => b
  | .loopback => b

/-- CS rises on the wire. -/
def busRaise (o : Opcodes) (b : Bus) : Bus :=
  match b.wiring with
  | .fram => { b with chip := chipDeselect o b.chip }
  | .arbitrary => b
  | .loopback => b

/-- SCK rises on the wire with MOSI at level `d`; a device that is not selected does not look. -/
def busClock (o : Opcodes) (d : Bool) (b : Bus) : Bus :=
  match b.wiring with
  | .fram => if selected b then { b with chip := chipRise o d b.chip } else b
  | .arbitrary => b
  | .loopback => b

/-- Pins without a defined level were to carry the levels `vs`: "the effect on the wire is unspecified" (R181). Assumption
22. -/
def busDisturb (vs : List Bool) (b : Bus) : Bus :=
  let b1 := see (vs.map .floating) b
  match b1.wiring with
  | .fram => { b1 with chip := chipDisturb b1.seen b1.chip }
  | .arbitrary => b1
  | .loopback => b1

/-- A sample of a line that an unknown device or nothing drives: a free value of the whole history of the wires, and a new
one each time (R56, R192). Assumption 13. -/
def drawSample (b : Bus) : Bool × Bus := (Config.sampleBit b.seen b.draws, { b with draws := b.draws + 1 })

/-- The level on MISO, MOSI being at `d` (`none`: not driven) (R56, R192, R194). -/
def misoLevel (d : Option Bool) (b : Bus) : Bool × Bus :=
  match b.wiring with
  | .arbitrary => drawSample b
  | .loopback =>
    match d with
    | some v => (v, b)
    | none => drawSample b
  | .fram => if selected b then (chipMiso b.chip, b) else drawSample b

/-! ### Pin micro-operations -/

/-- `PinMode(p, d)` (R180): an output drives its latch on the wire from this event on. -/
def pinMode (p : Pin) (d : Dir) (b : Bus) : Bus :=
  let b1 := log (.pinMode p d) (setPin p { pinOf p b with dir := d } b)
  match d with
  | .out => see (levelOf p (pinOf p b).latch) b1
  | .inp => b1
  | .unconf => b1

/-- What a driven pin's change from `old` to `v` does on the wire. -/
def wireEdge (o : Opcodes) (p : Pin) (old v : Bool) (b : Bus) : Bus :=
  match p with
  | .cs => if old && !v then busFall b else if !old && v then busRaise o b else b
  | .sck =>
    if !old && v then
      match wire b.pins.mosi with
      | some d => busClock o d b
      | none => busDisturb [v] b
    else b
  | .mosi => b
  | .miso => b

/-- `PinWrite(p, v)` (R181): the latch, and the wire as part of the same event. -/
def pinWrite (o : Opcodes) (p : Pin) (v : Bool) (b : Bus) : Bus :=
  let old := pinOf p b
  let b1 := log (.pinWrite p v) (setPin p { old with latch := v } b)
  match wire old with
  | some was => wireEdge o p was v (see (levelOf p v) b1)
  | none => busDisturb [v] b1

/-- `PinRead(MISO)` (R182): a pin that was never made an input has an unspecified level (R236). -/
def pinRead (b : Bus) : Bool × Bus :=
  let r := match b.pins.miso.dir with
    | .inp => misoLevel (wire b.pins.mosi) b
    | .out => drawSample b
    | .unconf => drawSample b
  (r.1, log (.pinRead .miso r.1) r.2)

/-- CS made an output driven high, as one event for the bus: the wire goes from `Z` to 1 without passing through 0
(R112, D15, assumption 20). A CS that was driven low rises. -/
def csConfigure (o : Opcodes) (b : Bus) : Bus :=
  let was := wire b.pins.cs
  let b1 := see (levelOf .cs true)
    (log (.pinWrite .cs true) (log (.pinMode .cs .out) (setPin .cs { dir := .out, latch := true } b)))
  match was with
  | some false => busRaise o b1
  | some true => b1
  | none => b1

/-- What is let go of when the pins that drive their wires become `UNCONF` (R39): nothing where none does. -/
def released (b : Bus) : List WireEvent :=
  match wire b.pins.cs, wire b.pins.sck, wire b.pins.mosi with
  | none, none, none => []
  | _, _, _ => [.released]

/-- The bus when `rst` is taken (R39, R230): pins, engine and capability have their reset values; what is attached is not
affected (R39), nothing is emitted, so both traces stand as they were, and the history of the wires goes on (R56). The
environment's budget and the counter of samples are no registers of the block. Assumption 25. -/
def busReset (b : Bus) : Bus :=
  { Bus.atReset b.wiring b.chip b.hwx.budget with
    draws := b.draws, seen := b.seen ++ released b, trace := b.trace, frame := b.frame, frames := b.frames }

/-- `CS_Assert()` (R183): a new frame. -/
def csAssert (o : Opcodes) (b : Bus) : Bus := { pinWrite o .cs false b with frame := [] }

/-- `CS_Deassert()` (R184): the frame is complete and joins the byte-level trace. DESIGN CHOICE, assumption 5: before
BEGIN, where CS has no defined level and "the device may or may not see a frame" (R236), what the operation sent still
counts as one frame of that trace. -/
def csDeassert (o : Opcodes) (b : Bus) : Bus :=
  let b1 := pinWrite o .cs true b
  { b1 with frames := b1.frames ++ [b1.frame], frame := [] }

/-! ### Software strategy -/

/-- One turn of the loop of R188: clock low, data out, clock high, sample and shift in. -/
def swBit (o : Opcodes) (b : Bus) (i : Nat) : Bus :=
  let b0 := { b with engine := { b.engine with bitCnt := BitVec.ofNat 3 i } }
  let b1 := pinWrite o .sck false b0
  let b2 := pinWrite o .mosi (b1.engine.shTx.getLsbD i) b1
  let b3 := pinWrite o .sck true b2
  let r := pinRead b3
  { r.2 with engine := { r.2.engine with shRx := shiftIn r.2.engine.shRx r.1 } }

/-- Between exchanges the engine's registers are unspecified (R30). Assumption 12. -/
def loseShift (b : Bus) : Bus :=
  { b with
    engine := { shTx := Config.shiftTx b.draws, shRx := Config.shiftRx b.draws, bitCnt := Config.shiftCount b.draws }
    draws := b.draws + 1 }

/-- `XferSW(tx)` (R188). -/
def xferSW (o : Opcodes) (tx : Byte) (b : Bus) : Byte × Bus :=
  let b0 := { b with engine := { shTx := tx, shRx := 0, bitCnt := 7 } }
  let b1 := bitOrder.foldl (swBit o) b0
  (b1.engine.shRx, loseShift b1)

/-! ### Hardware strategy -/

/-- `HwInit()` (R186): the three settings. -/
def hwInit (p : Params) (b : Bus) : Bus :=
  let h : HwSettings := { spiMode := 0, hz := p.sckHz, msbFirst := true }
  log (.hwInit h) { b with hwx := { b.hwx with settings := some h } }

/-- One of the eight clock pulses the peripheral makes: MOSI presented, the rising edge, MISO sampled (R187). -/
def hwBit (o : Opcodes) (tx : Byte) (acc : Byte × Bus) (i : Nat) : Byte × Bus :=
  let r := misoLevel (some (tx.getLsbD i)) (busClock o (tx.getLsbD i) (see (pulse (tx.getLsbD i)) acc.2))
  (shiftIn acc.1 r.1, r.2)

/-- One pulse of a peripheral this block never configured, or with CS not driven: nothing is defined (R236). -/
def hwBitUnknown (acc : Byte × Bus) (_ : Nat) : Byte × Bus :=
  let r := drawSample acc.2
  (shiftIn acc.1 r.1, r.2)

/-- The byte on the wire in an exchange that completes (R187). -/
def hwWire (o : Opcodes) (tx : Byte) (b : Bus) : Byte × Bus :=
  if b.hwx.settings.isSome && (wire b.pins.cs).isSome then bitOrder.foldl (hwBit o tx) (0, b)
  else bitOrder.foldl hwBitUnknown (0, busDisturb (byteBits tx) b)

/-- The peripheral after it completed one exchange. -/
def hwxDone (h : Hwx) : Hwx := { h with pending := none, budget := h.budget.map (· - 1) }

/-- `HwExchange(tx)` (R187): `none` while the peripheral does not raise `hwx_done` (R195). Assumption 14. -/
def hwExchange (o : Opcodes) (tx : Byte) (b : Bus) : Option (Byte × Bus) :=
  match b.hwx.budget with
  | some 0 => none
  | _ =>
    let r := hwWire o tx { b with hwx := hwxDone b.hwx }
    some (r.1, log (.hwExchange tx r.1) r.2)

/-! ### The exchange -/

/-- The strategy `MODE` selects (R185). -/
def xferByMode (p : Params) (tx : Byte) (b : Bus) : Option (Byte × Bus) :=
  match p.mode with
  | .hw => hwExchange p.opc tx b
  | .sw => some (xferSW p.opc tx b)

/-- `Xfer(tx)` (R185): one byte sent and one received, recorded in the open frame (R10). `none`: the exchange does not
complete. -/
def xfer (p : Params) (tx : Byte) (b : Bus) : Option (Byte × Bus) :=
  match xferByMode p tx b with
  | none => none
  | some (rx, b1) => some (rx, { b1 with frame := b1.frame ++ [(tx, rx)] })

/-- An exchange started and not done: `hwx_start` with `hwx_tx = tx` (R37, R187). DESIGN CHOICE, unsafe, assumption 14:
the spec does not say how many of the eight clock pulses of an exchange that never completes reach the device (R187,
R195, R216); in the model none does. -/
def hwxStarted (tx : Byte) (b : Bus) : Bus := { b with hwx := { b.hwx with pending := some tx } }

/-- BEGIN's pin configuration (R112): CS, then the peripheral or the three other pins. -/
def configurePins (p : Params) (b : Bus) : Bus :=
  let b1 := csConfigure p.opc b
  match p.mode with
  | .hw => hwInit p b1
  | .sw => pinMode .miso .inp (pinMode .mosi .out (pinMode .sck .out b1))

end Sys2Proof.Machine
end

