-- ==== Sys2Proof/Machine/Operands.lean ====
section
/-! DEFINITION. Operand forms: the address field (42_memory_access.md R140 to R142), data, dummy and result fields
(30_encoding.md R81 to R88), as the exchanges of a frame. -/

namespace Sys2Proof.Machine

/-- The legal values of `ADDR_W` (R24). -/
def widthOf (w : Byte) : Option AddrWidth :=
  match w.toNat with
  | 1 => some .w1
  | 2 => some .w2
  | 3 => some .w3
  | _ => none

/-- The bytes `EmitAddress(A)` sends, most significant first; bits above the width are not sent (R140). -/
def addrBytes (w : AddrWidth) (a : Addr) : List Byte :=
  match w with
  | .w1 => [a.extractLsb' 0 8]
  | .w2 => [a.extractLsb' 8 8, a.extractLsb' 0 8]
  | .w3 => [a.extractLsb' 16 8, a.extractLsb' 8 8, a.extractLsb' 0 8]

/-- Address bytes as exchanges, in phases ADDR(k) for k from the number of bytes less one down to 0 (R21); every
answer is dropped (R191). -/
def addrPhases : List Byte → List Beat
  | [] => []
  | x :: rest => .byte (.addr rest.length) x false :: addrPhases rest

/-- `EmitAddress` of the address latch under the machine's `ADDR_W`. Another width is the fault of R141 in conduct
`strict`, and an unspecified list of bytes in conduct `hardware` (assumption 4). -/
def addrBeats (s : State) : List Beat :=
  match widthOf s.addrW with
  | some w => addrPhases (addrBytes w s.lat.addr)
  | none =>
    match s.params.conduct with
    | .strict => [.malformed s.addrW]
    | .hardware => addrPhases (Config.malformedAddress s.frees s.addrW s.lat.addr)

/-- The opcode exchange; its answer is dropped (R191). -/
def opcBeat (op : Byte) : Beat := .byte .opc op false

/-- Dummy exchange `i`, whose answer is a result field (R87, R88). -/
def dummyBeat (p : Params) (i : Nat) : Beat := .byte (.data i) p.dummy true

/-- Format F0 (R81). -/
def frameF0 (op : Byte) : List Beat := [opcBeat op]

/-- Format F1W (R82). -/
def frameF1W (op v : Byte) : List Beat := [opcBeat op, .byte (.data 0) v false]

/-- Format F1R (R82). -/
def frameF1R (p : Params) (op : Byte) : List Beat := [opcBeat op, dummyBeat p 0]

/-- Format FID (R83): four dummy bytes, a0 to a3. -/
def frameFID (p : Params) : List Beat :=
  [opcBeat p.opc.rdid, dummyBeat p 0, dummyBeat p 1, dummyBeat p 2, dummyBeat p 3]

/-- Format FAR (R84). -/
def frameFAR (s : State) : List Beat := opcBeat s.params.opc.read :: addrBeats s ++ [dummyBeat s.params 0]

/-- Format FAW with one data byte, the data latch (R84, R143). -/
def frameFAW8 (s : State) : List Beat := opcBeat s.params.opc.write :: addrBeats s ++ [.byte (.data 0) s.lat.data false]

/-- Format FAW with the count latch's number of bytes of the `wdat` stream, in order (R84, R144). -/
def frameFAW (s : State) : List Beat :=
  opcBeat s.params.opc.write :: addrBeats s ++ (List.range s.lat.count.toNat).map Beat.stream

/-- The product ID `(zext_16(a2) << 8) | zext_16(a3)` (R88). -/
def productId (a2 a3 : Byte) : Half := (a2.setWidth 16 <<< 8) ||| a3.setWidth 16

/-- Result byte `i` of the frame (R88). -/
def result (s : State) (i : Nat) : Byte := s.got.getD i 0

/-- The result of READ8 (R146); unspecified when `ADDR_W` is outside 1, 2, 3 (R141, vector M13, assumption 4). -/
def readResult (s : State) : Byte :=
  match widthOf s.addrW with
  | some _ => result s 0
  | none => Config.malformedResult s.frees s.addrW s.lat.addr s.got

end Sys2Proof.Machine
end

