-- ==== Sys2Proof/Machine/Flags.lean ====
section
/-! DEFINITION. The flags INIT and BUSY (10_state.md R25 to R27): acceptance, the checks made at acceptance (R213,
R215), the response, and completion (R36). There are no condition codes (R27). -/

namespace Sys2Proof.Machine

/-- What is decided at acceptance, before any bus event (R215). While `BUSY = 1` the port accepts nothing (R26): an
operation presented then is `Overlap` in conduct `strict` (R213) and not accepted in conduct `hardware`. `pinOp` names
an operation that touches pins, which needs `INIT = 1` in conduct `strict` (R236). -/
def atAcceptance (pinOp : Option OpKind) (s : State) (run : State → Outcome) : Outcome :=
  if s.busy then refuseOr s .overlap .next
  else
    match pinOp with
    | none => run s
    | some k => if s.init then run s else refuseOr s (.notInitialised k) run

/-- Acceptance (R36): the operands are latched, `BUSY` is set, and the response latches are valid no longer (R32). -/
def accept (k : Option OpKind) (l : OpLatches) (s : State) : State :=
  { s with
    busy := true, seq := .opc, op := k, lat := l, resp := anyResponse s.frees, respValid := false, todo := [], got := []
    frees := s.frees + 1 }

/-- Completion (R36, R41): `BUSY` falls and `resp_valid` pulses; the operand latches hold any value (R20, U13). -/
def complete (s : State) : State :=
  { s with
    busy := false, seq := .idle, op := none, lat := anyLatches s.frees, respValid := true, todo := [], got := []
    frees := s.frees + 1 }

/-- The input `rst` (R37, R230): "puts every register into the 'after reset' column" of R39, which is what construction
leaves; the parameters stay (R39). What the host presents and offers is not the block's, nor is the counter of free values.
The unspecified latches take the values of `construct` (assumption 7). Assumption 25. -/
def resetBlock (s : State) : State :=
  { construct s.params s.bus.wiring s.bus.chip s.bus.hwx.budget with
    bus := busReset s.bus, inbox := s.inbox, wdat := s.wdat, frees := s.frees }

/-- What an operation delivers when its frame is over (R32, R36, R90): BEGIN sets `INIT` and `R_OK` (R112), READ8 and
GETSTATUS write `R_DATA`, GETDEVICEID writes `R_MFG` and `R_PROD`; the others deliver nothing. -/
def respond (k : OpKind) (s : State) : State :=
  match k with
  | .begin => { s with init := true, resp := { s.resp with ok := true } }
  | .read8 => { s with resp := { s.resp with data := readResult s } }
  | .getStatus => { s with resp := { s.resp with data := result s 0 } }
  | .getDeviceId => { s with resp := { s.resp with mfg := result s 0, prod := productId (result s 2) (result s 3) } }
  | .writeEnableT => s
  | .writeEnableF => s
  | .write8 => s
  | .write => s
  | .setStatus => s

/-- Deliver the response of the operation in progress. -/
def respondOp (s : State) : State :=
  match s.op with
  | some k => respond k s
  | none => s

/-! ### Output signals, functions of the state (R36, R37) -/

/-- `cmd_ready = not BUSY` (R36). -/
def cmdReady (s : State) : Bool := !s.busy

/-- The output `initialized = INIT` (R37). -/
def initializedOut (s : State) : Bool := s.init

/-- `wdat_ready`: WRITE waits for its next data byte (R36, R244). -/
def wdatReady (s : State) : Bool :=
  match s.todo with
  | .stream _ :: _ => s.busy
  | _ => false

end Sys2Proof.Machine
end

