-- ==== Sys2Proof/Machine/Sequencer.lean ====
section
/-! DEFINITION. The sequencer (10_state.md R21; 30_encoding.md R90): one frame from CS falling to CS rising, run to its
end, or left open where an exchange or the `wdat` stream does not go on (R195, R216, R244). -/

namespace Sys2Proof.Machine

/-- END: CS is deasserted, then the result is computed and delivered (R90). -/
def finishOp (s : State) : State :=
  complete (respondOp { s with seq := .fin, bus := csDeassert s.params.opc s.bus })

/-- The operation waits in phase `ph` with `todo` still to do; CS stays low and `BUSY` stays 1 (R216, R244). -/
def waitAt (ph : Seq) (todo : List Beat) (s : State) : State := { s with seq := ph, todo := todo }

/-- An exchange of phase `ph` is done; its answer is kept as a result or dropped (R191). -/
def beatDone (ph : Seq) (keep : Bool) (rx : Byte) (b : Bus) (s : State) : State :=
  { s with seq := ph, bus := b, got := if keep then s.got ++ [rx] else s.got }

/-- An exchange started and not completed: the device and the traces as they were (`hwxStarted`, assumption 14). -/
def startedOnly (tx : Byte) (s : State) : State := { s with bus := hwxStarted tx s.bus }

/-- The rest of a frame. Data byte `i` of WRITE leaves the stream when it is taken (R36, R244). -/
def runBeats : List Beat → State → Outcome
  | [], s => .next (finishOp s)
  | .byte ph tx keep :: rest, s =>
    match xfer s.params tx s.bus with
    | none => .next (waitAt ph (.byte ph tx keep :: rest) (startedOnly tx s))
    | some (rx, b) => runBeats rest (beatDone ph keep rx b s)
  | .stream i :: rest, s =>
    match s.wdat with
    | [] => .next (waitAt (.data i) (.stream i :: rest) s)
    | tx :: more =>
      match xfer s.params tx s.bus with
      | none =>
        .next (waitAt (.data i) (.byte (.data i) tx false :: rest) (startedOnly tx { s with wdat := more }))
      | some (rx, b) => runBeats rest (beatDone (.data i) false rx b { s with wdat := more })
  | .malformed w :: _, _ => raiseMalformedWidth w

/-- A whole frame: `CS_Assert`, the exchanges, `CS_Deassert` (R90). -/
def runFrame (beats : List Beat) (s : State) : Outcome :=
  runBeats beats { s with bus := csAssert s.params.opc s.bus }

/-- A pin-touching operation: acceptance, then the frame its accepted operands give. -/
def runPinOp (k : OpKind) (l : OpLatches) (frame : State → List Beat) (s : State) : Outcome :=
  atAcceptance (some k) s fun s0 => runFrame (frame (accept (some k) l s0)) (accept (some k) l s0)

/-- The operation in progress goes on where it waits. -/
def resume (s : State) : Outcome := runBeats s.todo s

end Sys2Proof.Machine
end

