-- ==== Sys2Proof/Machine/ConfigOps.lean ====
section
/-! DEFINITION. BEGIN, GETADDRLEN, SETADDRLEN (40_config_ops.md R112 to R116). -/

namespace Sys2Proof.Machine

/-- BEGIN (R112, R113): pin configuration, the identity probe, `INIT` and `R_OK`. It needs no prior operation (R234),
validates nothing, and does not read `ADDR_W`. -/
def execBegin (s : State) : Outcome :=
  atAcceptance none s fun s0 =>
    let s1 := accept (some .begin) s0.lat s0
    runFrame (frameFID s1.params) { s1 with bus := configurePins s1.params s1.bus }

/-- GETADDRLEN (R114): `R_DATA = ADDR_W`, no bus activity, defined before BEGIN (R235). -/
def execGetAddrLen (s : State) : Outcome :=
  atAcceptance none s fun s0 =>
    let s1 := accept none s0.lat s0
    .next (complete { s1 with resp := { s1.resp with data := s1.addrW } })

/-- SETADDRLEN (R115, R116): any 8-bit value is stored, nothing is reported. -/
def execSetAddrLen (n : Byte) (s : State) : Outcome :=
  atAcceptance none s fun s0 =>
    let s1 := accept none { s0.lat with data := n } s0
    .next (complete { s1 with addrW := s1.lat.data })

end Sys2Proof.Machine
end

