-- ==== Sys2Proof/Machine/Identification.lean ====
section
/-! DEFINITION. GETDEVICEID, GETSTATUS, SETSTATUS (43_identification_status.md R160 to R164). -/

namespace Sys2Proof.Machine

/-- GETDEVICEID (R160, R161). -/
def execGetDeviceId (s : State) : Outcome := runPinOp .getDeviceId s.lat (fun s1 => frameFID s1.params) s

/-- GETSTATUS (R162). -/
def execGetStatus (s : State) : Outcome :=
  runPinOp .getStatus s.lat (fun s1 => frameF1R s1.params s1.params.opc.rdsr) s

/-- SETSTATUS (R163): the byte is sent unchanged. -/
def execSetStatus (v : Byte) (s : State) : Outcome :=
  runPinOp .setStatus { s.lat with data := v } (fun s1 => frameF1W s1.params.opc.wrsr s1.lat.data) s

end Sys2Proof.Machine
end

