-- ==== Sys2Proof/Machine/MemoryAccess.lean ====
section
/-! DEFINITION. WRITE8, WRITE, READ8 (42_memory_access.md R143 to R147). -/

namespace Sys2Proof.Machine

/-- WRITE8 (R143). -/
def execWrite8 (a : Addr) (v : Byte) (s : State) : Outcome :=
  runPinOp .write8 { s.lat with addr := a, data := v } frameFAW8 s

/-- WRITE (R144, R145): `count` bytes of the `wdat` stream in one frame. -/
def execWrite (a : Addr) (count : Half) (s : State) : Outcome :=
  runPinOp .write { s.lat with addr := a, count := count } frameFAW s

/-- READ8 (R146). -/
def execRead8 (a : Addr) (s : State) : Outcome :=
  runPinOp .read8 { s.lat with addr := a } frameFAR s

end Sys2Proof.Machine
end

