-- ==== Sys2Proof/Machine/WireFrames.lean ====
section
/-! DEFINITION. The seven frames of the wire as the attached device takes them (20_memory.md R57 to R64). A frame is
presented to the device alone; the block's registers and pins take no part (assumption 17). -/

namespace Sys2Proof.Machine

/-- One byte exchanged with whatever is attached: the bits an unknown device answers on eight clock pulses (R56), an echo
(R194), RefFRAM's answer (R64). -/
def deviceByte (o : Opcodes) (tx : Byte) (b : Bus) : Byte × Bus :=
  match b.wiring with
  | .arbitrary => bitOrder.foldl (hwBit o tx) (0, b)
  | .loopback => (tx, see (bytePulses tx) b)
  | .fram =>
    let r := chipByte o tx b.chip
    (r.1, see (bytePulses tx) { b with chip := r.2 })

/-- The bytes of a frame in order, and the pairs they make. -/
def deviceBytes (o : Opcodes) : List Byte → Bus → List (Byte × Byte) × Bus
  | [], b => ([], b)
  | tx :: rest, b =>
    let r := deviceByte o tx b
    let q := deviceBytes o rest r.2
    ((tx, r.1) :: q.1, q.2)

/-- A whole frame: CS falls, the bytes, CS rises and writes commit (R57, R60). -/
def deviceFrame (o : Opcodes) (bytes : List Byte) (b : Bus) : Bus :=
  let q := deviceBytes o bytes (busFall (see [.cs false] b))
  let b1 := busRaise o (see [.cs true] q.2)
  { b1 with frames := b1.frames ++ [q.1] }

/-- The bits of a frame in the order they are sent. -/
def frameBits (bytes : List Byte) : List Bool := bytes.flatMap byteBits

/-- A frame while the block is in one of its own is `Overlap` (R213, R223); "overlapping frames would corrupt chip
state" (R67): in conduct `hardware` the device is left in any state. -/
def presentFrame (bytes : List Byte) (s : State) : Outcome :=
  if s.busy then refuseOr s .overlap fun s0 => .next { s0 with bus := busDisturb (frameBits bytes) s0.bus }
  else .next { s with bus := deviceFrame s.params.opc bytes s.bus }

/-- The bytes of a frame instruction under the machine's parameters. -/
def bytesOf (s : State) (i : Instr) : List Byte := frameBytes s.params.opc s.params.dummy i

/-- wire.WREN (R62): the write-protect latch is enabled. -/
def execWireWren (s : State) : Outcome := presentFrame (bytesOf s .wireWren) s

/-- wire.WRDI (R62): the write-protect latch is disabled. -/
def execWireWrdi (s : State) : Outcome := presentFrame (bytesOf s .wireWrdi) s

/-- wire.RDSR (R63): the status register in the first byte after the opcode. -/
def execWireRdsr (s : State) : Outcome := presentFrame (bytesOf s .wireRdsr) s

/-- wire.WRSR (R63): the status register is replaced, if the device accepts it. -/
def execWireWrsr (v : Byte) (s : State) : Outcome := presentFrame (bytesOf s (.wireWrsr v)) s

/-- wire.READ (R61): the byte at the address. -/
def execWireRead (w : AddrWidth) (a : Addr24) (s : State) : Outcome := presentFrame (bytesOf s (.wireRead w a)) s

/-- wire.WRITE (R60): the data bytes take effect when CS rises, if the device accepts them. -/
def execWireWrite (w : AddrWidth) (a : Addr24) (data : List Byte) (s : State) : Outcome :=
  presentFrame (bytesOf s (.wireWrite w a data)) s

/-- wire.RDID (R63): the four identification bytes. -/
def execWireRdid (s : State) : Outcome := presentFrame (bytesOf s .wireRdid) s

end Sys2Proof.Machine
end

