-- ==== Sys2Proof/Machine/WriteControl.lean ====
section
/-! DEFINITION. WRITEENABLE in its two variants (41_write_control.md R130 to R132). -/

namespace Sys2Proof.Machine

/-- The opcode the `enable` operand selects (R130, R131). -/
def enableOpcode (o : Opcodes) (en : Bool) : Byte := if en then o.wren else o.wrdi

/-- The frame of WRITEENABLE: format F0. -/
def frameEnable (s : State) : List Beat := frameF0 (enableOpcode s.params.opc s.lat.en)

/-- WRITEENABLE.T (R130). -/
def execWriteEnableT (s : State) : Outcome := runPinOp .writeEnableT { s.lat with en := true } frameEnable s

/-- WRITEENABLE.F (R131). -/
def execWriteEnableF (s : State) : Outcome := runPinOp .writeEnableF { s.lat with en := false } frameEnable s

end Sys2Proof.Machine
end

