-- ==== Sys2Proof/Machine/Dispatch.lean ====
section
/-! DEFINITION. One arm for each instruction. -/

namespace Sys2Proof.Machine

def exec (i : Instr) (s : State) : Host.Outcome State Fault Refusal :=
  match i with
  | .begin => Sys2Proof.Machine.execBegin s
  | .getAddrLen => Sys2Proof.Machine.execGetAddrLen s
  | .setAddrLen n => Sys2Proof.Machine.execSetAddrLen n s
  | .writeEnableT => Sys2Proof.Machine.execWriteEnableT s
  | .writeEnableF => Sys2Proof.Machine.execWriteEnableF s
  | .write8 a v => Sys2Proof.Machine.execWrite8 a v s
  | .write a count => Sys2Proof.Machine.execWrite a count s
  | .read8 a => Sys2Proof.Machine.execRead8 a s
  | .getDeviceId => Sys2Proof.Machine.execGetDeviceId s
  | .getStatus => Sys2Proof.Machine.execGetStatus s
  | .setStatus v => Sys2Proof.Machine.execSetStatus v s
  | .wireWren => Sys2Proof.Machine.execWireWren s
  | .wireWrdi => Sys2Proof.Machine.execWireWrdi s
  | .wireRdsr => Sys2Proof.Machine.execWireRdsr s
  | .wireWrsr v => Sys2Proof.Machine.execWireWrsr v s
  | .wireRead w a => Sys2Proof.Machine.execWireRead w a s
  | .wireWrite w a data => Sys2Proof.Machine.execWireWrite w a data s
  | .wireRdid => Sys2Proof.Machine.execWireRdid s

end Sys2Proof.Machine
end

