-- ==== Sys2Proof/Machine/Fetch.lean ====
section
/-! DEFINITION. What the machine does next: the block fetches no instructions (10_state.md R21); it takes the next
input presented to it (R36, R226), or goes on with the operation in progress. -/

namespace Sys2Proof.Machine

/-- The next thing to do. -/
inductive Fetched where
  /-- Nothing is presented to an idle block. -/
  | idle
  /-- The operation in progress goes on. -/
  | goOn (s : State)
  /-- An instruction was taken from the inputs. -/
  | run (i : Instr) (s : State)
  /-- An input that is no instruction, or that no one may present now. -/
  | stop (r : Refusal)
  /-- An input taken with no operation of the block. -/
  | skip (s : State)
  deriving DecidableEq, Repr

/-- The decoder under the machine's parameters; frames have as many address bytes as the attached device expects. -/
def decodeInput (s : State) (e : Encoded) : Except Reject Instr :=
  decode s.params.opc s.params.dummy s.bus.chip.params.aw e

/-- An input that is no instruction. A reserved command word is `ReservedCommand` in conduct `strict` (R213), and in conduct
`hardware` "is consumed with no effect on any state" (R98). A frame of no format is no operation of the block; its bytes do
to what is attached what R56, R64 and R194 say of each of them. `rst` resets the idle block, in both conducts (R230). -/
def fetchRejected (r : Reject) (s : State) : Fetched :=
  match r with
  | .reservedCommand code =>
    match s.params.conduct with
    | .strict => .stop (.reservedCommand code)
    | .hardware => .skip s
  | .noFormat bytes => .skip { s with bus := deviceFrame s.params.opc bytes s.bus }
  | .rst => .skip (resetBlock s)

/-- An input while `BUSY = 0`. The agent is not read: R213 raises `Overlap` while `BUSY = 1` only, and R223 (D12) has a model
refuse a second host agent without saying so of an idle port; that an idle block takes a second agent's input like the
host's own is the model's choice (DESIGN CHOICE, assumption 19, unsafe). -/
def fetchIdle (e : Entry) (s : State) : Fetched :=
  match decodeInput s e.enc with
  | .ok i => .run i s
  | .error r => fetchRejected r s

/-- An input presented while `BUSY = 1` by the host waits (`cmd_ready = 0`, R26). A command of a second agent or a frame
of another master is `Overlap` in conduct `strict` (R213, R223); in conduct `hardware` the port accepts nothing, and a
frame corrupts the device (R67). `rst` has no move while `BUSY = 1` (R232, D8): it waits until the block is idle
(assumption 25). -/
def fetchBusy (e : Entry) (rest : List Entry) (s : State) : Fetched :=
  match s.params.conduct, e.enc, e.agent with
  | .strict, .command _, .primary => .goOn s
  | .strict, .command _, .second => .stop .overlap
  | .strict, .frame _, _ => .stop .overlap
  | .strict, .rst, _ => .goOn s
  | .hardware, .command _, _ => .goOn s
  | .hardware, .frame bytes, _ => .goOn { s with inbox := rest, bus := busDisturb (frameBits bytes) s.bus }
  | .hardware, .rst, _ => .goOn s

/-- The next thing to do. -/
def fetch (s : State) : Fetched :=
  match s.busy, s.inbox with
  | true, [] => .goOn s
  | true, e :: rest => fetchBusy e rest s
  | false, [] => .idle
  | false, e :: rest => fetchIdle e { s with inbox := rest }

/-- An idle block with nothing presented: the `resp_valid` pulse is over (R36, assumption 27). -/
def idleTick (s : State) : State := { s with respValid := false }

end Sys2Proof.Machine
end

