-- ==== Sys2Proof/Machine/Step.lean ====
section
/-! DEFINITION. One step of the machine, and where the host puts the word it asks about. -/

namespace Sys2Proof.Machine

/-- One step: an operation or frame that is presented, or the operation in progress, or nothing. -/
def step (s : State) : Host.Outcome State Fault Refusal :=
  match fetch s with
  | .idle => .next (idleTick s)
  | .goOn s1 => resume s1
  | .run i s1 => exec i s1
  | .stop r => .refused r
  | .skip s1 => .next s1

/-- `s` with the opcode table's word `w` as the next input of the host. Nothing else is changed. -/
def State.withFetchWord (s : State) (nbits w : Nat) : State :=
  { s with inbox := { agent := .primary, enc := tableEncoded s.bus.chip.params.aw nbits w } :: s.inbox }

end Sys2Proof.Machine
end

