-- ==== Sys2Proof/Safety.lean ====
section
/-! DEFINITION. The terms the claims use: when an operation runs to its end, what a frame leaves on the traces, on the
pins and in the block, and the machine's invariant. -/

namespace Sys2Proof.Machine

/-! ### When an operation runs -/

/-- The engine completes `n` more exchanges: always in software mode, and in hardware mode if the peripheral does
(R195, R216). -/
def engineLasts (n : Nat) (s : State) : Bool :=
  match s.params.mode, s.bus.hwx.budget with
  | .sw, _ => true
  | .hw, none => true
  | .hw, some k => decide (n ≤ k)

/-- A pin-touching operation is accepted and runs: the block is idle and initialised, or its conduct is `hardware`
(R26, R213, R236). -/
abbrev Admitted (s : State) : Prop := s.busy = false ∧ (s.init = true ∨ s.params.conduct = .hardware)

/-- The pins have the directions BEGIN gives them (R28), and in hardware mode the peripheral its settings (R31). -/
def pinsConfigured (p : Params) (b : Bus) : Bool :=
  decide (b.pins.cs.dir = .out) &&
    match p.mode with
    | .hw => b.hwx.settings.isSome
    | .sw => decide (b.pins.sck.dir = .out) && decide (b.pins.mosi.dir = .out) && decide (b.pins.miso.dir = .inp)

/-- The bus at rest after BEGIN: configured, and the device not selected (R39, R41). -/
abbrev BusReady (s : State) : Prop := pinsConfigured s.params s.bus = true ∧ s.bus.pins.cs.latch = true

/-! ### What a frame leaves on the traces -/

/-- The 32 pin events of one software exchange in their fixed order (R188). -/
def byteEvents (tx rx : Byte) : List Event :=
  bitOrder.flatMap fun i =>
    [.pinWrite .sck false, .pinWrite .mosi (tx.getLsbD i), .pinWrite .sck true, .pinRead .miso (rx.getLsbD i)]

/-- The events of one exchange (R196). -/
def exchangeEvents (m : Mode) (x : Byte × Byte) : List Event :=
  match m with
  | .sw => byteEvents x.1 x.2
  | .hw => [.hwExchange x.1 x.2]

/-- The events of one frame: exactly one chip-select pair around the exchanges (R184, R196). -/
def frameEvents (m : Mode) (f : List (Byte × Byte)) : List Event :=
  .pinWrite .cs false :: f.flatMap (exchangeEvents m) ++ [.pinWrite .cs true]

/-- What a frame leaves in the history of the wires (R56): one CS pair around the pulses of its bytes. -/
def frameSeen (txs : List Byte) : List WireEvent := .cs false :: txs.flatMap bytePulses ++ [.cs true]

/-- BEGIN's configuration events (R112, R196). -/
def configEvents (p : Params) : List Event :=
  match p.mode with
  | .hw => [.pinMode .cs .out, .pinWrite .cs true, .hwInit { spiMode := 0, hz := p.sckHz, msbFirst := true }]
  | .sw => [.pinMode .cs .out, .pinWrite .cs true, .pinMode .sck .out, .pinMode .mosi .out, .pinMode .miso .inp]

/-- The rising edges of SCK the block itself writes, counted as writes of 1 (R196). -/
def sckHighWrites (es : List Event) : Nat := es.count (.pinWrite .sck true)

/-! ### What reset leaves -/

/-- The "after reset" column of R39 as far as it gives values (R230): `ADDR_W = 2`, `INIT = 0`, `BUSY = 0`, `SEQ = IDLE` with no
operation in progress, every direction `UNCONF`, SCK and MOSI latches 0, the hardware engine not configured. -/
abbrev ResetColumn (t : State) : Prop :=
  t.addrW = 2 ∧ t.init = false ∧ t.busy = false ∧ t.seq = .idle ∧ t.op = none ∧ t.todo = [] ∧
    t.bus.pins.cs.dir = .unconf ∧ t.bus.pins.sck.dir = .unconf ∧ t.bus.pins.mosi.dir = .unconf ∧
    t.bus.pins.miso.dir = .unconf ∧ t.bus.pins.sck.latch = false ∧ t.bus.pins.mosi.latch = false ∧
    t.bus.hwx.settings = none

/-! ### What an operation leaves in the block -/

/-- Between operations (R21, R36, R41): `BUSY = 0`, `SEQ = IDLE`, nothing left of a sequence. -/
abbrev AtRest (t : State) : Prop :=
  t.busy = false ∧ t.seq = .idle ∧ t.op = none ∧ t.todo = [] ∧ t.got = []

/-- The frame every operation has: the parameters, what the host still presents, the attached device's identity, every
pin's direction and the peripheral's settings (R22, R40, R111). -/
abbrev Untouched (s t : State) : Prop :=
  t.params = s.params ∧ t.inbox = s.inbox ∧ t.bus.wiring = s.bus.wiring ∧ t.bus.chip.params = s.bus.chip.params

/-- The registers only one operation each writes, and the directions only BEGIN writes (R40). -/
abbrev RegsKept (s t : State) : Prop :=
  t.addrW = s.addrW ∧ t.init = s.init ∧ t.bus.hwx.settings = s.bus.hwx.settings ∧
    t.bus.pins.cs.dir = s.bus.pins.cs.dir ∧ t.bus.pins.sck.dir = s.bus.pins.sck.dir ∧
    t.bus.pins.mosi.dir = s.bus.pins.mosi.dir ∧ t.bus.pins.miso = s.bus.pins.miso

/-- The lines after a frame (R41, R190): CS latch 1; in software mode SCK latch 1, MOSI latch bit 0 of the last byte sent,
and the peripheral untouched; in hardware mode SCK, MOSI and the software engine untouched. -/
def LinesAfter (s t : State) (f : List (Byte × Byte)) : Prop :=
  t.bus.pins.cs.latch = true ∧
    match s.params.mode with
    | .sw => t.bus.pins.sck.latch = true ∧ some t.bus.pins.mosi.latch = f.getLast?.map (fun x => x.1.getLsbD 0) ∧
        t.bus.hwx = s.bus.hwx
    | .hw => t.bus.pins.sck = s.bus.pins.sck ∧ t.bus.pins.mosi = s.bus.pins.mosi ∧ t.bus.engine = s.bus.engine

/-- A completed operation whose one frame is `f` (pairs sent and received), appended to both traces. -/
def Completed (s t : State) (f : List (Byte × Byte)) : Prop :=
  AtRest t ∧ t.respValid = true ∧ Untouched s t ∧ RegsKept s t ∧ LinesAfter s t f ∧
    t.bus.frames = s.bus.frames ++ [f] ∧ t.bus.trace = s.bus.trace ++ frameEvents s.params.mode f

/-! ### The invariant -/

/-- No exchange of a frame has the phase IDLE (R21). -/
def phasesOk (todo : List Beat) : Bool :=
  todo.all fun b =>
    match b with
    | .byte ph _ _ => decide (ph ≠ .idle)
    | .stream _ => true
    | .malformed _ => true

/-- What every step keeps: `SEQ = IDLE` exactly when `BUSY = 0` (R21); an idle block holds no operation; once `INIT` is
set, or BEGIN has begun its frame, the pins are configured (R28); CS is 1 between operations of an initialised block and
0 inside one (R41, R183); the device's memory has its canonical form. -/
def BlockInv (s : State) : Prop :=
  (s.busy = false ↔ s.seq = .idle) ∧
  (s.busy = false → s.op = none ∧ s.todo = [] ∧ s.got = []) ∧
  (s.busy = true → s.op.isSome = true ∧ s.bus.pins.cs.latch = false) ∧
  ((s.init = true ∨ s.op = some .begin) → pinsConfigured s.params s.bus = true) ∧
  (s.busy = false → s.init = true → s.bus.pins.cs.latch = true) ∧
  phasesOk s.todo = true ∧
  Memory.wf s.bus.chip.mem = true

/-- The open frame `f`, with the exchanges `todo` still to do, starts with one of the seven opcodes (R85, R92), or is still
empty with the exchange of one of them next. -/
def opensWithOpcode (o : Opcodes) (todo : List Beat) (f : List (Byte × Byte)) : Prop :=
  (∃ x, f.head? = some x ∧ x.1 ∈ o.toList) ∨ (f = [] ∧ ∃ op rest, todo = opcBeat op :: rest ∧ op ∈ o.toList)

/-- The open frame of a busy block starts with one of the seven opcodes, or will. -/
def OpcodeInv (s : State) : Prop := s.busy = true → opensWithOpcode s.params.opc s.todo s.bus.frame

/-! ### Runs -/

/-- The state after `n` steps that all answer a next state. -/
def runSteps : Nat → State → Option State
  | 0, s => some s
  | n + 1, s =>
    match step s with
    | .next t => runSteps n t
    | .fault _ => none
    | .refused _ => none

/-! ### The frames of the host operations -/

/-- The bytes BEGIN's identity probe sends (R83, R112). -/
def probeBytes (p : Params) : List Byte := [p.opc.rdid, p.dummy, p.dummy, p.dummy, p.dummy]

/-- The bytes the operation sends in its one frame, as a function of its operands, `ADDR_W` and the stream (R81 to R84,
R96); `none` for an operation without a frame, for BEGIN, whose frame follows its pin configuration, and where
`EmitAddress` is undefined (R141). -/
def opBytes (s : State) : Instr → Option (List Byte)
  | .writeEnableT => some [s.params.opc.wren]
  | .writeEnableF => some [s.params.opc.wrdi]
  | .write8 a v => (widthOf s.addrW).map fun w => s.params.opc.write :: addrBytes w a ++ [v]
  | .write a count => (widthOf s.addrW).map fun w => s.params.opc.write :: addrBytes w a ++ s.wdat.take count.toNat
  | .read8 a => (widthOf s.addrW).map fun w => s.params.opc.read :: addrBytes w a ++ [s.params.dummy]
  | .getDeviceId =>
    some [s.params.opc.rdid, s.params.dummy, s.params.dummy, s.params.dummy, s.params.dummy]
  | .getStatus => some [s.params.opc.rdsr, s.params.dummy]
  | .setStatus v => some [s.params.opc.wrsr, v]
  | .begin => none
  | .getAddrLen => none
  | .setAddrLen _ => none
  | .wireWren => none
  | .wireWrdi => none
  | .wireRdsr => none
  | .wireWrsr _ => none
  | .wireRead _ _ => none
  | .wireWrite _ _ _ => none
  | .wireRdid => none

/-- The stream holds every byte WRITE needs (R99, R244). -/
def streamFull (s : State) : Instr → Bool
  | .write _ count => decide (count.toNat ≤ s.wdat.length)
  | _ => true

/-- Which operations touch pins and need `INIT` in conduct `strict` (R213). -/
def pinOpOf : Instr → Option OpKind
  | .writeEnableT => some .writeEnableT
  | .writeEnableF => some .writeEnableF
  | .write8 _ _ => some .write8
  | .write _ _ => some .write
  | .read8 _ => some .read8
  | .getDeviceId => some .getDeviceId
  | .getStatus => some .getStatus
  | .setStatus _ => some .setStatus
  | _ => none

/-- The rows of the wire encoding. -/
def isWire : Instr → Bool
  | .wireWren => true
  | .wireWrdi => true
  | .wireRdsr => true
  | .wireWrsr _ => true
  | .wireRead _ _ => true
  | .wireWrite _ _ _ => true
  | .wireRdid => true
  | _ => false

/-- The device address a host address reaches: `A mod 2^(8 ADDR_W)` (R66), and in RefFRAM modulo `MEM_BYTES` (R64). -/
def deviceAddr (w : AddrWidth) (memBytes : Nat) (a : Nat) : Nat := a % 2 ^ (8 * w.bytes) % memBytes

/-- The cells a block of data bytes goes to: ascending addresses from the truncated address (R53, R59), modulo
`MEM_BYTES` (R64). -/
def blockCells (memBytes a : Nat) (data : List Byte) : List Host.Cell :=
  data.zipIdx.map fun x => ((a + x.2) % memBytes, x.1)

/-- An addressed frame has as many address bytes as the attached device expects (R64, R89, R243). -/
def widthMatches (w : AddrWidth) : Instr → Bool
  | .wireRead v _ => decide (v = w)
  | .wireWrite v _ _ => decide (v = w)
  | _ => true

/-- The wire contract of R189 on a list of events, SCK being at the given level before it: MOSI changes only while SCK
is low (a), MISO is sampled only while SCK is high (c). -/
def edgesOk : Bool → List Event → Bool
  | _, [] => true
  | _, .pinWrite .sck v :: es => edgesOk v es
  | sck, .pinWrite .mosi _ :: es => !sck && edgesOk sck es
  | sck, .pinRead _ _ :: es => sck && edgesOk sck es
  | sck, .pinWrite .cs _ :: es => edgesOk sck es
  | sck, .pinWrite .miso _ :: es => edgesOk sck es
  | sck, .pinMode _ _ :: es => edgesOk sck es
  | sck, .hwInit _ :: es => edgesOk sck es
  | sck, .hwExchange _ _ :: es => edgesOk sck es

end Sys2Proof.Machine
end

