-- ==== Sys2Proof/Certificates/Slice0/Obligations.lean ====
section
/-! DEFINITION. The statements for the provers, in the order encoding, reset and step, invariants and whole-machine
rules, the operations, the exchange, the device, and the headlines. -/

open Sys2Proof Sys2Proof.Machine

/-! ### Encoding -/

/-- Words written out from R97 and R81 to R86 decode to the instructions they stand for. -/
def Obligations.SpecWordsDecode : Prop :=
  decode .default 0x00 .w2 (.command { word := 0b10011, addr := 0, data := 0, count := 0 }) = .ok .writeEnableT ∧
  decode .default 0x00 .w2 (.command { word := 0b00011, addr := 0, data := 0, count := 0 }) = .ok .writeEnableF ∧
  decode .default 0x00 .w2 (.command { word := 0b00100, addr := 0x0010, data := 0xA5, count := 0 }) =
    .ok (.write8 0x0010 0xA5) ∧
  decode .default 0x00 .w2 (.command { word := 0b10101, addr := 0x0010, data := 0, count := 4 }) =
    .ok (.write 0x0010 4) ∧
  decode .default 0x00 .w3 (.frame [0x03, 0x01, 0x23, 0x45, 0x00]) = .ok (.wireRead .w3 0x012345) ∧
  decode .default 0x00 .w2 (.frame [0x02, 0x00, 0x10, 0xDE, 0xAD]) = .ok (.wireWrite .w2 0x0010 [0xDE, 0xAD]) ∧
  decode .default 0x00 .w2 (.frame [0x9F, 0x00, 0x00, 0x00, 0x00]) = .ok .wireRdid ∧
  decode .default 0x00 .w2 (.frame [0x01, 0x80]) = .ok (.wireWrsr 0x80)

/-- Decoding an encoded well-formed instruction gives it back, for every opcode assignment that is pairwise distinct
(R85), every dummy byte and every address width of the device. -/
def Obligations.DecodeEncodeRoundTrip : Prop :=
  ∀ (o : Opcodes) (dummy : Byte) (w : AddrWidth) (i : Instr),
    o.Distinct → i.wellFormed = true → widthMatches w i = true → decode o dummy w (encode o dummy i) = .ok i

/-- Every frame the decoder accepts is the encoding of the well-formed wire instruction it gives (R80 to R84, R92). -/
def Obligations.FrameHasOneMeaning : Prop :=
  ∀ (o : Opcodes) (dummy : Byte) (w : AddrWidth) (bytes : List Byte) (i : Instr),
    decode o dummy w (.frame bytes) = .ok i →
      i.wellFormed = true ∧ isWire i = true ∧ widthMatches w i = true ∧ encode o dummy i = .frame bytes

/-- The command word (R97, R98): the ten rows of R97's table with the ports they read, codes 0 to 9 being well-formed host
operations; 10 to 15 are rejected by name; and `cmd_en` matters only for code 3. -/
def Obligations.CommandWordTable : Prop :=
  ∀ c : Command,
    (cmdOp c.word = 0x0 → decodeCommand c = .ok .begin) ∧
    (cmdOp c.word = 0x1 → decodeCommand c = .ok .getAddrLen) ∧
    (cmdOp c.word = 0x2 → decodeCommand c = .ok (.setAddrLen c.data)) ∧
    (cmdOp c.word = 0x3 → cmdEn c.word = true → decodeCommand c = .ok .writeEnableT) ∧
    (cmdOp c.word = 0x3 → cmdEn c.word = false → decodeCommand c = .ok .writeEnableF) ∧
    (cmdOp c.word = 0x4 → decodeCommand c = .ok (.write8 c.addr c.data)) ∧
    (cmdOp c.word = 0x5 → decodeCommand c = .ok (.write c.addr c.count)) ∧
    (cmdOp c.word = 0x6 → decodeCommand c = .ok (.read8 c.addr)) ∧
    (cmdOp c.word = 0x7 → decodeCommand c = .ok .getDeviceId) ∧
    (cmdOp c.word = 0x8 → decodeCommand c = .ok .getStatus) ∧
    (cmdOp c.word = 0x9 → decodeCommand c = .ok (.setStatus c.data)) ∧
    ((cmdOp c.word).toNat < 10 → ∃ i, decodeCommand c = .ok i ∧ isWire i = false ∧ i.wellFormed = true) ∧
    (10 ≤ (cmdOp c.word).toNat → decodeCommand c = .error (.reservedCommand (cmdOp c.word))) ∧
    ((cmdOp c.word).toNat ≠ 3 → ∀ c' : Command, cmdOp c'.word = cmdOp c.word → c'.addr = c.addr → c'.data = c.data →
      c'.count = c.count → decodeCommand c' = decodeCommand c)

/-- The address field (R86): for `ADDR_W` 1, 2, 3 exactly that many bytes of the operand, most significant first, bits
above the width not sent; their value is the operand modulo `2^(8 w)`; for other values of `ADDR_W` there is no field. -/
def Obligations.AddressFieldBytes : Prop :=
  (∀ (w : AddrWidth) (a : Addr),
    (addrBytes w a).length = w.bytes ∧
    (∀ k, k < w.bytes → (addrBytes w a)[k]? = some (a.extractLsb' (8 * (w.bytes - 1 - k)) 8)) ∧
    (addrBytes w a).foldl (fun n x => n * 256 + x.toNat) 0 = a.toNat % 2 ^ (8 * w.bytes)) ∧
  (∀ r : Byte, (∀ w, widthOf r = some w ↔ r.toNat = w.bytes) ∧ (widthOf r = none ↔ r ≠ 1 ∧ r ≠ 2 ∧ r ≠ 3))

/-! ### Reset and the step -/

/-- Construction (R230), in either form: the parameters of the form and the "after reset" column of R39; nothing is read
from the device and nothing is emitted. The input `rst` puts an idle block into the same column, with its parameters, what
is attached, both traces and what the host presents as they were; while `BUSY = 1` it has no move, and the operation in
progress goes on. That construction is the reset, and that `rst` has no move in an operation, is the spec's own decision
(R230, R232, D8); that `rst` is an input which waits for an idle block, and does not end a hang, is the model's choice
(assumption 25), and so are the two latches (R39, D9, assumption 21). -/
def Obligations.ConstructionValues : Prop :=
  (∀ (cs clock dataIn dataOut : Nat) (w : Wiring) (c : Chip) (budget : Option Nat),
    constructHw cs w c budget = construct (paramsOf (.hw cs)) w c budget ∧ (paramsOf (.hw cs)).mode = .hw ∧
    constructSw clock dataIn dataOut cs w c = construct (paramsOf (.sw clock dataIn dataOut cs)) w c none ∧
    (paramsOf (.sw clock dataIn dataOut cs)).mode = .sw) ∧
  (∀ (p : Params) (w : Wiring) (c : Chip) (budget : Option Nat),
    let s := construct p w c budget
    s.params = p ∧ ResetColumn s ∧ s.bus.chip = c ∧ s.bus.trace = [] ∧ s.bus.frames = []) ∧
  ∀ (s : State) (g : Agent) (rest : List Entry), s.inbox = { agent := g, enc := .rst } :: rest →
    (s.busy = false → ∃ t, step s = .next t ∧ ResetColumn t ∧ t.params = s.params ∧ t.bus.wiring = s.bus.wiring ∧
      t.bus.chip = s.bus.chip ∧ t.bus.trace = s.bus.trace ∧ t.bus.frames = s.bus.frames ∧ t.inbox = rest ∧
      t.wdat = s.wdat) ∧
    (s.busy = true → step s = resume s ∧ ∀ t, step s = .next t → t.inbox = s.inbox)

/-- The two invariants hold at reset, and after every construction; that of the block where the device's memory is
canonical. -/
def Obligations.InvAtReset : Prop :=
  BlockInv State.reset ∧ OpcodeInv State.reset ∧
  ∀ (p : Params) (w : Wiring) (c : Chip) (budget : Option Nat),
    OpcodeInv (construct p w c budget) ∧ (Memory.wf c.mem = true → BlockInv (construct p w c budget))

/-- An idle block whose next input decodes to an instruction runs it; the step adds nothing but taking the input. That the
input of a second agent is taken by an idle block like the host's is the model's choice (assumption 19; R223). -/
def Obligations.StepRunsDecoded : Prop :=
  ∀ (s : State) (e : Entry) (rest : List Entry) (i : Instr),
    s.busy = false → s.inbox = e :: rest → decodeInput s e.enc = .ok i → step s = exec i { s with inbox := rest }

/-- With nothing presented an idle block stays as it is, the response pulse being over (R36, R233; the pulse's end at
that step is the model's own choice, assumption 27). -/
def Obligations.IdleBlockWaits : Prop :=
  ∀ s : State, s.busy = false → s.inbox = [] → step s = .next { s with respValid := false }

/-- R98: a word with a reserved code selects no operation: a model refuses it, and in hardware it is consumed with no
effect on any state, no frame and no response. Operand ports an operation does not read are ignored by it. Both treatments
are the spec's own decision (D3), and that they are the conducts `strict` and `hardware` of one machine is the model's
choice (assumptions 30 and 6), and so is that a second agent's word is taken by an idle block like the host's (assumption
19). -/
def Obligations.ReservedCommandWord : Prop :=
  (∀ (s : State) (g : Agent) (c : Command) (rest : List Entry),
    s.busy = false → s.inbox = { agent := g, enc := .command c } :: rest → 10 ≤ (cmdOp c.word).toNat →
      (s.params.conduct = .strict → step s = .refused (.reservedCommand (cmdOp c.word))) ∧
      (s.params.conduct = .hardware → step s = .next { s with inbox := rest })) ∧
  (∀ c c' : Command, c'.word = c.word →
    ((cmdOp c.word).toNat ∈ [4, 5, 6] → c'.addr = c.addr) → ((cmdOp c.word).toNat ∈ [2, 4, 9] → c'.data = c.data) →
    ((cmdOp c.word).toNat = 5 → c'.count = c.count) → decodeCommand c' = decodeCommand c)

/-! ### Invariants and whole-machine rules -/

/-- Every step keeps the invariant. -/
def Obligations.StepKeepsInv : Prop :=
  ∀ s t : State, BlockInv s → step s = .next t → BlockInv t

/-- "Set once at construction; immutable thereafter" (R22, R111): no step changes the parameters, what is attached, or
the device's own parameters. -/
def Obligations.StepKeepsParameters : Prop :=
  ∀ s t : State, step s = .next t →
    t.params = s.params ∧ t.bus.wiring = s.bus.wiring ∧ t.bus.chip.params = s.bus.chip.params

/-- "no operation other than SETADDRLEN changes ADDR_W" (R24, R40), an operation that was left waiting included. -/
def Obligations.OnlySetAddrLenWritesAddrW : Prop :=
  (∀ (i : Instr) (s t : State), exec i s = .next t → t.addrW = s.addrW ∨ i = .setAddrLen t.addrW) ∧
  (∀ s t : State, s.busy = true → step s = .next t → t.addrW = s.addrW)

/-- `INIT` is set by BEGIN and cleared by no operation (R25); only reset clears it (R39, `ConstructionValues`). -/
def Obligations.InitSetByBeginOnly : Prop :=
  (∀ (i : Instr) (s t : State), exec i s = .next t → t.init = s.init ∨ (i = .begin ∧ t.init = true)) ∧
  (∀ s t : State, s.busy = true → step s = .next t → t.init = s.init ∨ (s.op = some .begin ∧ t.init = true))

/-- "No operation other than BEGIN changes a pin direction" (R40), and no operation that was left waiting does, BEGIN
included. -/
def Obligations.OnlyBeginChangesDirections : Prop :=
  (∀ (i : Instr) (s t : State), i ≠ .begin → exec i s = .next t →
    t.bus.pins.cs.dir = s.bus.pins.cs.dir ∧ t.bus.pins.sck.dir = s.bus.pins.sck.dir ∧
    t.bus.pins.mosi.dir = s.bus.pins.mosi.dir ∧ t.bus.pins.miso.dir = s.bus.pins.miso.dir) ∧
  (∀ s t : State, s.busy = true → step s = .next t →
    t.bus.pins.cs.dir = s.bus.pins.cs.dir ∧ t.bus.pins.sck.dir = s.bus.pins.sck.dir ∧
    t.bus.pins.mosi.dir = s.bus.pins.mosi.dir ∧ t.bus.pins.miso.dir = s.bus.pins.miso.dir)

/-- Every step only appends to the traces, and adds at most one completed frame. The order of events and of frames is that
of R67; that the traces are fields of the state which only grow is the model's choice (assumption 26; R224 calls the trace an
artefact of the model), and so is that a step is one operation (assumption 18). -/
def Obligations.TracesOnlyGrow : Prop :=
  ∀ s t : State, step s = .next t →
    (∃ es, t.bus.trace = s.bus.trace ++ es) ∧
    (t.bus.frames = s.bus.frames ∨ ∃ f, t.bus.frames = s.bus.frames ++ [f])

/-- The block emits no opcode other than the seven (R92): the frame a host operation completes starts with one, and so does
the frame that a resumed step completes, from every state whose open frame does. -/
def Obligations.OnlyKnownOpcodesEmitted : Prop :=
  (∀ (i : Instr) (s t : State) (f : List (Byte × Byte)),
    isWire i = false → exec i s = .next t → t.bus.frames = s.bus.frames ++ [f] →
      ∃ x, f.head? = some x ∧ x.1 ∈ s.params.opc.toList) ∧
  (∀ (s t : State) (f : List (Byte × Byte)),
    OpcodeInv s → s.busy = true → step s = .next t → t.bus.frames = s.bus.frames ++ [f] →
      ∃ x, f.head? = some x ∧ x.1 ∈ s.params.opc.toList)

/-- `NotInitialised` (R213, R236) is decided at acceptance, whatever `ADDR_W` is, so it takes precedence over
`MalformedWidth` (R215). -/
def Obligations.NotInitialisedTakesPrecedence : Prop :=
  ∀ (i : Instr) (k : OpKind) (s : State),
    pinOpOf i = some k → s.busy = false → s.init = false → s.params.conduct = .strict →
      exec i s = .refused (.notInitialised k)

/-- While `BUSY = 1` nothing is accepted (R26, R213, R223). At the step: a command of the host waits in the inbox, and
the operation in progress goes on; a second agent's command and anyone's frame are `Overlap` in conduct `strict`; in
conduct `hardware` a command of either agent waits, and a frame is taken and disturbs the device. `exec` itself: `Overlap`
in conduct `strict`, and no effect of a host operation in conduct `hardware`. R213 gives `Overlap` to a second host agent
only: what `exec` answers there, and the two conducts, are the model's choice (assumptions 32, 19 and 6), and so is the
disturbed device (assumptions 19 and 22). -/
def Obligations.OverlapWhileBusy : Prop :=
  (∀ (i : Instr) (s : State), s.busy = true → s.params.conduct = .strict → exec i s = .refused .overlap) ∧
  (∀ (i : Instr) (s : State), s.busy = true → s.params.conduct = .hardware → isWire i = false → exec i s = .next s) ∧
  (∀ (s : State) (c : Command) (rest : List Entry), s.busy = true → s.params.conduct = .strict →
    s.inbox = { agent := .second, enc := .command c } :: rest → step s = .refused .overlap) ∧
  (∀ (s : State) (g : Agent) (bytes : List Byte) (rest : List Entry), s.busy = true →
    s.inbox = { agent := g, enc := .frame bytes } :: rest →
      (s.params.conduct = .strict → step s = .refused .overlap) ∧
      (s.params.conduct = .hardware →
        step s = resume { s with inbox := rest, bus := busDisturb (frameBits bytes) s.bus })) ∧
  (∀ (s : State) (g : Agent) (c : Command) (rest : List Entry), s.busy = true →
    (g = .primary ∨ s.params.conduct = .hardware) → s.inbox = { agent := g, enc := .command c } :: rest →
      step s = resume s ∧ ∀ t, step s = .next t → t.inbox = s.inbox)

/-- An addressed operation with `ADDR_W` outside 1, 2, 3 is the fault of R141, after its opcode exchange, in conduct
`strict`. -/
def Obligations.MalformedWidthFaults : Prop :=
  ∀ (s : State) (a : Addr) (v : Byte) (n : Half),
    Admitted s → s.params.conduct = .strict → widthOf s.addrW = none → engineLasts 1 s = true →
      exec (.write8 a v) s = .fault (.malformedWidth s.addrW) ∧ exec (.write a n) s = .fault (.malformedWidth s.addrW) ∧
      exec (.read8 a) s = .fault (.malformedWidth s.addrW)

/-- In conduct `hardware` "the operation still completes with CS deasserted" (R141): WRITE8, WRITE and READ8 emit one
frame, the opcode, some bytes `xs` in the place of the address, and the data or the dummy; in software mode, and in
hardware mode with a peripheral that completes every exchange. WRITE takes the first `count` bytes of the stream in
order (R144). Which bytes `xs` are is a free value (assumption 4); that bytes offered beyond `count` stay on the
stream is the model's choice (assumption 33), and so is, before BEGIN, that the byte-level trace gets this frame
(assumption 5; R236). -/
def Obligations.MalformedWidthHardwareCompletes : Prop :=
  ∀ (s : State) (a : Addr) (v : Byte) (count : Half),
    s.busy = false → s.params.conduct = .hardware → (∀ n, engineLasts n s = true) → widthOf s.addrW = none →
      ∃ xs : List Byte,
        (∃ f t, exec (.write8 a v) s = .next t ∧ Completed s t f ∧ f.map Prod.fst = s.params.opc.write :: xs ++ [v] ∧
          t.wdat = s.wdat) ∧
        (count.toNat ≤ s.wdat.length → ∃ f t, exec (.write a count) s = .next t ∧ Completed s t f ∧
          f.map Prod.fst = s.params.opc.write :: xs ++ s.wdat.take count.toNat ∧ t.wdat = s.wdat.drop count.toNat) ∧
        (∃ f t, exec (.read8 a) s = .next t ∧ Completed s t f ∧
          f.map Prod.fst = s.params.opc.read :: xs ++ [s.params.dummy] ∧ t.wdat = s.wdat)

/-! ### The operations -/

/-- GETADDRLEN (R114): its word, its result whatever was stored, 2 after construction and after every run from there whose
inputs hold no SETADDRLEN, and nothing else: no pin, no frame, no need of BEGIN. -/
def Obligations.GetAddrLenReturnsWidth : Prop :=
  (∀ c : Command, (cmdOp c.word).toNat = 1 → decodeCommand c = .ok .getAddrLen) ∧
  (∀ (p : Params) (w : Wiring) (c : Chip) (budget : Option Nat) (es : List Entry) (ws : List Byte) (n : Nat) (s : State),
    (∀ e ∈ es, ∀ m, decodeInput (construct p w c budget) e.enc ≠ .ok (.setAddrLen m)) →
    runSteps n { construct p w c budget with inbox := es, wdat := ws } = some s → s.busy = false →
      ∃ t, exec .getAddrLen s = .next t ∧ t.resp.data = 2) ∧
  ∀ s : State, s.busy = false →
    ∃ t, exec .getAddrLen s = .next t ∧ t.resp.data = s.addrW ∧ AtRest t ∧ t.respValid = true ∧ Untouched s t ∧
      RegsKept s t ∧ t.bus = s.bus ∧ t.wdat = s.wdat

/-- SETADDRLEN (R115, R116): any 8-bit value is stored without a check, no pin moves, and the register reads back exactly
what was written. -/
def Obligations.SetAddrLenStoresAnyValue : Prop :=
  ∀ (n : Byte) (s : State), s.busy = false →
    ∃ t u, exec (.setAddrLen n) s = .next t ∧ t.addrW = n ∧ AtRest t ∧ t.respValid = true ∧ Untouched s t ∧
      t.init = s.init ∧ t.bus = s.bus ∧ t.wdat = s.wdat ∧ exec .getAddrLen t = .next u ∧ u.resp.data = n

/-- BEGIN (R112, R113, R196): whatever the device answers and whatever `ADDR_W` is, one identity frame after the pin
configuration, `INIT = 1`, `R_OK = 1`, the pins configured, CS 1. -/
def Obligations.BeginCompletes : Prop :=
  ∀ s : State, s.busy = false → engineLasts 5 s = true →
    ∃ f t, exec .begin s = .next t ∧
      f.map Prod.fst = [s.params.opc.rdid, s.params.dummy, s.params.dummy, s.params.dummy, s.params.dummy] ∧
      t.init = true ∧ t.resp.ok = true ∧ AtRest t ∧ t.respValid = true ∧ Untouched s t ∧ t.addrW = s.addrW ∧
      t.wdat = s.wdat ∧ pinsConfigured t.params t.bus = true ∧ LinesAfter s t f ∧ t.bus.frames = s.bus.frames ++ [f] ∧
      t.bus.trace = s.bus.trace ++ configEvents s.params ++ frameEvents s.params.mode f

/-- WRITEENABLE.T and WRITEENABLE.F (R130, R131): one frame of one byte, `[WREN]` or `[WRDI]`, and nothing else.
Before BEGIN, in conduct `hardware`, that the byte-level trace gets this frame is the model's choice (assumption 5;
R236). -/
def Obligations.WriteEnableEmitsOneByte : Prop :=
  ∀ s : State, Admitted s → engineLasts 1 s = true →
    (∃ rx t, exec .writeEnableT s = .next t ∧ Completed s t [(s.params.opc.wren, rx)] ∧ t.wdat = s.wdat) ∧
    (∃ rx t, exec .writeEnableF s = .next t ∧ Completed s t [(s.params.opc.wrdi, rx)] ∧ t.wdat = s.wdat)

/-- WRITE8 (R143): one frame `[WRITE, w address bytes, v]`, and nothing else in the block. Before BEGIN, in conduct
`hardware`, that the byte-level trace gets this frame is the model's choice (assumption 5; R236). -/
def Obligations.Write8EmitsFrame : Prop :=
  ∀ (s : State) (a : Addr) (v : Byte) (w : AddrWidth),
    Admitted s → widthOf s.addrW = some w → engineLasts (2 + w.bytes) s = true →
      ∃ f t, exec (.write8 a v) s = .next t ∧ Completed s t f ∧
        f.map Prod.fst = s.params.opc.write :: addrBytes w a ++ [v] ∧ t.wdat = s.wdat

/-- WRITE (R144, R145): one frame `[WRITE, w address bytes, buf[0] .. buf[count-1]]`, `count = 0` included; each byte
of the buffer is taken once, in order. That bytes offered beyond `count` stay on the stream is the model's choice
(assumption 33), and so is, before BEGIN in conduct `hardware`, that the byte-level trace gets this frame (assumption
5; R236). -/
def Obligations.WriteEmitsFrame : Prop :=
  ∀ (s : State) (a : Addr) (count : Half) (w : AddrWidth),
    Admitted s → widthOf s.addrW = some w → count.toNat ≤ s.wdat.length →
    engineLasts (1 + w.bytes + count.toNat) s = true →
      ∃ f t, exec (.write a count) s = .next t ∧ Completed s t f ∧
        f.map Prod.fst = s.params.opc.write :: addrBytes w a ++ s.wdat.take count.toNat ∧
        t.wdat = s.wdat.drop count.toNat

/-- READ8 (R146): one frame `[READ, w address bytes, DUMMY]`; the byte received with the dummy is the result. Before
BEGIN, in conduct `hardware`, that the byte-level trace gets this frame is the model's choice (assumption 5; R236). -/
def Obligations.Read8ReturnsLastByte : Prop :=
  ∀ (s : State) (a : Addr) (w : AddrWidth),
    Admitted s → widthOf s.addrW = some w → engineLasts (2 + w.bytes) s = true →
      ∃ f t, exec (.read8 a) s = .next t ∧ Completed s t f ∧
        f.map Prod.fst = s.params.opc.read :: addrBytes w a ++ [s.params.dummy] ∧
        f.getLast? = some (s.params.dummy, t.resp.data) ∧ t.wdat = s.wdat

/-- GETDEVICEID (R160, R161, R88): the manufacturer ID is a0, the product ID is a2 then a3, a1 is dropped; no value is
rejected and `ADDR_W` is not read. Before BEGIN, in conduct `hardware`, that the byte-level trace gets this frame is
the model's choice (assumption 5; R236). -/
def Obligations.GetDeviceIdShuffle : Prop :=
  ∀ s : State, Admitted s → engineLasts 5 s = true →
    ∃ r a0 a1 a2 a3 t, exec .getDeviceId s = .next t ∧
      Completed s t [(s.params.opc.rdid, r), (s.params.dummy, a0), (s.params.dummy, a1), (s.params.dummy, a2),
        (s.params.dummy, a3)] ∧
      t.resp.mfg = a0 ∧ t.resp.prod = (a2 ++ a3 : BitVec 16) ∧ t.wdat = s.wdat

/-- GETSTATUS (R162): the byte received with the dummy is the result; `ADDR_W` is not read. Before BEGIN, in conduct
`hardware`, that the byte-level trace gets this frame is the model's choice (assumption 5; R236). -/
def Obligations.GetStatusReturnsByte : Prop :=
  ∀ s : State, Admitted s → engineLasts 2 s = true →
    ∃ r v t, exec .getStatus s = .next t ∧ Completed s t [(s.params.opc.rdsr, r), (s.params.dummy, v)] ∧
      t.resp.data = v ∧ t.wdat = s.wdat

/-- SETSTATUS (R163): `[WRSR, v]`, the byte unchanged; `ADDR_W` is not read. Before BEGIN, in conduct `hardware`, that
the byte-level trace gets this frame is the model's choice (assumption 5; R236). -/
def Obligations.SetStatusEmitsFrame : Prop :=
  ∀ (s : State) (v : Byte), Admitted s → engineLasts 2 s = true →
    ∃ r r' t, exec (.setStatus v) s = .next t ∧ Completed s t [(s.params.opc.wrsr, r), (v, r')] ∧ t.wdat = s.wdat

/-- WRITE8(A, v) and WRITE(A, [v], 1) leave the same bus: the same pin-level trace, lines and device (R147 (a)). -/
def Obligations.WriteOfOneIsWrite8 : Prop :=
  ∀ (s : State) (a : Addr) (v : Byte) (w : AddrWidth) (ws : List Byte),
    Admitted s → widthOf s.addrW = some w → engineLasts (2 + w.bytes) s = true → s.wdat = v :: ws →
      ∃ t u, exec (.write8 a v) s = .next t ∧ exec (.write a 1) s = .next u ∧ t.bus = u.bus

/-- Two addresses that differ only above the width are one address for each of the three addressed operations (R66): the
same bus and the same result. -/
def Obligations.AddressesAlias : Prop :=
  ∀ (s : State) (a a' : Addr) (v : Byte) (w : AddrWidth),
    Admitted s → widthOf s.addrW = some w → engineLasts (2 + w.bytes) s = true →
    a.toNat % 2 ^ (8 * w.bytes) = a'.toNat % 2 ^ (8 * w.bytes) →
      (∃ t u, exec (.write8 a v) s = .next t ∧ exec (.write8 a' v) s = .next u ∧ t.bus = u.bus) ∧
      (∀ count : Half, count.toNat ≤ s.wdat.length → engineLasts (1 + w.bytes + count.toNat) s = true →
        ∃ t u, exec (.write a count) s = .next t ∧ exec (.write a' count) s = .next u ∧ t.bus = u.bus ∧ t.wdat = u.wdat) ∧
      (∃ t u, exec (.read8 a) s = .next t ∧ exec (.read8 a') s = .next u ∧ t.bus = u.bus ∧ t.resp.data = u.resp.data)

/-- The pin events of an operation whose frame has L bytes (R196): `1 + 32 L + 1` with 8 L clock pulses in software
mode, `1 + L + 1` in hardware mode, and one CS pair in both (R55). BEGIN, with L = 5, adds its configuration: five events or
three, one of them the write of CS 1. -/
def Obligations.EventCounts : Prop :=
  (∀ s : State, s.busy = false → engineLasts 5 s = true →
    ∃ t es, exec .begin s = .next t ∧ t.bus.trace = s.bus.trace ++ es ∧ es.count (.pinWrite .cs false) = 1 ∧
      es.count (.pinWrite .cs true) = 2 ∧
      (s.params.mode = .sw → es.length = 5 + (2 + 32 * 5) ∧ sckHighWrites es = 8 * 5) ∧
      (s.params.mode = .hw → es.length = 3 + (2 + 5) ∧ sckHighWrites es = 0)) ∧
  ∀ (i : Instr) (s : State) (txs : List Byte),
    opBytes s i = some txs → Admitted s → streamFull s i = true → engineLasts txs.length s = true →
      ∃ t es, exec i s = .next t ∧ t.bus.trace = s.bus.trace ++ es ∧ es.count (.pinWrite .cs false) = 1 ∧
        es.count (.pinWrite .cs true) = 1 ∧
        (s.params.mode = .sw → es.length = 2 + 32 * txs.length ∧ sckHighWrites es = 8 * txs.length) ∧
        (s.params.mode = .hw → es.length = 2 + txs.length ∧ sckHighWrites es = 0)

/-- The wire contract of the software strategy (R189): in every operation's events MOSI moves only while SCK is low and
MISO is sampled only while SCK is high, whatever level SCK had before; BEGIN's events included. -/
def Obligations.EdgeContract : Prop :=
  (∀ (s : State) (sck : Bool), s.busy = false → engineLasts 5 s = true →
    ∃ t es, exec .begin s = .next t ∧ t.bus.trace = s.bus.trace ++ es ∧ edgesOk sck es = true) ∧
  ∀ (i : Instr) (s : State) (txs : List Byte) (sck : Bool),
    opBytes s i = some txs → Admitted s → streamFull s i = true → engineLasts txs.length s = true →
      ∃ t es, exec i s = .next t ∧ t.bus.trace = s.bus.trace ++ es ∧ edgesOk sck es = true

/-! ### Waiting -/

/-- An exchange the peripheral does not complete leaves the operation in flight (R195, R216): `BUSY = 1`, CS low, no
response, the byte pending, no frame completed. BEGIN hangs so in its probe (R113), and `INIT` is as it was. -/
def Obligations.HangInExchange : Prop :=
  (∀ (s : State) (n : Nat),
    s.busy = false → s.params.mode = .hw → s.bus.hwx.budget = some n → n < (probeBytes s.params).length →
      ∃ t, exec .begin s = .next t ∧ t.busy = true ∧ t.seq ≠ .idle ∧ t.respValid = false ∧ t.init = s.init ∧
        t.bus.pins.cs.latch = false ∧ t.bus.hwx.pending = (probeBytes s.params)[n]? ∧ t.bus.frames = s.bus.frames) ∧
  ∀ (i : Instr) (s : State) (txs : List Byte) (n : Nat),
    opBytes s i = some txs → Admitted s → streamFull s i = true → s.params.mode = .hw →
    s.bus.hwx.budget = some n → n < txs.length →
      ∃ t, exec i s = .next t ∧ t.busy = true ∧ t.seq ≠ .idle ∧ t.respValid = false ∧
        t.bus.pins.cs.latch = false ∧ t.bus.hwx.pending = txs[n]? ∧ t.bus.frames = s.bus.frames

/-- A hang is for ever (R216): `BUSY` stays 1, CS stays where it is, and no later operation of the host is accepted. -/
def Obligations.HangIsPermanent : Prop :=
  ∀ (s : State) (ph : Seq) (tx : Byte) (keep : Bool) (rest : List Beat),
    s.busy = true → s.params.mode = .hw → s.bus.hwx.budget = some 0 → s.todo = .byte ph tx keep :: rest →
    (∀ e ∈ s.inbox, e.agent = .primary ∧ ∃ c, e.enc = .command c) →
      ∃ t, step s = .next t ∧ t.busy = true ∧ t.todo = s.todo ∧ t.inbox = s.inbox ∧ t.bus.pins = s.bus.pins ∧
        t.bus.hwx.budget = some 0 ∧ t.bus.trace = s.bus.trace ∧ t.bus.frames = s.bus.frames ∧ t.params = s.params

/-- WRITE without its whole buffer (R244): every byte the host offered is sent, then the frame stays open with CS low
and the operation waits for the next byte. Before BEGIN, in conduct `hardware`, that the byte-level trace has this
frame open is the model's choice (assumption 5; R236). -/
def Obligations.WriteWaitsForData : Prop :=
  ∀ (s : State) (a : Addr) (count : Half) (w : AddrWidth),
    Admitted s → widthOf s.addrW = some w → s.wdat.length < count.toNat →
    engineLasts (1 + w.bytes + count.toNat) s = true →
      ∃ t, exec (.write a count) s = .next t ∧ t.busy = true ∧ t.seq = .data s.wdat.length ∧ t.wdat = [] ∧
        wdatReady t = true ∧ t.respValid = false ∧ t.bus.pins.cs.latch = false ∧ t.bus.frames = s.bus.frames ∧
        t.bus.frame.map Prod.fst = s.params.opc.write :: addrBytes w a ++ s.wdat

/-! ### The exchange -/

/-- `XferSW` (R188): exactly the 32 events in their order, MOSI carrying the byte from bit 7 down and the samples the
result from bit 7 down; it ends with SCK 1 and MOSI at bit 0. -/
def Obligations.SoftwareExchangeSequence : Prop :=
  ∀ (o : Opcodes) (tx : Byte) (b : Bus),
    (xferSW o tx b).2.trace = b.trace ++ byteEvents tx (xferSW o tx b).1 ∧
    (byteEvents tx (xferSW o tx b).1).length = 32 ∧
    (xferSW o tx b).2.pins.sck.latch = true ∧ (xferSW o tx b).2.pins.mosi.latch = tx.getLsbD 0

/-- The two strategies on the same wiring exchange the same bytes (R193): the same answer, the same pulses on the wires, and
the device in the same state, whatever is attached. With an unknown device (R56) the pulses of a software exchange are those
of its byte, and the sample of turn k, which is bit 7 - k of the result (R188), is the oracle's answer to the history of the
wires up to the (k + 1)-th rising edge. That the oracle takes that history and the number of the sample, and that a pulse of
either strategy stands in it in one form, without the idle level of SCK, is the model's choice (assumption 13). -/
def Obligations.StrategiesEquivalent : Prop :=
  (∀ (p q : Params) (tx : Byte) (b : Bus),
    p.mode = .sw → q.mode = .hw → p.opc = q.opc → pinsConfigured p b = true → pinsConfigured q b = true →
    b.pins.cs.latch = false → b.hwx.budget ≠ some 0 →
      ∃ rx b1 b2, xfer p tx b = some (rx, b1) ∧ xfer q tx b = some (rx, b2) ∧ b1.chip = b2.chip ∧ b1.frame = b2.frame ∧
        b1.seen = b2.seen) ∧
  (∀ (o : Opcodes) (tx : Byte) (b : Bus),
    b.wiring = .arbitrary → b.pins.sck.dir = .out → b.pins.mosi.dir = .out →
      (xferSW o tx b).2.seen = b.seen ++ bytePulses tx ∧
      ∀ k, k < 8 → (xferSW o tx b).1.getLsbD (7 - k) =
        Config.sampleBit (b.seen ++ ((byteBits tx).take (k + 1)).flatMap pulse) (b.draws + k))

/-- MISO wired to MOSI (R194): every exchange returns the byte it sent, in either strategy, so READ8 and GETDEVICEID
return echoes of the dummy byte. -/
def Obligations.LoopbackEchoes : Prop :=
  (∀ (p : Params) (tx : Byte) (b : Bus), b.wiring = .loopback → pinsConfigured p b = true → b.hwx.budget ≠ some 0 →
    ∃ b', xfer p tx b = some (tx, b')) ∧
  (∀ (s : State) (a : Addr) (w : AddrWidth), s.bus.wiring = .loopback → BusReady s → Admitted s →
    widthOf s.addrW = some w → engineLasts (5 + w.bytes) s = true →
      (∃ t, exec (.read8 a) s = .next t ∧ t.resp.data = s.params.dummy) ∧
      (∃ t, exec .getDeviceId s = .next t ∧ t.resp.mfg = s.params.dummy ∧
        t.resp.prod = (s.params.dummy ++ s.params.dummy : BitVec 16)))

/-! ### The attached device -/

/-- Two canonical memories that read the same everywhere are equal. -/
def Obligations.CanonicalMemoryIsExtensional : Prop :=
  ∀ m n : Memory, Memory.wf m = true → Memory.wf n = true → (∀ a, memRead m a = memRead n a) → m = n

/-- Every frame of the wire encoding completes at the device and leaves the block alone: registers, pins, engines and
pin-level trace as before, one more frame with the instruction's bytes. -/
def Obligations.WireFramesLeaveBlockAlone : Prop :=
  ∀ (i : Instr) (s : State), isWire i = true → s.busy = false →
    ∃ f t, exec i s = .next t ∧ { t with bus := s.bus } = s ∧ t.bus.pins = s.bus.pins ∧ t.bus.engine = s.bus.engine ∧
      t.bus.hwx = s.bus.hwx ∧ t.bus.wiring = s.bus.wiring ∧ t.bus.chip.params = s.bus.chip.params ∧
      t.bus.trace = s.bus.trace ∧ t.bus.frames = s.bus.frames ++ [f] ∧
      f.map Prod.fst = frameBytes s.params.opc s.params.dummy i

/-- WREN enables writing, WRDI disables it, and neither changes memory or status (R62, R64). -/
def Obligations.WireWriteEnableLatch : Prop :=
  ∀ s : State, s.busy = false → s.bus.wiring = .fram → s.params.opc.Distinct →
    (∃ t, exec .wireWren s = .next t ∧ t.bus.chip.wel = true ∧ t.bus.chip.mem = s.bus.chip.mem ∧
      t.bus.chip.sr = s.bus.chip.sr) ∧
    (∃ t, exec .wireWrdi s = .next t ∧ t.bus.chip.wel = false ∧ t.bus.chip.mem = s.bus.chip.mem ∧
      t.bus.chip.sr = s.bus.chip.sr)

/-- An RDSR frame returns the status register and changes nothing; a WRSR frame replaces it if the device accepts writes
(R62, R63, R64). -/
def Obligations.WireStatusRegister : Prop :=
  ∀ (s : State) (v : Byte), s.busy = false → s.bus.wiring = .fram → s.params.opc.Distinct →
    (∃ r t, exec .wireRdsr s = .next t ∧
      t.bus.frames = s.bus.frames ++ [[(s.params.opc.rdsr, r), (s.params.dummy, s.bus.chip.sr)]] ∧
      t.bus.chip.mem = s.bus.chip.mem ∧ t.bus.chip.sr = s.bus.chip.sr ∧ t.bus.chip.wel = s.bus.chip.wel) ∧
    (∃ t, exec (.wireWrsr v) s = .next t ∧
      t.bus.chip.sr = (if chipAccepts s.bus.chip then v else s.bus.chip.sr) ∧ t.bus.chip.mem = s.bus.chip.mem ∧
      t.bus.chip.wel = (if s.bus.chip.params.requireWel then false else s.bus.chip.wel))

/-- A READ frame delivers the byte at the address and changes nothing but the address pointer; an RDID frame delivers the
four identification bytes (R61, R63, R64, R70). That the address counts modulo `MEM_BYTES` is R64's clause from general
knowledge (assumption 28, PRESUMED). -/
def Obligations.WireReads : Prop :=
  ∀ (s : State) (a : Addr24), s.busy = false → s.bus.wiring = .fram → s.params.opc.Distinct →
    (addrFits s.bus.chip.params.aw a = true →
      ∃ f t, exec (.wireRead s.bus.chip.params.aw a) s = .next t ∧ t.bus.frames = s.bus.frames ++ [f] ∧
        f.getLast? = some (s.params.dummy, memRead s.bus.chip.mem (a.toNat % s.bus.chip.params.memBytes)) ∧
        t.bus.chip.mem = s.bus.chip.mem ∧ t.bus.chip.sr = s.bus.chip.sr ∧ t.bus.chip.wel = s.bus.chip.wel) ∧
    (∃ r t, exec .wireRdid s = .next t ∧
      t.bus.frames = s.bus.frames ++ [[(s.params.opc.rdid, r), (s.params.dummy, s.bus.chip.params.id0),
        (s.params.dummy, s.bus.chip.params.id1), (s.params.dummy, s.bus.chip.params.id2),
        (s.params.dummy, s.bus.chip.params.id3)]] ∧
      t.bus.chip.mem = s.bus.chip.mem ∧ t.bus.chip.sr = s.bus.chip.sr ∧ t.bus.chip.wel = s.bus.chip.wel)

/-- A WRITE frame commits its bytes at ascending addresses when CS rises, if the device accepts writes, and every other
byte is unchanged (R53, R59, R60, R62, R64). That the addresses count modulo `MEM_BYTES` is R64's clause from general
knowledge (assumption 28, PRESUMED). -/
def Obligations.WireWriteCommits : Prop :=
  ∀ (s : State) (a : Addr24) (data : List Byte),
    s.busy = false → s.bus.wiring = .fram → s.params.opc.Distinct → addrFits s.bus.chip.params.aw a = true →
    Memory.wf s.bus.chip.mem = true →
      ∃ t, exec (.wireWrite s.bus.chip.params.aw a data) s = .next t ∧
        t.bus.chip.mem = (if chipAccepts s.bus.chip
          then memWriteAll s.bus.chip.mem (blockCells s.bus.chip.params.memBytes a.toNat data) else s.bus.chip.mem) ∧
        (∀ x, (∀ c ∈ blockCells s.bus.chip.params.memBytes a.toNat data, c.1 ≠ x) →
          memRead t.bus.chip.mem x = memRead s.bus.chip.mem x) ∧
        t.bus.chip.sr = s.bus.chip.sr

/-- BEGIN's probe changes neither memory nor status nor the write-protect latch (R40). -/
def Obligations.BeginChangesNoChipState : Prop :=
  ∀ s : State, s.busy = false → engineLasts 5 s = true → s.params.opc.Distinct → wire s.bus.pins.cs ≠ some false →
    ∃ t, exec .begin s = .next t ∧ t.bus.chip.mem = s.bus.chip.mem ∧ t.bus.chip.sr = s.bus.chip.sr ∧
      t.bus.chip.wel = s.bus.chip.wel

/-- An operation that stores nothing leaves every byte of the device's memory as it was (R40, R70). -/
def Obligations.NonStoringOperationsKeepMemory : Prop :=
  ∀ (i : Instr) (s t : State),
    isWire i = false → (∀ a v, i ≠ .write8 a v) → (∀ a n, i ≠ .write a n) → s.busy = false → BusReady s →
    s.params.opc.Distinct → exec i s = .next t → ∀ x, memRead t.bus.chip.mem x = memRead s.bus.chip.mem x

/-- WRITE8 into RefFRAM with as many address bytes as `ADDR_W` (R60, R62, R66, R143): the byte at
`A mod 2^(8 ADDR_W) mod MEM_BYTES` is the value if the device accepts writes, every other byte, and every byte of a
device that does not accept, is unchanged, and so is the status register. The `mod MEM_BYTES` is R64's clause from general
knowledge (assumption 28, PRESUMED). -/
def Obligations.Write8StoresOneByte : Prop :=
  ∀ (s : State) (a : Addr) (v : Byte),
    Admitted s → BusReady s → s.bus.wiring = .fram → s.params.opc.Distinct → Memory.wf s.bus.chip.mem = true →
    widthOf s.addrW = some s.bus.chip.params.aw → engineLasts (2 + s.bus.chip.params.aw.bytes) s = true →
      ∃ t, exec (.write8 a v) s = .next t ∧
        memRead t.bus.chip.mem (deviceAddr s.bus.chip.params.aw s.bus.chip.params.memBytes a.toNat) =
          (if chipAccepts s.bus.chip then v
            else memRead s.bus.chip.mem (deviceAddr s.bus.chip.params.aw s.bus.chip.params.memBytes a.toNat)) ∧
        (∀ x, x ≠ deviceAddr s.bus.chip.params.aw s.bus.chip.params.memBytes a.toNat →
          memRead t.bus.chip.mem x = memRead s.bus.chip.mem x) ∧
        t.bus.chip.sr = s.bus.chip.sr

/-- WRITE into RefFRAM (R53, R59, R60, R144): the bytes of the stream at ascending addresses, committed once, if the
device accepts writes; every other byte and the status register are unchanged; `count = 0` changes nothing. That the
addresses wrap modulo `MEM_BYTES` is R64's clause from general knowledge (assumption 28, PRESUMED). -/
def Obligations.WriteStoresBlock : Prop :=
  ∀ (s : State) (a : Addr) (count : Half),
    Admitted s → BusReady s → s.bus.wiring = .fram → s.params.opc.Distinct → Memory.wf s.bus.chip.mem = true →
    widthOf s.addrW = some s.bus.chip.params.aw → count.toNat ≤ s.wdat.length →
    engineLasts (1 + s.bus.chip.params.aw.bytes + count.toNat) s = true →
      ∃ t, exec (.write a count) s = .next t ∧
        let cells := blockCells s.bus.chip.params.memBytes (a.toNat % 2 ^ (8 * s.bus.chip.params.aw.bytes))
          (s.wdat.take count.toNat)
        t.bus.chip.mem = (if chipAccepts s.bus.chip then memWriteAll s.bus.chip.mem cells else s.bus.chip.mem) ∧
        (∀ x, (∀ c ∈ cells, c.1 ≠ x) → memRead t.bus.chip.mem x = memRead s.bus.chip.mem x) ∧
        t.bus.chip.sr = s.bus.chip.sr

/-- SETSTATUS into RefFRAM (R60, R62, R163): the status register is the byte if the device accepts writes. -/
def Obligations.SetStatusStores : Prop :=
  ∀ (s : State) (v : Byte),
    Admitted s → BusReady s → s.bus.wiring = .fram → s.params.opc.Distinct → engineLasts 2 s = true →
      ∃ t, exec (.setStatus v) s = .next t ∧
        t.bus.chip.sr = (if chipAccepts s.bus.chip then v else s.bus.chip.sr) ∧ t.bus.chip.mem = s.bus.chip.mem

/-- A WRITE that waits for data has changed no byte of the device (R55, R60, R248): the block is observed not at all
before CS rises. -/
def Obligations.WaitingWriteCommitsNothing : Prop :=
  ∀ (s t : State) (a : Addr) (count : Half),
    BusReady s → s.busy = false → exec (.write a count) s = .next t → t.busy = true →
      t.bus.chip.mem = s.bus.chip.mem ∧ t.bus.chip.sr = s.bus.chip.sr ∧ t.bus.chip.wel = s.bus.chip.wel

/-! ### Headlines -/

/-- Every host operation with a frame, in both strategies, bit by bit or byte by byte, does to RefFRAM exactly what its
frame does byte by byte (R57 to R64, R81 to R84, R187, R188), completes that frame, and leaves its bytes as pulses on the
wires. The device's address width need not match (R243). BEGIN's probe does so too (R112), from a CS that is not driven low.
That a frame is presented to the device alone, and how RefFRAM is clocked bit by bit, are the model's (assumptions 17 and
23). -/
def Obligations.HostOperationsRefineFrames : Prop :=
  (∀ s : State, s.busy = false → s.bus.wiring = .fram → wire s.bus.pins.cs ≠ some false → engineLasts 5 s = true →
    ∃ t, exec .begin s = .next t ∧ t.busy = false ∧
      t.bus.chip = (deviceFrame s.params.opc (probeBytes s.params) s.bus).chip ∧
      t.bus.frames = (deviceFrame s.params.opc (probeBytes s.params) s.bus).frames) ∧
  ∀ (i : Instr) (s : State) (txs : List Byte),
    opBytes s i = some txs → Admitted s → BusReady s → s.bus.wiring = .fram → streamFull s i = true →
    engineLasts txs.length s = true →
      ∃ t, exec i s = .next t ∧ t.busy = false ∧ t.bus.chip = (deviceFrame s.params.opc txs s.bus).chip ∧
        t.bus.frames = (deviceFrame s.params.opc txs s.bus).frames ∧ t.bus.seen = s.bus.seen ++ frameSeen txs

/-- "write8(A,v) followed by read8(A) returns v" (R61, R147 (b)), for a device that accepts the write (conflict C3). R147 (b)
says so of an address that fits in `w` bytes and lies inside the device. Of every other address it holds because both
operations send the same truncated address (R66) and RefFRAM counts it modulo `MEM_BYTES`, R64's clause from general
knowledge (assumption 28, PRESUMED). -/
def Obligations.Write8Read8RoundTrip : Prop :=
  ∀ (s : State) (a : Addr) (v : Byte),
    Admitted s → BusReady s → s.bus.wiring = .fram → s.params.opc.Distinct → Memory.wf s.bus.chip.mem = true →
    widthOf s.addrW = some s.bus.chip.params.aw → (∀ n, engineLasts n s = true) → chipAccepts s.bus.chip = true →
      ∃ t u, exec (.write8 a v) s = .next t ∧ exec (.read8 a) t = .next u ∧ u.resp.data = v

/-- "write(A, buf, n) followed by read8(A+i) for each i in [0,n) returns buf[i]" (R59, R147 (b)), with A and A + n - 1
fitting in w bytes and inside the device, for a device that accepts the write. -/
def Obligations.WriteRead8BlockRoundTrip : Prop :=
  ∀ (s : State) (a : Addr) (count : Half),
    Admitted s → BusReady s → s.bus.wiring = .fram → s.params.opc.Distinct → Memory.wf s.bus.chip.mem = true →
    widthOf s.addrW = some s.bus.chip.params.aw → (∀ n, engineLasts n s = true) → chipAccepts s.bus.chip = true →
    count.toNat ≤ s.wdat.length → a.toNat + count.toNat ≤ 2 ^ (8 * s.bus.chip.params.aw.bytes) →
    a.toNat + count.toNat ≤ s.bus.chip.params.memBytes →
      ∃ t, exec (.write a count) s = .next t ∧
        ∀ i, i < count.toNat →
          ∃ u, exec (.read8 (a + BitVec.ofNat 32 i)) t = .next u ∧ some u.resp.data = s.wdat[i]?

/-- WRITEENABLE.T, then WRITE8, then READ8 returns the value on a device that requires its latch set (R62, R242, program
P2); the same WRITE8 without WRITEENABLE.T is ignored and READ8 returns the old byte. That the write clears the latch, and
that the address counts modulo `MEM_BYTES`, are R64's clauses from general knowledge (assumption 28, PRESUMED). -/
def Obligations.WriteEnableMakesWriteLand : Prop :=
  ∀ (s : State) (a : Addr) (v : Byte),
    Admitted s → BusReady s → s.bus.wiring = .fram → s.params.opc.Distinct → Memory.wf s.bus.chip.mem = true →
    widthOf s.addrW = some s.bus.chip.params.aw → (∀ n, engineLasts n s = true) →
    s.bus.chip.params.requireWel = true → s.bus.chip.wel = false →
      (∃ t u x, exec .writeEnableT s = .next t ∧ exec (.write8 a v) t = .next u ∧ exec (.read8 a) u = .next x ∧
        x.resp.data = v ∧ u.bus.chip.wel = false) ∧
      (∃ t u, exec (.write8 a v) s = .next t ∧ exec (.read8 a) t = .next u ∧
        u.resp.data = memRead s.bus.chip.mem (deviceAddr s.bus.chip.params.aw s.bus.chip.params.memBytes a.toNat))

/-- A WRITE that ran out of data and is then given the rest ends exactly as if it had had all of it at once (R144, R244):
the stall is invisible in the final state. The stream as a list, the waiting state between two steps, and the surplus bytes
that stay on the stream are the model's choice (assumptions 15, 18 and 33). -/
def Obligations.StalledWriteResumes : Prop :=
  ∀ (s : State) (a : Addr) (count : Half) (w : AddrWidth) (xs ys : List Byte),
    Admitted s → widthOf s.addrW = some w → (∀ n, engineLasts n s = true) → s.inbox = [] → s.wdat = xs →
    xs.length < count.toNat → count.toNat ≤ xs.length + ys.length →
      ∃ t u, exec (.write a count) s = .next t ∧ t.busy = true ∧ step { t with wdat := ys } = .next u ∧
        exec (.write a count) { s with wdat := xs ++ ys } = .next u

/-! ### Added after the review -/

/-- The invariant of the open frame is kept by every step (R85, R90, R92). -/
def Obligations.StepKeepsOpcodeInv : Prop :=
  ∀ s t : State, OpcodeInv s → step s = .next t → OpcodeInv t

/-- Whatever frame is presented to an idle block, of a format or of none, it acts on what is attached byte by byte, in both
conducts (R56, R64; that it is presented to the device alone is the model's choice, assumptions 17, 19 and 31). At RefFRAM a
frame with none of the seven opcodes changes neither memory, status register nor latch, and every answer is the undriven
byte. -/
def Obligations.AnyFrameActsOnDevice : Prop :=
  (∀ (s : State) (g : Agent) (bytes : List Byte) (rest : List Entry),
    s.busy = false → s.inbox = { agent := g, enc := .frame bytes } :: rest →
      step s = .next { s with inbox := rest, bus := deviceFrame s.params.opc bytes s.bus }) ∧
  (∀ (o : Opcodes) (op : Byte) (rest : List Byte) (b : Bus), b.wiring = .fram → op ∉ o.toList →
    (deviceFrame o (op :: rest) b).chip.mem = b.chip.mem ∧ (deviceFrame o (op :: rest) b).chip.sr = b.chip.sr ∧
    (deviceFrame o (op :: rest) b).chip.wel = b.chip.wel ∧
    ∀ v, b.chip.params.undriven = some v →
      ∃ f, (deviceFrame o (op :: rest) b).frames = b.frames ++ [f] ∧ ∀ x ∈ f, x.2 = v)
end

