-- ==== Sys2Proof/Laws/Memory.lean ====
section
/-! SUPPORT. The laws of the device's memory: read after write, the frame of a write, and the canonical form. -/

namespace Sys2Proof.Machine

@[simp] theorem memRead_nil (a : Nat) : memRead [] a = memDefault := rfl

/-- Addresses below every listed one read as the default. -/
theorem memRead_below (m : Memory) (a k : Nat) (hw : Memory.wf m = true) (h : memHeadAbove k m = true) (ha : a ≤ k) :
    memRead m a = memDefault := by
  induction m generalizing k with
  | nil => rfl
  | cons c m ih =>
    obtain ⟨b, v⟩ := c
    simp only [memHeadAbove, decide_eq_true_eq] at h
    simp only [Memory.wf, Bool.and_eq_true] at hw
    rw [memRead, if_neg (by omega)]
    exact ih b hw.2 hw.1.2 (by omega)

/-- A write keeps every bound below the listed addresses and the new one. -/
theorem memWrite_headAbove (m : Memory) (a k : Nat) (v : Byte) (h : memHeadAbove k m = true) (ha : k < a)
    (hw : Memory.wf m = true) : memHeadAbove k (memWrite m a v) = true := by
  cases m with
  | nil => simp only [memWrite]; split <;> simp [memHeadAbove, ha]
  | cons c m =>
    obtain ⟨b, x⟩ := c
    simp only [memHeadAbove, decide_eq_true_eq] at h
    simp only [Memory.wf, Bool.and_eq_true] at hw
    simp only [memWrite]
    split
    · split <;> simp [memHeadAbove, h, ha]
    · split
      · split
        · cases m with
          | nil => rfl
          | cons d m =>
            obtain ⟨e, y⟩ := d
            have := hw.1.2
            simp only [memHeadAbove, decide_eq_true_eq] at this ⊢
            omega
        · simp [memHeadAbove, ha]
      · simp [memHeadAbove, h]

/-- Every write keeps the canonical form. -/
theorem memWrite_wf (m : Memory) (a : Nat) (v : Byte) (hw : Memory.wf m = true) :
    Memory.wf (memWrite m a v) = true := by
  induction m with
  | nil =>
    simp only [memWrite]
    split
    · rfl
    · rename_i h; simp [Memory.wf, memHeadAbove, h]
  | cons c m ih =>
    obtain ⟨b, x⟩ := c
    have hw' := hw
    simp only [Memory.wf, Bool.and_eq_true, decide_eq_true_eq] at hw'
    simp only [memWrite]
    split
    · rename_i hlt
      split
      · exact hw
      · rename_i hv
        simp only [Memory.wf, Bool.and_eq_true, decide_eq_true_eq]
        exact ⟨⟨hv, by simp [memHeadAbove, hlt]⟩, hw'⟩
    · rename_i hlt
      split
      · rename_i heq
        split
        · exact hw'.2
        · rename_i hv
          subst heq
          simp only [Memory.wf, Bool.and_eq_true, decide_eq_true_eq]
          exact ⟨⟨hv, hw'.1.2⟩, hw'.2⟩
      · rename_i hne
        simp only [Memory.wf, Bool.and_eq_true, decide_eq_true_eq]
        exact ⟨⟨hw'.1.1, memWrite_headAbove m a b v hw'.1.2 (by omega) hw'.2⟩, ih hw'.2⟩

/-- Every list of writes keeps the canonical form. -/
theorem memWriteAll_wf (cells : List Host.Cell) (m : Memory) (hw : Memory.wf m = true) :
    Memory.wf (memWriteAll m cells) = true := by
  induction cells generalizing m with
  | nil => exact hw
  | cons c cells ih => exact ih _ (memWrite_wf m c.1 c.2 hw)

/-- A read after a write to the same address gives the byte written. -/
theorem memRead_memWrite_same (m : Memory) (a : Nat) (v : Byte) (hw : Memory.wf m = true) :
    memRead (memWrite m a v) a = v := by
  induction m with
  | nil =>
    simp only [memWrite]
    split
    · rename_i h; simp [h]
    · simp [memRead]
  | cons c m ih =>
    obtain ⟨b, x⟩ := c
    have hw' := hw
    simp only [Memory.wf, Bool.and_eq_true, decide_eq_true_eq] at hw'
    simp only [memWrite]
    split
    · rename_i hlt
      split
      · rename_i hv
        rw [memRead, if_neg (by omega), hv]
        exact memRead_below m a b hw'.2 hw'.1.2 (by omega)
      · simp [memRead]
    · split
      · rename_i heq
        split
        · rename_i hv
          rw [hv]
          exact memRead_below m a b hw'.2 hw'.1.2 (by omega)
        · simp [memRead]
      · rename_i hne
        rw [memRead, if_neg (by omega)]
        exact ih hw'.2

/-- A write leaves every other address alone. -/
theorem memRead_memWrite_other (m : Memory) (a a' : Nat) (v : Byte) (hw : Memory.wf m = true) (hne : a' ≠ a) :
    memRead (memWrite m a v) a' = memRead m a' := by
  induction m with
  | nil =>
    simp only [memWrite]
    split
    · rfl
    · simp [memRead, Ne.symm hne]
  | cons c m ih =>
    obtain ⟨b, x⟩ := c
    have hw' := hw
    simp only [Memory.wf, Bool.and_eq_true, decide_eq_true_eq] at hw'
    simp only [memWrite]
    split
    · split
      · rfl
      · rw [memRead, if_neg (by omega)]
    · split
      · rename_i heq
        subst heq
        have hb : memRead ((a, x) :: m) a' = memRead m a' := by rw [memRead, if_neg (by omega)]
        split
        · exact hb.symm
        · rw [hb, memRead, if_neg (by omega)]
      · simp only [memRead]
        split
        · rfl
        · exact ih hw'.2

/-- A list of writes leaves every address it does not name alone. -/
theorem memRead_memWriteAll_other (cells : List Host.Cell) (m : Memory) (a : Nat) (hw : Memory.wf m = true)
    (h : ∀ c ∈ cells, c.1 ≠ a) : memRead (memWriteAll m cells) a = memRead m a := by
  induction cells generalizing m with
  | nil => rfl
  | cons c cells ih =>
    have h1 := ih (memWrite m c.1 c.2) (memWrite_wf m c.1 c.2 hw) fun d hd => h d (List.mem_cons_of_mem _ hd)
    rw [memWriteAll, List.foldl_cons, ← memWriteAll, h1]
    exact memRead_memWrite_other m c.1 a c.2 hw (Ne.symm (h c List.mem_cons_self))

end Sys2Proof.Machine
end

