-- ==== Sys2Proof/Laws/Device.lean ====
section
/-! SUPPORT. The attached device: what each of its operations keeps, and that eight clocked bits are one byte. -/

namespace Sys2Proof.Machine

/-! ### Parameters and memory -/

@[simp] theorem chipSelect_params (c : Chip) : (chipSelect c).params = c.params := rfl
@[simp] theorem chipSelect_mem (c : Chip) : (chipSelect c).mem = c.mem := rfl
@[simp] theorem chipDisturb_params (h : List WireEvent) (c : Chip) : (chipDisturb h c).params = c.params := rfl
@[simp] theorem chipDeselect_params (o : Opcodes) (c : Chip) : (chipDeselect o c).params = c.params := rfl
@[simp] theorem chipDeselect_mem (o : Opcodes) (c : Chip) : (chipDeselect o c).mem = chipMemAfter o c := rfl
@[simp] theorem chipDeselect_sr (o : Opcodes) (c : Chip) : (chipDeselect o c).sr = chipSrAfter o c := rfl
@[simp] theorem chipDeselect_wel (o : Opcodes) (c : Chip) : (chipDeselect o c).wel = chipWelAfter o c := rfl

@[simp] theorem chipAbsorb_params (o : Opcodes) (tx : Byte) (c : Chip) : (chipAbsorb o tx c).params = c.params := by
  unfold chipAbsorb; repeat' (split <;> try rfl)

@[simp] theorem chipAbsorb_mem (o : Opcodes) (tx : Byte) (c : Chip) : (chipAbsorb o tx c).mem = c.mem := by
  unfold chipAbsorb; repeat' (split <;> try rfl)

@[simp] theorem chipTake_params (o : Opcodes) (tx : Byte) (c : Chip) : (chipTake o tx c).params = c.params :=
  chipAbsorb_params o tx c

@[simp] theorem chipTake_mem (o : Opcodes) (tx : Byte) (c : Chip) : (chipTake o tx c).mem = c.mem :=
  chipAbsorb_mem o tx c

@[simp] theorem chipByte_params (o : Opcodes) (tx : Byte) (c : Chip) : (chipByte o tx c).2.params = c.params := by
  simp [chipByte]

@[simp] theorem chipByte_mem (o : Opcodes) (tx : Byte) (c : Chip) : (chipByte o tx c).2.mem = c.mem := by
  simp [chipByte]

@[simp] theorem chipLoad_params (o : Opcodes) (c : Chip) : (chipLoad o c).params = c.params := by
  unfold chipLoad; split <;> rfl

@[simp] theorem chipLoad_mem (o : Opcodes) (c : Chip) : (chipLoad o c).mem = c.mem := by
  unfold chipLoad; split <;> rfl

@[simp] theorem chipRise_params (o : Opcodes) (d : Bool) (c : Chip) : (chipRise o d c).params = c.params := by
  unfold chipRise; dsimp only; split <;> simp

@[simp] theorem chipRise_mem (o : Opcodes) (d : Bool) (c : Chip) : (chipRise o d c).mem = c.mem := by
  unfold chipRise; dsimp only; split <;> simp

/-- The commit at CS rising keeps the canonical form. -/
theorem chipMemAfter_wf (o : Opcodes) (c : Chip) (h : Memory.wf c.mem = true) :
    Memory.wf (chipMemAfter o c) = true := by
  unfold chipMemAfter; split
  · exact memWriteAll_wf _ _ h
  · exact h

theorem chipDisturb_wf (h : List WireEvent) (c : Chip) : Memory.wf (chipDisturb h c).mem = true := memWriteAll_wf _ _ rfl

/-- A frame whose opcode is not WRITE commits nothing to memory (R60, R70). -/
theorem chipMemAfter_of_ne (o : Opcodes) (c : Chip) (h : c.opc ≠ o.write) : chipMemAfter o c = c.mem := by
  simp [chipMemAfter, h]

/-- A device that requires its latch set, and has it clear, commits nothing to memory (R62). -/
theorem chipMemAfter_of_protected (o : Opcodes) (c : Chip) (h : chipAccepts c = false) : chipMemAfter o c = c.mem := by
  simp [chipMemAfter, h]

/-! ### Eight bits are one byte -/

/-- The eight bits of a byte, most significant first, shifted into a cleared register give the byte (R51, R188). -/
theorem shiftIn_bits (tx : Byte) :
    shiftIn (shiftIn (shiftIn (shiftIn (shiftIn (shiftIn (shiftIn (shiftIn 0 (tx.getLsbD 7)) (tx.getLsbD 6))
      (tx.getLsbD 5)) (tx.getLsbD 4)) (tx.getLsbD 3)) (tx.getLsbD 2)) (tx.getLsbD 1)) (tx.getLsbD 0) = tx := by
  revert tx; decide +kernel

/-- The first rising edge of a byte loads the answer. -/
theorem chipRise_first (o : Opcodes) (d : Bool) (c : Chip) (h : c.bitn % 8 = 0) :
    chipRise o d c = { c with out := chipAnswer o c, shin := shiftIn 0 d, bitn := 1 } := by
  simp [chipRise, chipLoad, h]

/-- A rising edge in the middle of a byte. -/
theorem chipRise_mid (o : Opcodes) (d : Bool) (c : Chip) (h0 : 0 < c.bitn) (h7 : c.bitn < 7) :
    chipRise o d c = { c with shin := shiftIn c.shin d, bitn := c.bitn + 1 } := by
  have h : ¬ c.bitn % 8 = 0 := by omega
  have h8 : ¬ c.bitn + 1 = 8 := by omega
  simp only [chipRise, chipLoad, if_neg h]
  rw [if_neg h8]

/-- The eighth rising edge: the device takes the byte. -/
theorem chipRise_last (o : Opcodes) (d : Bool) (c : Chip) (h : c.bitn = 7) :
    chipRise o d c = chipTake o (shiftIn c.shin d) { c with shin := shiftIn c.shin d, bitn := 8 } := by
  simp [chipRise, chipLoad, h]

end Sys2Proof.Machine
end

