-- ==== Sys2Proof/Laws/State.lean ====
section
/-! SUPPORT. What each named update does to each field of the state, so that no proof unfolds a record update. -/

namespace Sys2Proof.Machine

/-! ### accept -/

@[simp] theorem accept_params (k : Option OpKind) (l : OpLatches) (s : State) : (accept k l s).params = s.params := rfl
@[simp] theorem accept_addrW (k : Option OpKind) (l : OpLatches) (s : State) : (accept k l s).addrW = s.addrW := rfl
@[simp] theorem accept_init (k : Option OpKind) (l : OpLatches) (s : State) : (accept k l s).init = s.init := rfl
@[simp] theorem accept_busy (k : Option OpKind) (l : OpLatches) (s : State) : (accept k l s).busy = true := rfl
@[simp] theorem accept_seq (k : Option OpKind) (l : OpLatches) (s : State) : (accept k l s).seq = .opc := rfl
@[simp] theorem accept_op (k : Option OpKind) (l : OpLatches) (s : State) : (accept k l s).op = k := rfl
@[simp] theorem accept_lat (k : Option OpKind) (l : OpLatches) (s : State) : (accept k l s).lat = l := rfl
@[simp] theorem accept_resp (k : Option OpKind) (l : OpLatches) (s : State) : (accept k l s).resp = anyResponse s.frees := rfl
@[simp] theorem accept_respValid (k : Option OpKind) (l : OpLatches) (s : State) : (accept k l s).respValid = false := rfl
@[simp] theorem accept_todo (k : Option OpKind) (l : OpLatches) (s : State) : (accept k l s).todo = [] := rfl
@[simp] theorem accept_got (k : Option OpKind) (l : OpLatches) (s : State) : (accept k l s).got = [] := rfl
@[simp] theorem accept_inbox (k : Option OpKind) (l : OpLatches) (s : State) : (accept k l s).inbox = s.inbox := rfl
@[simp] theorem accept_wdat (k : Option OpKind) (l : OpLatches) (s : State) : (accept k l s).wdat = s.wdat := rfl
@[simp] theorem accept_bus (k : Option OpKind) (l : OpLatches) (s : State) : (accept k l s).bus = s.bus := rfl
@[simp] theorem accept_frees (k : Option OpKind) (l : OpLatches) (s : State) : (accept k l s).frees = s.frees + 1 := rfl

/-! ### complete -/

@[simp] theorem complete_params (s : State) : (complete s).params = s.params := rfl
@[simp] theorem complete_addrW (s : State) : (complete s).addrW = s.addrW := rfl
@[simp] theorem complete_init (s : State) : (complete s).init = s.init := rfl
@[simp] theorem complete_busy (s : State) : (complete s).busy = false := rfl
@[simp] theorem complete_seq (s : State) : (complete s).seq = .idle := rfl
@[simp] theorem complete_op (s : State) : (complete s).op = none := rfl
@[simp] theorem complete_lat (s : State) : (complete s).lat = anyLatches s.frees := rfl
@[simp] theorem complete_resp (s : State) : (complete s).resp = s.resp := rfl
@[simp] theorem complete_respValid (s : State) : (complete s).respValid = true := rfl
@[simp] theorem complete_todo (s : State) : (complete s).todo = [] := rfl
@[simp] theorem complete_got (s : State) : (complete s).got = [] := rfl
@[simp] theorem complete_inbox (s : State) : (complete s).inbox = s.inbox := rfl
@[simp] theorem complete_wdat (s : State) : (complete s).wdat = s.wdat := rfl
@[simp] theorem complete_bus (s : State) : (complete s).bus = s.bus := rfl
@[simp] theorem complete_frees (s : State) : (complete s).frees = s.frees + 1 := rfl

/-! ### waitAt -/

@[simp] theorem waitAt_params (ph : Seq) (td : List Beat) (s : State) : (waitAt ph td s).params = s.params := rfl
@[simp] theorem waitAt_addrW (ph : Seq) (td : List Beat) (s : State) : (waitAt ph td s).addrW = s.addrW := rfl
@[simp] theorem waitAt_init (ph : Seq) (td : List Beat) (s : State) : (waitAt ph td s).init = s.init := rfl
@[simp] theorem waitAt_busy (ph : Seq) (td : List Beat) (s : State) : (waitAt ph td s).busy = s.busy := rfl
@[simp] theorem waitAt_seq (ph : Seq) (td : List Beat) (s : State) : (waitAt ph td s).seq = ph := rfl
@[simp] theorem waitAt_op (ph : Seq) (td : List Beat) (s : State) : (waitAt ph td s).op = s.op := rfl
@[simp] theorem waitAt_lat (ph : Seq) (td : List Beat) (s : State) : (waitAt ph td s).lat = s.lat := rfl
@[simp] theorem waitAt_resp (ph : Seq) (td : List Beat) (s : State) : (waitAt ph td s).resp = s.resp := rfl
@[simp] theorem waitAt_respValid (ph : Seq) (td : List Beat) (s : State) : (waitAt ph td s).respValid = s.respValid := rfl
@[simp] theorem waitAt_todo (ph : Seq) (td : List Beat) (s : State) : (waitAt ph td s).todo = td := rfl
@[simp] theorem waitAt_got (ph : Seq) (td : List Beat) (s : State) : (waitAt ph td s).got = s.got := rfl
@[simp] theorem waitAt_inbox (ph : Seq) (td : List Beat) (s : State) : (waitAt ph td s).inbox = s.inbox := rfl
@[simp] theorem waitAt_wdat (ph : Seq) (td : List Beat) (s : State) : (waitAt ph td s).wdat = s.wdat := rfl
@[simp] theorem waitAt_bus (ph : Seq) (td : List Beat) (s : State) : (waitAt ph td s).bus = s.bus := rfl
@[simp] theorem waitAt_frees (ph : Seq) (td : List Beat) (s : State) : (waitAt ph td s).frees = s.frees := rfl

/-! ### beatDone -/

@[simp] theorem beatDone_params (ph : Seq) (keep : Bool) (rx : Byte) (b : Bus) (s : State) : (beatDone ph keep rx b s).params = s.params := rfl
@[simp] theorem beatDone_addrW (ph : Seq) (keep : Bool) (rx : Byte) (b : Bus) (s : State) : (beatDone ph keep rx b s).addrW = s.addrW := rfl
@[simp] theorem beatDone_init (ph : Seq) (keep : Bool) (rx : Byte) (b : Bus) (s : State) : (beatDone ph keep rx b s).init = s.init := rfl
@[simp] theorem beatDone_busy (ph : Seq) (keep : Bool) (rx : Byte) (b : Bus) (s : State) : (beatDone ph keep rx b s).busy = s.busy := rfl
@[simp] theorem beatDone_seq (ph : Seq) (keep : Bool) (rx : Byte) (b : Bus) (s : State) : (beatDone ph keep rx b s).seq = ph := rfl
@[simp] theorem beatDone_op (ph : Seq) (keep : Bool) (rx : Byte) (b : Bus) (s : State) : (beatDone ph keep rx b s).op = s.op := rfl
@[simp] theorem beatDone_lat (ph : Seq) (keep : Bool) (rx : Byte) (b : Bus) (s : State) : (beatDone ph keep rx b s).lat = s.lat := rfl
@[simp] theorem beatDone_resp (ph : Seq) (keep : Bool) (rx : Byte) (b : Bus) (s : State) : (beatDone ph keep rx b s).resp = s.resp := rfl
@[simp] theorem beatDone_respValid (ph : Seq) (keep : Bool) (rx : Byte) (b : Bus) (s : State) : (beatDone ph keep rx b s).respValid = s.respValid := rfl
@[simp] theorem beatDone_todo (ph : Seq) (keep : Bool) (rx : Byte) (b : Bus) (s : State) : (beatDone ph keep rx b s).todo = s.todo := rfl
@[simp] theorem beatDone_got (ph : Seq) (keep : Bool) (rx : Byte) (b : Bus) (s : State) : (beatDone ph keep rx b s).got = if keep then s.got ++ [rx] else s.got := rfl
@[simp] theorem beatDone_inbox (ph : Seq) (keep : Bool) (rx : Byte) (b : Bus) (s : State) : (beatDone ph keep rx b s).inbox = s.inbox := rfl
@[simp] theorem beatDone_wdat (ph : Seq) (keep : Bool) (rx : Byte) (b : Bus) (s : State) : (beatDone ph keep rx b s).wdat = s.wdat := rfl
@[simp] theorem beatDone_bus (ph : Seq) (keep : Bool) (rx : Byte) (b : Bus) (s : State) : (beatDone ph keep rx b s).bus = b := rfl
@[simp] theorem beatDone_frees (ph : Seq) (keep : Bool) (rx : Byte) (b : Bus) (s : State) : (beatDone ph keep rx b s).frees = s.frees := rfl

/-! ### startedOnly -/

@[simp] theorem startedOnly_params (tx : Byte) (s : State) : (startedOnly tx s).params = s.params := rfl
@[simp] theorem startedOnly_addrW (tx : Byte) (s : State) : (startedOnly tx s).addrW = s.addrW := rfl
@[simp] theorem startedOnly_init (tx : Byte) (s : State) : (startedOnly tx s).init = s.init := rfl
@[simp] theorem startedOnly_busy (tx : Byte) (s : State) : (startedOnly tx s).busy = s.busy := rfl
@[simp] theorem startedOnly_seq (tx : Byte) (s : State) : (startedOnly tx s).seq = s.seq := rfl
@[simp] theorem startedOnly_op (tx : Byte) (s : State) : (startedOnly tx s).op = s.op := rfl
@[simp] theorem startedOnly_lat (tx : Byte) (s : State) : (startedOnly tx s).lat = s.lat := rfl
@[simp] theorem startedOnly_resp (tx : Byte) (s : State) : (startedOnly tx s).resp = s.resp := rfl
@[simp] theorem startedOnly_respValid (tx : Byte) (s : State) : (startedOnly tx s).respValid = s.respValid := rfl
@[simp] theorem startedOnly_todo (tx : Byte) (s : State) : (startedOnly tx s).todo = s.todo := rfl
@[simp] theorem startedOnly_got (tx : Byte) (s : State) : (startedOnly tx s).got = s.got := rfl
@[simp] theorem startedOnly_inbox (tx : Byte) (s : State) : (startedOnly tx s).inbox = s.inbox := rfl
@[simp] theorem startedOnly_wdat (tx : Byte) (s : State) : (startedOnly tx s).wdat = s.wdat := rfl
@[simp] theorem startedOnly_bus (tx : Byte) (s : State) : (startedOnly tx s).bus = hwxStarted tx s.bus := rfl
@[simp] theorem startedOnly_frees (tx : Byte) (s : State) : (startedOnly tx s).frees = s.frees := rfl

/-! ### resetBlock -/

@[simp] theorem resetBlock_params (s : State) : (resetBlock s).params = s.params := rfl
@[simp] theorem resetBlock_addrW (s : State) : (resetBlock s).addrW = 2 := rfl
@[simp] theorem resetBlock_init (s : State) : (resetBlock s).init = false := rfl
@[simp] theorem resetBlock_busy (s : State) : (resetBlock s).busy = false := rfl
@[simp] theorem resetBlock_seq (s : State) : (resetBlock s).seq = .idle := rfl
@[simp] theorem resetBlock_op (s : State) : (resetBlock s).op = none := rfl
@[simp] theorem resetBlock_lat (s : State) : (resetBlock s).lat = { addr := 0, data := 0, count := 0, en := false } := rfl
@[simp] theorem resetBlock_resp (s : State) : (resetBlock s).resp = { data := 0, mfg := 0, prod := 0, ok := false } := rfl
@[simp] theorem resetBlock_respValid (s : State) : (resetBlock s).respValid = false := rfl
@[simp] theorem resetBlock_todo (s : State) : (resetBlock s).todo = [] := rfl
@[simp] theorem resetBlock_got (s : State) : (resetBlock s).got = [] := rfl
@[simp] theorem resetBlock_inbox (s : State) : (resetBlock s).inbox = s.inbox := rfl
@[simp] theorem resetBlock_wdat (s : State) : (resetBlock s).wdat = s.wdat := rfl
@[simp] theorem resetBlock_bus (s : State) : (resetBlock s).bus = busReset s.bus := rfl
@[simp] theorem resetBlock_frees (s : State) : (resetBlock s).frees = s.frees := rfl

/-! ### idleTick -/

@[simp] theorem idleTick_params (s : State) : (idleTick s).params = s.params := rfl
@[simp] theorem idleTick_addrW (s : State) : (idleTick s).addrW = s.addrW := rfl
@[simp] theorem idleTick_init (s : State) : (idleTick s).init = s.init := rfl
@[simp] theorem idleTick_busy (s : State) : (idleTick s).busy = s.busy := rfl
@[simp] theorem idleTick_seq (s : State) : (idleTick s).seq = s.seq := rfl
@[simp] theorem idleTick_op (s : State) : (idleTick s).op = s.op := rfl
@[simp] theorem idleTick_lat (s : State) : (idleTick s).lat = s.lat := rfl
@[simp] theorem idleTick_resp (s : State) : (idleTick s).resp = s.resp := rfl
@[simp] theorem idleTick_respValid (s : State) : (idleTick s).respValid = false := rfl
@[simp] theorem idleTick_todo (s : State) : (idleTick s).todo = s.todo := rfl
@[simp] theorem idleTick_got (s : State) : (idleTick s).got = s.got := rfl
@[simp] theorem idleTick_inbox (s : State) : (idleTick s).inbox = s.inbox := rfl
@[simp] theorem idleTick_wdat (s : State) : (idleTick s).wdat = s.wdat := rfl
@[simp] theorem idleTick_bus (s : State) : (idleTick s).bus = s.bus := rfl
@[simp] theorem idleTick_frees (s : State) : (idleTick s).frees = s.frees := rfl

/-! ### log -/

@[simp] theorem log_pins (e : Event) (b : Bus) : (log e b).pins = b.pins := rfl
@[simp] theorem log_engine (e : Event) (b : Bus) : (log e b).engine = b.engine := rfl
@[simp] theorem log_hwx (e : Event) (b : Bus) : (log e b).hwx = b.hwx := rfl
@[simp] theorem log_wiring (e : Event) (b : Bus) : (log e b).wiring = b.wiring := rfl
@[simp] theorem log_chip (e : Event) (b : Bus) : (log e b).chip = b.chip := rfl
@[simp] theorem log_draws (e : Event) (b : Bus) : (log e b).draws = b.draws := rfl
@[simp] theorem log_seen (e : Event) (b : Bus) : (log e b).seen = b.seen := rfl
@[simp] theorem log_trace (e : Event) (b : Bus) : (log e b).trace = b.trace ++ [e] := rfl
@[simp] theorem log_frame (e : Event) (b : Bus) : (log e b).frame = b.frame := rfl
@[simp] theorem log_frames (e : Event) (b : Bus) : (log e b).frames = b.frames := rfl

/-! ### see -/

@[simp] theorem see_pins (es : List WireEvent) (b : Bus) : (see es b).pins = b.pins := rfl
@[simp] theorem see_engine (es : List WireEvent) (b : Bus) : (see es b).engine = b.engine := rfl
@[simp] theorem see_hwx (es : List WireEvent) (b : Bus) : (see es b).hwx = b.hwx := rfl
@[simp] theorem see_wiring (es : List WireEvent) (b : Bus) : (see es b).wiring = b.wiring := rfl
@[simp] theorem see_chip (es : List WireEvent) (b : Bus) : (see es b).chip = b.chip := rfl
@[simp] theorem see_draws (es : List WireEvent) (b : Bus) : (see es b).draws = b.draws := rfl
@[simp] theorem see_seen (es : List WireEvent) (b : Bus) : (see es b).seen = b.seen ++ es := rfl
@[simp] theorem see_trace (es : List WireEvent) (b : Bus) : (see es b).trace = b.trace := rfl
@[simp] theorem see_frame (es : List WireEvent) (b : Bus) : (see es b).frame = b.frame := rfl
@[simp] theorem see_frames (es : List WireEvent) (b : Bus) : (see es b).frames = b.frames := rfl

/-! ### busReset -/

@[simp] theorem busReset_pins (b : Bus) : (busReset b).pins = .atReset := rfl
@[simp] theorem busReset_engine (b : Bus) : (busReset b).engine = { shTx := 0, shRx := 0, bitCnt := 0 } := rfl
@[simp] theorem busReset_hwx (b : Bus) : (busReset b).hwx = { settings := none, pending := none, budget := b.hwx.budget } := rfl
@[simp] theorem busReset_wiring (b : Bus) : (busReset b).wiring = b.wiring := rfl
@[simp] theorem busReset_chip (b : Bus) : (busReset b).chip = b.chip := rfl
@[simp] theorem busReset_draws (b : Bus) : (busReset b).draws = b.draws := rfl
@[simp] theorem busReset_seen (b : Bus) : (busReset b).seen = b.seen ++ released b := rfl
@[simp] theorem busReset_trace (b : Bus) : (busReset b).trace = b.trace := rfl
@[simp] theorem busReset_frame (b : Bus) : (busReset b).frame = b.frame := rfl
@[simp] theorem busReset_frames (b : Bus) : (busReset b).frames = b.frames := rfl

/-! ### hwxStarted -/

@[simp] theorem hwxStarted_pins (tx : Byte) (b : Bus) : (hwxStarted tx b).pins = b.pins := rfl
@[simp] theorem hwxStarted_engine (tx : Byte) (b : Bus) : (hwxStarted tx b).engine = b.engine := rfl
@[simp] theorem hwxStarted_hwx (tx : Byte) (b : Bus) : (hwxStarted tx b).hwx = { b.hwx with pending := some tx } := rfl
@[simp] theorem hwxStarted_wiring (tx : Byte) (b : Bus) : (hwxStarted tx b).wiring = b.wiring := rfl
@[simp] theorem hwxStarted_chip (tx : Byte) (b : Bus) : (hwxStarted tx b).chip = b.chip := rfl
@[simp] theorem hwxStarted_draws (tx : Byte) (b : Bus) : (hwxStarted tx b).draws = b.draws := rfl
@[simp] theorem hwxStarted_seen (tx : Byte) (b : Bus) : (hwxStarted tx b).seen = b.seen := rfl
@[simp] theorem hwxStarted_trace (tx : Byte) (b : Bus) : (hwxStarted tx b).trace = b.trace := rfl
@[simp] theorem hwxStarted_frame (tx : Byte) (b : Bus) : (hwxStarted tx b).frame = b.frame := rfl
@[simp] theorem hwxStarted_frames (tx : Byte) (b : Bus) : (hwxStarted tx b).frames = b.frames := rfl

/-! ### loseShift -/

@[simp] theorem loseShift_pins (b : Bus) : (loseShift b).pins = b.pins := rfl
@[simp] theorem loseShift_engine (b : Bus) : (loseShift b).engine = { shTx := Config.shiftTx b.draws, shRx := Config.shiftRx b.draws, bitCnt := Config.shiftCount b.draws } := rfl
@[simp] theorem loseShift_hwx (b : Bus) : (loseShift b).hwx = b.hwx := rfl
@[simp] theorem loseShift_wiring (b : Bus) : (loseShift b).wiring = b.wiring := rfl
@[simp] theorem loseShift_chip (b : Bus) : (loseShift b).chip = b.chip := rfl
@[simp] theorem loseShift_draws (b : Bus) : (loseShift b).draws = b.draws + 1 := rfl
@[simp] theorem loseShift_seen (b : Bus) : (loseShift b).seen = b.seen := rfl
@[simp] theorem loseShift_trace (b : Bus) : (loseShift b).trace = b.trace := rfl
@[simp] theorem loseShift_frame (b : Bus) : (loseShift b).frame = b.frame := rfl
@[simp] theorem loseShift_frames (b : Bus) : (loseShift b).frames = b.frames := rfl

/-! ### busFall -/

@[simp] theorem busFall_pins (b : Bus) : (busFall b).pins = b.pins := by
  unfold busFall; split <;> rfl
@[simp] theorem busFall_engine (b : Bus) : (busFall b).engine = b.engine := by
  unfold busFall; split <;> rfl
@[simp] theorem busFall_hwx (b : Bus) : (busFall b).hwx = b.hwx := by
  unfold busFall; split <;> rfl
@[simp] theorem busFall_wiring (b : Bus) : (busFall b).wiring = b.wiring := by
  unfold busFall; split <;> rfl
@[simp] theorem busFall_draws (b : Bus) : (busFall b).draws = b.draws := by
  unfold busFall; split <;> rfl
@[simp] theorem busFall_seen (b : Bus) : (busFall b).seen = b.seen := by
  unfold busFall; split <;> rfl
@[simp] theorem busFall_trace (b : Bus) : (busFall b).trace = b.trace := by
  unfold busFall; split <;> rfl
@[simp] theorem busFall_frame (b : Bus) : (busFall b).frame = b.frame := by
  unfold busFall; split <;> rfl
@[simp] theorem busFall_frames (b : Bus) : (busFall b).frames = b.frames := by
  unfold busFall; split <;> rfl

/-! ### busRaise -/

@[simp] theorem busRaise_pins (o : Opcodes) (b : Bus) : (busRaise o b).pins = b.pins := by
  unfold busRaise; split <;> rfl
@[simp] theorem busRaise_engine (o : Opcodes) (b : Bus) : (busRaise o b).engine = b.engine := by
  unfold busRaise; split <;> rfl
@[simp] theorem busRaise_hwx (o : Opcodes) (b : Bus) : (busRaise o b).hwx = b.hwx := by
  unfold busRaise; split <;> rfl
@[simp] theorem busRaise_wiring (o : Opcodes) (b : Bus) : (busRaise o b).wiring = b.wiring := by
  unfold busRaise; split <;> rfl
@[simp] theorem busRaise_draws (o : Opcodes) (b : Bus) : (busRaise o b).draws = b.draws := by
  unfold busRaise; split <;> rfl
@[simp] theorem busRaise_seen (o : Opcodes) (b : Bus) : (busRaise o b).seen = b.seen := by
  unfold busRaise; split <;> rfl
@[simp] theorem busRaise_trace (o : Opcodes) (b : Bus) : (busRaise o b).trace = b.trace := by
  unfold busRaise; split <;> rfl
@[simp] theorem busRaise_frame (o : Opcodes) (b : Bus) : (busRaise o b).frame = b.frame := by
  unfold busRaise; split <;> rfl
@[simp] theorem busRaise_frames (o : Opcodes) (b : Bus) : (busRaise o b).frames = b.frames := by
  unfold busRaise; split <;> rfl

/-! ### busDisturb -/

@[simp] theorem busDisturb_pins (vs : List Bool) (b : Bus) : (busDisturb vs b).pins = b.pins := by
  unfold busDisturb; dsimp only; split <;> rfl
@[simp] theorem busDisturb_engine (vs : List Bool) (b : Bus) : (busDisturb vs b).engine = b.engine := by
  unfold busDisturb; dsimp only; split <;> rfl
@[simp] theorem busDisturb_hwx (vs : List Bool) (b : Bus) : (busDisturb vs b).hwx = b.hwx := by
  unfold busDisturb; dsimp only; split <;> rfl
@[simp] theorem busDisturb_wiring (vs : List Bool) (b : Bus) : (busDisturb vs b).wiring = b.wiring := by
  unfold busDisturb; dsimp only; split <;> rfl
@[simp] theorem busDisturb_draws (vs : List Bool) (b : Bus) : (busDisturb vs b).draws = b.draws := by
  unfold busDisturb; dsimp only; split <;> rfl
@[simp] theorem busDisturb_trace (vs : List Bool) (b : Bus) : (busDisturb vs b).trace = b.trace := by
  unfold busDisturb; dsimp only; split <;> rfl
@[simp] theorem busDisturb_frame (vs : List Bool) (b : Bus) : (busDisturb vs b).frame = b.frame := by
  unfold busDisturb; dsimp only; split <;> rfl
@[simp] theorem busDisturb_frames (vs : List Bool) (b : Bus) : (busDisturb vs b).frames = b.frames := by
  unfold busDisturb; dsimp only; split <;> rfl
@[simp] theorem busDisturb_seen (vs : List Bool) (b : Bus) : (busDisturb vs b).seen = b.seen ++ vs.map .floating := by
  unfold busDisturb; dsimp only; split <;> rfl

/-! ### busClock -/

@[simp] theorem busClock_pins (o : Opcodes) (d : Bool) (b : Bus) : (busClock o d b).pins = b.pins := by
  unfold busClock; split <;> (try split) <;> rfl
@[simp] theorem busClock_engine (o : Opcodes) (d : Bool) (b : Bus) : (busClock o d b).engine = b.engine := by
  unfold busClock; split <;> (try split) <;> rfl
@[simp] theorem busClock_hwx (o : Opcodes) (d : Bool) (b : Bus) : (busClock o d b).hwx = b.hwx := by
  unfold busClock; split <;> (try split) <;> rfl
@[simp] theorem busClock_wiring (o : Opcodes) (d : Bool) (b : Bus) : (busClock o d b).wiring = b.wiring := by
  unfold busClock; split <;> (try split) <;> rfl
@[simp] theorem busClock_draws (o : Opcodes) (d : Bool) (b : Bus) : (busClock o d b).draws = b.draws := by
  unfold busClock; split <;> (try split) <;> rfl
@[simp] theorem busClock_seen (o : Opcodes) (d : Bool) (b : Bus) : (busClock o d b).seen = b.seen := by
  unfold busClock; split <;> (try split) <;> rfl
@[simp] theorem busClock_trace (o : Opcodes) (d : Bool) (b : Bus) : (busClock o d b).trace = b.trace := by
  unfold busClock; split <;> (try split) <;> rfl
@[simp] theorem busClock_frame (o : Opcodes) (d : Bool) (b : Bus) : (busClock o d b).frame = b.frame := by
  unfold busClock; split <;> (try split) <;> rfl
@[simp] theorem busClock_frames (o : Opcodes) (d : Bool) (b : Bus) : (busClock o d b).frames = b.frames := by
  unfold busClock; split <;> (try split) <;> rfl

/-! ### misoLevel -/

@[simp] theorem misoLevel_pins (d : Option Bool) (b : Bus) : (misoLevel d b).2.pins = b.pins := by
  unfold misoLevel drawSample; split <;> (try split) <;> rfl
@[simp] theorem misoLevel_engine (d : Option Bool) (b : Bus) : (misoLevel d b).2.engine = b.engine := by
  unfold misoLevel drawSample; split <;> (try split) <;> rfl
@[simp] theorem misoLevel_hwx (d : Option Bool) (b : Bus) : (misoLevel d b).2.hwx = b.hwx := by
  unfold misoLevel drawSample; split <;> (try split) <;> rfl
@[simp] theorem misoLevel_wiring (d : Option Bool) (b : Bus) : (misoLevel d b).2.wiring = b.wiring := by
  unfold misoLevel drawSample; split <;> (try split) <;> rfl
@[simp] theorem misoLevel_chip (d : Option Bool) (b : Bus) : (misoLevel d b).2.chip = b.chip := by
  unfold misoLevel drawSample; split <;> (try split) <;> rfl
@[simp] theorem misoLevel_seen (d : Option Bool) (b : Bus) : (misoLevel d b).2.seen = b.seen := by
  unfold misoLevel drawSample; split <;> (try split) <;> rfl
@[simp] theorem misoLevel_trace (d : Option Bool) (b : Bus) : (misoLevel d b).2.trace = b.trace := by
  unfold misoLevel drawSample; split <;> (try split) <;> rfl
@[simp] theorem misoLevel_frame (d : Option Bool) (b : Bus) : (misoLevel d b).2.frame = b.frame := by
  unfold misoLevel drawSample; split <;> (try split) <;> rfl
@[simp] theorem misoLevel_frames (d : Option Bool) (b : Bus) : (misoLevel d b).2.frames = b.frames := by
  unfold misoLevel drawSample; split <;> (try split) <;> rfl

/-! ### setPin -/

@[simp] theorem setPin_engine (p : Pin) (x : PinState) (b : Bus) : (setPin p x b).engine = b.engine := by
  cases p <;> rfl
@[simp] theorem setPin_hwx (p : Pin) (x : PinState) (b : Bus) : (setPin p x b).hwx = b.hwx := by
  cases p <;> rfl
@[simp] theorem setPin_wiring (p : Pin) (x : PinState) (b : Bus) : (setPin p x b).wiring = b.wiring := by
  cases p <;> rfl
@[simp] theorem setPin_chip (p : Pin) (x : PinState) (b : Bus) : (setPin p x b).chip = b.chip := by
  cases p <;> rfl
@[simp] theorem setPin_draws (p : Pin) (x : PinState) (b : Bus) : (setPin p x b).draws = b.draws := by
  cases p <;> rfl
@[simp] theorem setPin_seen (p : Pin) (x : PinState) (b : Bus) : (setPin p x b).seen = b.seen := by
  cases p <;> rfl
@[simp] theorem setPin_trace (p : Pin) (x : PinState) (b : Bus) : (setPin p x b).trace = b.trace := by
  cases p <;> rfl
@[simp] theorem setPin_frame (p : Pin) (x : PinState) (b : Bus) : (setPin p x b).frame = b.frame := by
  cases p <;> rfl
@[simp] theorem setPin_frames (p : Pin) (x : PinState) (b : Bus) : (setPin p x b).frames = b.frames := by
  cases p <;> rfl

/-! ### wireEdge -/

@[simp] theorem wireEdge_pins (o : Opcodes) (p : Pin) (old v : Bool) (b : Bus) : (wireEdge o p old v b).pins = b.pins := by
  unfold wireEdge; split <;> (try split) <;> (try split) <;> simp
@[simp] theorem wireEdge_engine (o : Opcodes) (p : Pin) (old v : Bool) (b : Bus) : (wireEdge o p old v b).engine = b.engine := by
  unfold wireEdge; split <;> (try split) <;> (try split) <;> simp
@[simp] theorem wireEdge_hwx (o : Opcodes) (p : Pin) (old v : Bool) (b : Bus) : (wireEdge o p old v b).hwx = b.hwx := by
  unfold wireEdge; split <;> (try split) <;> (try split) <;> simp
@[simp] theorem wireEdge_wiring (o : Opcodes) (p : Pin) (old v : Bool) (b : Bus) : (wireEdge o p old v b).wiring = b.wiring := by
  unfold wireEdge; split <;> (try split) <;> (try split) <;> simp
@[simp] theorem wireEdge_draws (o : Opcodes) (p : Pin) (old v : Bool) (b : Bus) : (wireEdge o p old v b).draws = b.draws := by
  unfold wireEdge; split <;> (try split) <;> (try split) <;> simp
@[simp] theorem wireEdge_trace (o : Opcodes) (p : Pin) (old v : Bool) (b : Bus) : (wireEdge o p old v b).trace = b.trace := by
  unfold wireEdge; split <;> (try split) <;> (try split) <;> simp
@[simp] theorem wireEdge_frame (o : Opcodes) (p : Pin) (old v : Bool) (b : Bus) : (wireEdge o p old v b).frame = b.frame := by
  unfold wireEdge; split <;> (try split) <;> (try split) <;> simp
@[simp] theorem wireEdge_frames (o : Opcodes) (p : Pin) (old v : Bool) (b : Bus) : (wireEdge o p old v b).frames = b.frames := by
  unfold wireEdge; split <;> (try split) <;> (try split) <;> simp

/-! ### pinWrite -/

@[simp] theorem pinWrite_engine (o : Opcodes) (p : Pin) (v : Bool) (b : Bus) : (pinWrite o p v b).engine = b.engine := by
  unfold pinWrite; dsimp only; split <;> simp
@[simp] theorem pinWrite_hwx (o : Opcodes) (p : Pin) (v : Bool) (b : Bus) : (pinWrite o p v b).hwx = b.hwx := by
  unfold pinWrite; dsimp only; split <;> simp
@[simp] theorem pinWrite_wiring (o : Opcodes) (p : Pin) (v : Bool) (b : Bus) : (pinWrite o p v b).wiring = b.wiring := by
  unfold pinWrite; dsimp only; split <;> simp
@[simp] theorem pinWrite_draws (o : Opcodes) (p : Pin) (v : Bool) (b : Bus) : (pinWrite o p v b).draws = b.draws := by
  unfold pinWrite; dsimp only; split <;> simp
@[simp] theorem pinWrite_frame (o : Opcodes) (p : Pin) (v : Bool) (b : Bus) : (pinWrite o p v b).frame = b.frame := by
  unfold pinWrite; dsimp only; split <;> simp
@[simp] theorem pinWrite_frames (o : Opcodes) (p : Pin) (v : Bool) (b : Bus) : (pinWrite o p v b).frames = b.frames := by
  unfold pinWrite; dsimp only; split <;> simp
@[simp] theorem pinWrite_trace (o : Opcodes) (p : Pin) (v : Bool) (b : Bus) :
    (pinWrite o p v b).trace = b.trace ++ [.pinWrite p v] := by
  unfold pinWrite; dsimp only; split <;> simp
theorem pinWrite_pins (o : Opcodes) (p : Pin) (v : Bool) (b : Bus) :
    (pinWrite o p v b).pins = (setPin p { pinOf p b with latch := v } b).pins := by
  unfold pinWrite; dsimp only; split <;> simp
@[simp] theorem pinWrite_cs_pins (o : Opcodes) (v : Bool) (b : Bus) :
    (pinWrite o .cs v b).pins = { b.pins with cs := { b.pins.cs with latch := v } } := by
  rw [pinWrite_pins]; rfl
@[simp] theorem pinWrite_sck_pins (o : Opcodes) (v : Bool) (b : Bus) :
    (pinWrite o .sck v b).pins = { b.pins with sck := { b.pins.sck with latch := v } } := by
  rw [pinWrite_pins]; rfl
@[simp] theorem pinWrite_mosi_pins (o : Opcodes) (v : Bool) (b : Bus) :
    (pinWrite o .mosi v b).pins = { b.pins with mosi := { b.pins.mosi with latch := v } } := by
  rw [pinWrite_pins]; rfl
@[simp] theorem pinWrite_miso_pins (o : Opcodes) (v : Bool) (b : Bus) :
    (pinWrite o .miso v b).pins = { b.pins with miso := { b.pins.miso with latch := v } } := by
  rw [pinWrite_pins]; rfl

/-! ### pinRead -/

@[simp] theorem pinRead_pins (b : Bus) : (pinRead b).2.pins = b.pins := by
  unfold pinRead; dsimp only; split <;> simp [drawSample]
@[simp] theorem pinRead_engine (b : Bus) : (pinRead b).2.engine = b.engine := by
  unfold pinRead; dsimp only; split <;> simp [drawSample]
@[simp] theorem pinRead_hwx (b : Bus) : (pinRead b).2.hwx = b.hwx := by
  unfold pinRead; dsimp only; split <;> simp [drawSample]
@[simp] theorem pinRead_wiring (b : Bus) : (pinRead b).2.wiring = b.wiring := by
  unfold pinRead; dsimp only; split <;> simp [drawSample]
@[simp] theorem pinRead_chip (b : Bus) : (pinRead b).2.chip = b.chip := by
  unfold pinRead; dsimp only; split <;> simp [drawSample]
@[simp] theorem pinRead_seen (b : Bus) : (pinRead b).2.seen = b.seen := by
  unfold pinRead; dsimp only; split <;> simp [drawSample]
@[simp] theorem pinRead_frame (b : Bus) : (pinRead b).2.frame = b.frame := by
  unfold pinRead; dsimp only; split <;> simp [drawSample]
@[simp] theorem pinRead_frames (b : Bus) : (pinRead b).2.frames = b.frames := by
  unfold pinRead; dsimp only; split <;> simp [drawSample]
@[simp] theorem pinRead_trace (b : Bus) : (pinRead b).2.trace = b.trace ++ [.pinRead .miso (pinRead b).1] := by
  unfold pinRead; dsimp only; split <;> simp [drawSample]

end Sys2Proof.Machine
end

