-- ==== Sys2Proof/Laws/Transfer.lean ====
section
/-! SUPPORT. One lemma for each shared operation of the transfer layer, saying everything it can do: pins, exchanges in
both strategies, chip-select. -/

namespace Sys2Proof.Machine

/-! ### The attached device's parameters and the canonical form of its memory -/

@[simp] theorem busFall_params (b : Bus) : (busFall b).chip.params = b.chip.params := by
  unfold busFall; split <;> rfl

@[simp] theorem busRaise_params (o : Opcodes) (b : Bus) : (busRaise o b).chip.params = b.chip.params := by
  unfold busRaise; split <;> rfl

@[simp] theorem busDisturb_params (vs : List Bool) (b : Bus) : (busDisturb vs b).chip.params = b.chip.params := by
  unfold busDisturb; dsimp only; split <;> rfl

@[simp] theorem busClock_params (o : Opcodes) (d : Bool) (b : Bus) : (busClock o d b).chip.params = b.chip.params := by
  unfold busClock; split <;> (try split) <;> simp

@[simp] theorem wireEdge_params (o : Opcodes) (p : Pin) (old v : Bool) (b : Bus) :
    (wireEdge o p old v b).chip.params = b.chip.params := by
  unfold wireEdge; split <;> (try split) <;> (try split) <;> simp

@[simp] theorem pinWrite_params (o : Opcodes) (p : Pin) (v : Bool) (b : Bus) :
    (pinWrite o p v b).chip.params = b.chip.params := by
  unfold pinWrite; dsimp only; split <;> simp

theorem busFall_wf (b : Bus) (h : Memory.wf b.chip.mem = true) : Memory.wf (busFall b).chip.mem = true := by
  unfold busFall; split <;> exact h

theorem busRaise_wf (o : Opcodes) (b : Bus) (h : Memory.wf b.chip.mem = true) :
    Memory.wf (busRaise o b).chip.mem = true := by
  unfold busRaise; split
  · exact chipMemAfter_wf o b.chip h
  · exact h
  · exact h

theorem busDisturb_wf (vs : List Bool) (b : Bus) (h : Memory.wf b.chip.mem = true) :
    Memory.wf (busDisturb vs b).chip.mem = true := by
  unfold busDisturb; dsimp only; split
  · exact chipDisturb_wf _ b.chip
  · exact h
  · exact h

@[simp] theorem busClock_mem (o : Opcodes) (d : Bool) (b : Bus) : (busClock o d b).chip.mem = b.chip.mem := by
  unfold busClock; split <;> (try split) <;> simp

theorem wireEdge_wf (o : Opcodes) (p : Pin) (old v : Bool) (b : Bus) (h : Memory.wf b.chip.mem = true) :
    Memory.wf (wireEdge o p old v b).chip.mem = true := by
  unfold wireEdge
  split
  · split
    · exact busFall_wf b h
    · split
      · exact busRaise_wf o b h
      · exact h
  · split
    · split
      · simpa using h
      · exact busDisturb_wf _ b h
    · exact h
  · exact h
  · exact h

theorem pinWrite_wf (o : Opcodes) (p : Pin) (v : Bool) (b : Bus) (h : Memory.wf b.chip.mem = true) :
    Memory.wf (pinWrite o p v b).chip.mem = true := by
  unfold pinWrite; dsimp only
  split
  · exact wireEdge_wf _ _ _ _ _ (by simpa using h)
  · exact busDisturb_wf _ _ (by simpa using h)

/-! ### Software strategy -/

/-- One turn of the loop of R188: the four events in order, whatever is attached. -/
structure SwBitOut (b b' : Bus) (i : Nat) (r : Bool) : Prop where
  trace : b'.trace = b.trace ++
    [.pinWrite .sck false, .pinWrite .mosi (b.engine.shTx.getLsbD i), .pinWrite .sck true, .pinRead .miso r]
  shTx : b'.engine.shTx = b.engine.shTx
  shRx : b'.engine.shRx = shiftIn b.engine.shRx r
  pins : b'.pins = { b.pins with
    sck := { b.pins.sck with latch := true }
    mosi := { b.pins.mosi with latch := b.engine.shTx.getLsbD i } }
  hwx : b'.hwx = b.hwx
  wiring : b'.wiring = b.wiring
  frame : b'.frame = b.frame
  frames : b'.frames = b.frames
  params : b'.chip.params = b.chip.params
  wf : Memory.wf b.chip.mem = true → Memory.wf b'.chip.mem = true

theorem swBit_out (o : Opcodes) (b : Bus) (i : Nat) : ∃ r, SwBitOut b (swBit o b i) i r := by
  refine ⟨(pinRead (pinWrite o .sck true (pinWrite o .mosi (b.engine.shTx.getLsbD i) (pinWrite o .sck false
    { b with engine := { b.engine with bitCnt := BitVec.ofNat 3 i } })))).1, ?_, ?_, ?_, ?_, ?_, ?_, ?_, ?_, ?_, ?_⟩
  all_goals simp [swBit]
  intro h
  exact pinWrite_wf _ _ _ _ (pinWrite_wf _ _ _ _ (pinWrite_wf _ _ _ _ h))

/-- Bit k of a byte assembled most significant bit first is the sample of turn k (R188). -/
theorem shiftIn_getLsbD (r7 r6 r5 r4 r3 r2 r1 r0 : Bool) :
    let rx := shiftIn (shiftIn (shiftIn (shiftIn (shiftIn (shiftIn (shiftIn (shiftIn 0 r7) r6) r5) r4) r3) r2) r1) r0
    rx.getLsbD 7 = r7 ∧ rx.getLsbD 6 = r6 ∧ rx.getLsbD 5 = r5 ∧ rx.getLsbD 4 = r4 ∧ rx.getLsbD 3 = r3 ∧
      rx.getLsbD 2 = r2 ∧ rx.getLsbD 1 = r1 ∧ rx.getLsbD 0 = r0 := by
  revert r7 r6 r5 r4 r3 r2 r1 r0; decide +kernel

/-- Everything `Xfer` can do when the exchange completes (R185 to R192). -/
structure XferOut (p : Params) (tx rx : Byte) (b b' : Bus) : Prop where
  trace : b'.trace = b.trace ++ exchangeEvents p.mode (tx, rx)
  frames : b'.frames = b.frames
  wiring : b'.wiring = b.wiring
  params : b'.chip.params = b.chip.params
  cs : b'.pins.cs = b.pins.cs
  miso : b'.pins.miso = b.pins.miso
  settings : b'.hwx.settings = b.hwx.settings
  sckDir : b'.pins.sck.dir = b.pins.sck.dir
  mosiDir : b'.pins.mosi.dir = b.pins.mosi.dir
  sw : p.mode = .sw → b'.pins.sck.latch = true ∧ b'.pins.mosi.latch = tx.getLsbD 0 ∧ b'.hwx = b.hwx
  hw : p.mode = .hw → b'.pins.sck = b.pins.sck ∧ b'.pins.mosi = b.pins.mosi ∧ b'.hwx = hwxDone b.hwx
  wf : Memory.wf b.chip.mem = true → Memory.wf b'.chip.mem = true
  engine : p.mode = .hw → b'.engine = b.engine

theorem xferSW_out (p : Params) (hm : p.mode = .sw) (tx : Byte) (b : Bus) :
    XferOut p tx (xferSW p.opc tx b).1 b (xferSW p.opc tx b).2 ∧ (xferSW p.opc tx b).2.frame = b.frame := by
  unfold xferSW bitOrder
  simp only [List.foldl_cons, List.foldl_nil]
  generalize hb0 : ({ b with engine := { shTx := tx, shRx := 0, bitCnt := 7 } } : Bus) = b0
  obtain ⟨r7, h7⟩ := swBit_out p.opc b0 7
  generalize swBit p.opc b0 7 = b1 at *
  obtain ⟨r6, h6⟩ := swBit_out p.opc b1 6
  generalize swBit p.opc b1 6 = b2 at *
  obtain ⟨r5, h5⟩ := swBit_out p.opc b2 5
  generalize swBit p.opc b2 5 = b3 at *
  obtain ⟨r4, h4⟩ := swBit_out p.opc b3 4
  generalize swBit p.opc b3 4 = b4 at *
  obtain ⟨r3, h3⟩ := swBit_out p.opc b4 3
  generalize swBit p.opc b4 3 = b5 at *
  obtain ⟨r2, h2⟩ := swBit_out p.opc b5 2
  generalize swBit p.opc b5 2 = b6 at *
  obtain ⟨r1, h1⟩ := swBit_out p.opc b6 1
  generalize swBit p.opc b6 1 = b7 at *
  obtain ⟨r0, h0⟩ := swBit_out p.opc b7 0
  generalize swBit p.opc b7 0 = b8 at *
  have hrx : b8.engine.shRx = shiftIn (shiftIn (shiftIn (shiftIn (shiftIn (shiftIn (shiftIn (shiftIn 0 r7) r6) r5) r4)
      r3) r2) r1) r0 := by
    rw [h0.shRx, h1.shRx, h2.shRx, h3.shRx, h4.shRx, h5.shRx, h6.shRx, h7.shRx, ← hb0]
  have hbits := shiftIn_getLsbD r7 r6 r5 r4 r3 r2 r1 r0
  rw [← hrx] at hbits
  obtain ⟨g7, g6, g5, g4, g3, g2, g1, g0⟩ := hbits
  have t0 : b0.engine.shTx = tx := by rw [← hb0]
  have t1 : b1.engine.shTx = tx := by rw [h7.shTx, t0]
  have t2 : b2.engine.shTx = tx := by rw [h6.shTx, t1]
  have t3 : b3.engine.shTx = tx := by rw [h5.shTx, t2]
  have t4 : b4.engine.shTx = tx := by rw [h4.shTx, t3]
  have t5 : b5.engine.shTx = tx := by rw [h3.shTx, t4]
  have t6 : b6.engine.shTx = tx := by rw [h2.shTx, t5]
  have t7 : b7.engine.shTx = tx := by rw [h1.shTx, t6]
  have hp : b8.pins = { b0.pins with
      sck := { b0.pins.sck with latch := true }, mosi := { b0.pins.mosi with latch := tx.getLsbD 0 } } := by
    rw [h0.pins, h1.pins, h2.pins, h3.pins, h4.pins, h5.pins, h6.pins, h7.pins, t7]
  have hx : b8.hwx = b0.hwx := by
    rw [h0.hwx, h1.hwx, h2.hwx, h3.hwx, h4.hwx, h5.hwx, h6.hwx, h7.hwx]
  have e0 : b0.pins = b.pins ∧ b0.hwx = b.hwx ∧ b0.trace = b.trace ∧ b0.frames = b.frames ∧ b0.wiring = b.wiring ∧
      b0.chip = b.chip ∧ b0.frame = b.frame := by subst hb0; exact ⟨rfl, rfl, rfl, rfl, rfl, rfl, rfl⟩
  obtain ⟨ep, eh, et, ef, ew, ec, eg⟩ := e0
  refine ⟨⟨?_, ?_, ?_, ?_, ?_, ?_, ?_, ?_, ?_, ?_, ?_, ?_, fun h => by rw [hm] at h; cases h⟩, ?_⟩
  · simp only [loseShift_trace, exchangeEvents, hm, byteEvents, bitOrder, List.flatMap_cons, List.flatMap_nil, g7, g6, g5,
      g4, g3, g2, g1, g0]
    rw [h0.trace, h1.trace, h2.trace, h3.trace, h4.trace, h5.trace, h6.trace, h7.trace, t0, t1, t2, t3, t4, t5, t6, t7,
      et]
    simp only [List.append_assoc, List.cons_append, List.nil_append]
  · simp only [loseShift_frames]
    rw [h0.frames, h1.frames, h2.frames, h3.frames, h4.frames, h5.frames, h6.frames, h7.frames, ef]
  · simp only [loseShift_wiring]
    rw [h0.wiring, h1.wiring, h2.wiring, h3.wiring, h4.wiring, h5.wiring, h6.wiring, h7.wiring, ew]
  · simp only [loseShift_chip]
    rw [h0.params, h1.params, h2.params, h3.params, h4.params, h5.params, h6.params, h7.params, ec]
  · simp only [loseShift_pins, hp, ep]
  · simp only [loseShift_pins, hp, ep]
  · simp only [loseShift_hwx, hx, eh]
  · simp only [loseShift_pins, hp, ep]
  · simp only [loseShift_pins, hp, ep]
  · intro _
    simp only [loseShift_pins, loseShift_hwx, hp, hx, eh]
    exact ⟨trivial, trivial, trivial⟩
  · intro h; rw [hm] at h; cases h
  · intro h
    simp only [loseShift_chip]
    exact h0.wf (h1.wf (h2.wf (h3.wf (h4.wf (h5.wf (h6.wf (h7.wf (ec ▸ h))))))))
  · simp only [loseShift_frame]
    rw [h0.frame, h1.frame, h2.frame, h3.frame, h4.frame, h5.frame, h6.frame, h7.frame, eg]

/-! ### Hardware strategy -/

/-- What clocking the device does not touch. -/
structure SameButDevice (b b' : Bus) : Prop where
  pins : b'.pins = b.pins
  engine : b'.engine = b.engine
  hwx : b'.hwx = b.hwx
  wiring : b'.wiring = b.wiring
  trace : b'.trace = b.trace
  frame : b'.frame = b.frame
  frames : b'.frames = b.frames
  params : b'.chip.params = b.chip.params
  wf : Memory.wf b.chip.mem = true → Memory.wf b'.chip.mem = true

theorem SameButDevice.refl (b : Bus) : SameButDevice b b := ⟨rfl, rfl, rfl, rfl, rfl, rfl, rfl, rfl, id⟩

theorem SameButDevice.trans {b c d : Bus} (h : SameButDevice b c) (k : SameButDevice c d) : SameButDevice b d :=
  ⟨k.pins.trans h.pins, k.engine.trans h.engine, k.hwx.trans h.hwx, k.wiring.trans h.wiring, k.trace.trans h.trace,
    k.frame.trans h.frame, k.frames.trans h.frames, k.params.trans h.params, fun w => k.wf (h.wf w)⟩

theorem misoLevel_chip' (d : Option Bool) (b : Bus) : SameButDevice b (misoLevel d b).2 := by
  refine ⟨?_, ?_, ?_, ?_, ?_, ?_, ?_, ?_, fun h => ?_⟩ <;> simp
  exact h

theorem hwBit_same (o : Opcodes) (tx : Byte) (acc : Byte × Bus) (i : Nat) :
    SameButDevice acc.2 (hwBit o tx acc i).2 := by
  refine SameButDevice.trans (c := busClock o (tx.getLsbD i) (see (pulse (tx.getLsbD i)) acc.2)) ?_ (misoLevel_chip' _ _)
  refine ⟨?_, ?_, ?_, ?_, ?_, ?_, ?_, ?_, fun h => ?_⟩ <;> simp
  exact h

theorem hwBitUnknown_same (acc : Byte × Bus) (i : Nat) : SameButDevice acc.2 (hwBitUnknown acc i).2 :=
  ⟨rfl, rfl, rfl, rfl, rfl, rfl, rfl, rfl, id⟩

theorem foldl_same (f : Byte × Bus → Nat → Byte × Bus) (h : ∀ a i, SameButDevice a.2 (f a i).2) (l : List Nat)
    (a : Byte × Bus) : SameButDevice a.2 (l.foldl f a).2 := by
  induction l generalizing a with
  | nil => exact SameButDevice.refl _
  | cons i l ih => exact (h a i).trans (ih (f a i))

theorem busDisturb_same (vs : List Bool) (b : Bus) : SameButDevice b (busDisturb vs b) := by
  refine ⟨?_, ?_, ?_, ?_, ?_, ?_, ?_, ?_, busDisturb_wf vs b⟩ <;> simp

theorem hwWire_same (o : Opcodes) (tx : Byte) (b : Bus) : SameButDevice b (hwWire o tx b).2 := by
  unfold hwWire
  split
  · exact foldl_same _ (hwBit_same o tx) bitOrder (0, b)
  · exact (busDisturb_same _ b).trans (foldl_same _ hwBitUnknown_same bitOrder (0, busDisturb (byteBits tx) b))

theorem hwExchange_out (p : Params) (hm : p.mode = .hw) (tx rx : Byte) (b b' : Bus)
    (h : hwExchange p.opc tx b = some (rx, b')) : XferOut p tx rx b b' ∧ b'.frame = b.frame := by
  have hs := hwWire_same p.opc tx { b with hwx := hwxDone b.hwx }
  unfold hwExchange at h
  split at h
  · cases h
  · simp only [Option.some.injEq, Prod.mk.injEq] at h
    obtain ⟨h1, h2⟩ := h
    subst h1 h2
    refine ⟨⟨?_, ?_, ?_, ?_, ?_, ?_, ?_, ?_, ?_, ?_, ?_, ?_, fun _ => by simp [hs.engine]⟩, ?_⟩
    · simp [hs.trace, exchangeEvents, hm]
    · simp [hs.frames]
    · simp [hs.wiring]
    · simp [hs.params]
    · simp [hs.pins]
    · simp [hs.pins]
    · rw [log_hwx, hs.hwx]; rfl
    · simp [hs.pins]
    · simp [hs.pins]
    · intro h; rw [hm] at h; cases h
    · intro _; simp [hs.pins, hs.hwx]
    · intro h; simpa using hs.wf h
    · simp [hs.frame]

/-! ### The exchange -/

/-- `Xfer`: everything it can do when it completes. -/
theorem xfer_out (p : Params) (tx rx : Byte) (b b' : Bus) (h : xfer p tx b = some (rx, b')) :
    XferOut p tx rx b b' ∧ b'.frame = b.frame ++ [(tx, rx)] := by
  unfold xfer at h
  split at h
  · cases h
  · rename_i rx1 b1 hx
    simp only [Option.some.injEq, Prod.mk.injEq] at h
    obtain ⟨h1, h2⟩ := h
    subst h1 h2
    have key : XferOut p tx rx1 b b1 ∧ b1.frame = b.frame := by
      unfold xferByMode at hx
      split at hx
      · rename_i hm; exact hwExchange_out p hm tx rx1 b b1 hx
      · rename_i hm
        simp only [Option.some.injEq] at hx
        have := xferSW_out p hm tx b
        rw [hx] at this
        exact this
    obtain ⟨k, kf⟩ := key
    exact ⟨⟨k.trace, k.frames, k.wiring, k.params, k.cs, k.miso, k.settings, k.sckDir, k.mosiDir, k.sw, k.hw, k.wf,
      k.engine⟩, by simp [kf]⟩

/-- The software strategy always completes (R195). -/
theorem xfer_sw_some (p : Params) (hm : p.mode = .sw) (tx : Byte) (b : Bus) : ∃ rx b', xfer p tx b = some (rx, b') := by
  unfold xfer xferByMode; rw [hm]; exact ⟨_, _, rfl⟩

/-- In hardware mode an exchange completes exactly when the peripheral does (R195, R216). -/
theorem xfer_hw_none_iff (p : Params) (hm : p.mode = .hw) (tx : Byte) (b : Bus) :
    xfer p tx b = none ↔ b.hwx.budget = some 0 := by
  unfold xfer xferByMode; rw [hm]; dsimp only; unfold hwExchange
  constructor
  · intro h; split at h
    · rename_i hx; split at hx
      · assumption
      · cases hx
    · cases h
  · intro h; rw [h]; rfl

/-! ### Chip-select -/

/-- Everything a chip-select micro-operation leaves as it is. -/
structure CsOut (v : Bool) (b b' : Bus) : Prop where
  trace : b'.trace = b.trace ++ [.pinWrite .cs v]
  wiring : b'.wiring = b.wiring
  params : b'.chip.params = b.chip.params
  hwx : b'.hwx = b.hwx
  engine : b'.engine = b.engine
  draws : b'.draws = b.draws
  pins : b'.pins = { b.pins with cs := { b.pins.cs with latch := v } }
  wf : Memory.wf b.chip.mem = true → Memory.wf b'.chip.mem = true

theorem csAssert_out (o : Opcodes) (b : Bus) :
    CsOut false b (csAssert o b) ∧ (csAssert o b).frame = [] ∧ (csAssert o b).frames = b.frames := by
  refine ⟨⟨?_, ?_, ?_, ?_, ?_, ?_, ?_, fun h => pinWrite_wf _ _ _ _ h⟩, rfl, ?_⟩ <;> simp [csAssert]

theorem csDeassert_out (o : Opcodes) (b : Bus) :
    CsOut true b (csDeassert o b) ∧ (csDeassert o b).frame = [] ∧
      (csDeassert o b).frames = b.frames ++ [b.frame] := by
  refine ⟨⟨?_, ?_, ?_, ?_, ?_, ?_, ?_, fun h => pinWrite_wf _ _ _ _ h⟩, rfl, ?_⟩ <;> simp [csDeassert]

/-! ### BEGIN's pin configuration -/

/-- Everything BEGIN's configuration does (R112). -/
structure ConfigOut (p : Params) (b b' : Bus) : Prop where
  trace : b'.trace = b.trace ++ configEvents p
  frames : b'.frames = b.frames
  frame : b'.frame = b.frame
  wiring : b'.wiring = b.wiring
  params : b'.chip.params = b.chip.params
  budget : b'.hwx.budget = b.hwx.budget
  pending : b'.hwx.pending = b.hwx.pending
  engine : b'.engine = b.engine
  configured : pinsConfigured p b' = true
  cs : b'.pins.cs = { dir := .out, latch := true }
  latches : b'.pins.sck.latch = b.pins.sck.latch ∧ b'.pins.mosi.latch = b.pins.mosi.latch
  hw : p.mode = .hw → b'.pins.sck = b.pins.sck ∧ b'.pins.mosi = b.pins.mosi ∧ b'.pins.miso = b.pins.miso
  hwx : p.mode = .sw → b'.hwx = b.hwx
  wf : Memory.wf b.chip.mem = true → Memory.wf b'.chip.mem = true

/-- BEGIN's step on CS alone. -/
structure CsConfigOut (b b' : Bus) : Prop where
  trace : b'.trace = b.trace ++ [.pinMode .cs .out, .pinWrite .cs true]
  frames : b'.frames = b.frames
  frame : b'.frame = b.frame
  wiring : b'.wiring = b.wiring
  params : b'.chip.params = b.chip.params
  hwx : b'.hwx = b.hwx
  engine : b'.engine = b.engine
  pins : b'.pins = { b.pins with cs := { dir := .out, latch := true } }
  wf : Memory.wf b.chip.mem = true → Memory.wf b'.chip.mem = true

theorem csConfigure_out (o : Opcodes) (b : Bus) : CsConfigOut b (csConfigure o b) := by
  unfold csConfigure; dsimp only
  split
  · refine ⟨?_, ?_, ?_, ?_, ?_, ?_, ?_, ?_, fun h => busRaise_wf _ _ (by simpa using h)⟩ <;> simp [setPin]
  · refine ⟨?_, ?_, ?_, ?_, ?_, ?_, ?_, ?_, fun h => by simpa using h⟩ <;> simp [setPin]
  · refine ⟨?_, ?_, ?_, ?_, ?_, ?_, ?_, ?_, fun h => by simpa using h⟩ <;> simp [setPin]

theorem configurePins_out (p : Params) (b : Bus) : ConfigOut p b (configurePins p b) := by
  have k := csConfigure_out p.opc b
  unfold configurePins
  generalize csConfigure p.opc b = c at *
  dsimp only
  cases hm : p.mode with
  | hw =>
    refine ⟨?_, ?_, ?_, ?_, ?_, ?_, ?_, ?_, ?_, ?_, ?_, ?_, ?_, fun h => by simpa [hwInit] using k.wf h⟩ <;>
      simp [hwInit, k.trace, k.frames, k.frame, k.wiring, k.params, k.hwx, k.engine, k.pins, configEvents, hm,
        pinsConfigured]
  | sw =>
    refine ⟨?_, ?_, ?_, ?_, ?_, ?_, ?_, ?_, ?_, ?_, ?_, ?_, ?_, fun h => by simpa [pinMode, setPin] using k.wf h⟩ <;>
      simp [pinMode, setPin, pinOf, k.trace, k.frames, k.frame, k.wiring, k.params, k.hwx, k.engine, k.pins,
        configEvents, hm, pinsConfigured]

end Sys2Proof.Machine
end

