-- ==== Sys2Proof/Laws/Exchange.lean ====
section
/-! SUPPORT. What an exchange answers and what it leaves in the attached device, for each environment, once the pins are
configured and the device is selected: the bit level of R187 and R188 is the byte level of R64. -/

namespace Sys2Proof.Machine

/-! ### The device, clocked eight times -/

@[simp] theorem chipAbsorb_out (o : Opcodes) (tx : Byte) (c : Chip) : (chipAbsorb o tx c).out = c.out := by
  unfold chipAbsorb; repeat' (split <;> try rfl)

@[simp] theorem chipAbsorb_bitn (o : Opcodes) (tx : Byte) (c : Chip) : (chipAbsorb o tx c).bitn = c.bitn := by
  unfold chipAbsorb; repeat' (split <;> try rfl)

/-- One rising edge and the sample after it. -/
def clockOnce (o : Opcodes) (tx : Byte) (acc : Byte × Chip) (i : Nat) : Byte × Chip :=
  let c := chipRise o (tx.getLsbD i) acc.2
  (shiftIn acc.1 (chipMiso c), c)

theorem clockOnce_first (o : Opcodes) (tx acc : Byte) (c : Chip) (i : Nat) (h : c.bitn % 8 = 0) :
    clockOnce o tx (acc, c) i =
      (shiftIn acc ((chipAnswer o c).getLsbD 7),
        { c with out := chipAnswer o c, shin := shiftIn 0 (tx.getLsbD i), bitn := 1 }) := by
  simp only [clockOnce, chipRise_first o _ c h, chipMiso]

theorem clockOnce_mid (o : Opcodes) (tx acc a s : Byte) (c : Chip) (i k : Nat) (h0 : 0 < k) (h7 : k < 7) :
    clockOnce o tx (acc, { c with out := a, shin := s, bitn := k }) i =
      (shiftIn acc (a.getLsbD (8 - (k + 1))),
        { c with out := a, shin := shiftIn s (tx.getLsbD i), bitn := k + 1 }) := by
  have := chipRise_mid o (tx.getLsbD i) { c with out := a, shin := s, bitn := k } h0 h7
  simp only [clockOnce, this, chipMiso]

theorem clockOnce_last (o : Opcodes) (tx acc a s : Byte) (c : Chip) (i : Nat) :
    clockOnce o tx (acc, { c with out := a, shin := s, bitn := 7 }) i =
      (shiftIn acc (a.getLsbD 0), chipTake o (shiftIn s (tx.getLsbD i))
        { c with out := a, shin := shiftIn s (tx.getLsbD i), bitn := 8 }) := by
  have := chipRise_last o (tx.getLsbD i) { c with out := a, shin := s, bitn := 7 } rfl
  simp only [clockOnce, this, chipMiso, chipTake, chipAbsorb_out, chipAbsorb_bitn, Nat.sub_self]

/-- Eight clocked bits are one byte exchanged (R64, R187, R188, R189 (d)). -/
theorem clock_eight (o : Opcodes) (tx : Byte) (c : Chip) (h : c.bitn % 8 = 0) :
    bitOrder.foldl (clockOnce o tx) (0, c) = chipByte o tx c := by
  unfold bitOrder
  iterate 8 rw [List.foldl_cons]
  rw [List.foldl_nil, clockOnce_first o tx 0 c 7 h]
  rw [clockOnce_mid (k := 1) (h0 := by decide) (h7 := by decide)]
  rw [clockOnce_mid (k := 2) (h0 := by decide) (h7 := by decide)]
  rw [clockOnce_mid (k := 3) (h0 := by decide) (h7 := by decide)]
  rw [clockOnce_mid (k := 4) (h0 := by decide) (h7 := by decide)]
  rw [clockOnce_mid (k := 5) (h0 := by decide) (h7 := by decide)]
  rw [clockOnce_mid (k := 6) (h0 := by decide) (h7 := by decide)]
  rw [clockOnce_last]
  simp only [Nat.reduceAdd, Nat.reduceSub]
  rw [shiftIn_bits, shiftIn_bits]
  rfl

/-! ### The software engine on a selected device -/

/-- The block's lines are driven and MISO is an input (R28). -/
structure SwReady (b : Bus) : Prop where
  cs : b.pins.cs = { dir := .out, latch := false }
  sck : b.pins.sck.dir = .out
  mosi : b.pins.mosi.dir = .out
  miso : b.pins.miso.dir = .inp

theorem SwReady.of_pins {b b' : Bus} (h : SwReady b) (hc : b'.pins.cs = b.pins.cs)
    (hs : b'.pins.sck.dir = b.pins.sck.dir) (hm : b'.pins.mosi.dir = b.pins.mosi.dir)
    (hi : b'.pins.miso = b.pins.miso) : SwReady b' :=
  ⟨hc.trans h.cs, hs.trans h.sck, hm.trans h.mosi, by rw [hi]; exact h.miso⟩

theorem selected_of_cs (b : Bus) (h : b.pins.cs = { dir := .out, latch := false }) : selected b = true := by
  simp [selected, wire, h]

theorem wire_out (x : PinState) (h : x.dir = .out) : wire x = some x.latch := by simp [wire, h]

theorem pinWrite_out (o : Opcodes) (p : Pin) (v : Bool) (b : Bus) (h : (pinOf p b).dir = .out) :
    pinWrite o p v b =
      wireEdge o p (pinOf p b).latch v
        (see (levelOf p v) (log (.pinWrite p v) (setPin p { pinOf p b with latch := v } b))) := by
  simp only [pinWrite, wire_out _ h]

/-- A write to an output is one level on the wires, where SCK does not rise with MOSI undriven (R181). -/
theorem pinWrite_seen (o : Opcodes) (p : Pin) (v : Bool) (b : Bus) (h : (pinOf p b).dir = .out)
    (hm : p = .sck → b.pins.mosi.dir = .out) : (pinWrite o p v b).seen = b.seen ++ levelOf p v := by
  rw [pinWrite_out o p v b h]
  cases p with
  | cs => simp only [wireEdge]; split <;> (try split) <;> simp
  | sck =>
    have k : wire b.pins.mosi = some b.pins.mosi.latch := wire_out _ (hm rfl)
    simp only [wireEdge]; split
    · simp [setPin, k]
    · simp
  | mosi => simp [wireEdge]
  | miso => simp [wireEdge]

/-- The three pin writes of one turn: MOSI settles while SCK is low, then SCK rises once (R189). -/
theorem swWrites_chip (o : Opcodes) (d : Bool) (b : Bus) (h : SwReady b) :
    (pinWrite o .sck true (pinWrite o .mosi d (pinWrite o .sck false b))).chip =
      (busClock o d { b with chip := b.chip }).chip := by
  rw [pinWrite_out o .sck false b h.sck]
  have e1 : ∀ c, wireEdge o .sck (pinOf .sck b).latch false c = c := by simp [wireEdge]
  rw [e1]
  generalize hb1 : see (levelOf .sck false)
    (log (.pinWrite .sck false) (setPin .sck { pinOf .sck b with latch := false } b)) = b1
  have p1 : b1.pins.sck = { dir := .out, latch := false } ∧ b1.pins.mosi = b.pins.mosi ∧ b1.pins.cs = b.pins.cs ∧
      b1.chip = b.chip ∧ b1.wiring = b.wiring := by
    subst hb1; refine ⟨?_, rfl, rfl, rfl, rfl⟩
    simp [setPin, pinOf, h.sck]
  obtain ⟨ps, pm, pc, pch, pw⟩ := p1
  rw [pinWrite_out o .mosi d b1 (by simp only [pinOf, pm]; exact h.mosi)]
  have e2 : ∀ c, wireEdge o .mosi (pinOf .mosi b1).latch d c = c := by simp [wireEdge]
  rw [e2]
  generalize hb2 : see (levelOf .mosi d)
    (log (.pinWrite .mosi d) (setPin .mosi { pinOf .mosi b1 with latch := d } b1)) = b2
  have p2 : b2.pins.sck = { dir := .out, latch := false } ∧ b2.pins.mosi = { dir := .out, latch := d } ∧
      b2.pins.cs = b.pins.cs ∧ b2.chip = b.chip ∧ b2.wiring = b.wiring := by
    subst hb2; refine ⟨ps, ?_, pc, pch, pw⟩
    simp [setPin, pinOf, pm, h.mosi]
  obtain ⟨qs, qm, qc, qch, qw⟩ := p2
  rw [pinWrite_out o .sck true b2 (by simp [pinOf, qs])]
  simp only [wireEdge, pinOf, qs, Bool.not_false, Bool.and_self, if_true, see_pins, log_pins, setPin, wire, qm]
  unfold busClock selected
  simp only [see_wiring, see_pins, see_chip, log_wiring, log_pins, qw, qc, qch, log_chip]
  split <;> (try split) <;> rfl

/-- One turn on a selected RefFRAM: one rising edge and the sample after it. -/
theorem swBit_fram (o : Opcodes) (b : Bus) (i : Nat) (h : SwReady b) (hw : b.wiring = .fram) :
    (swBit o b i).chip = (clockOnce o b.engine.shTx (b.engine.shRx, b.chip) i).2 ∧
      (swBit o b i).engine.shRx = (clockOnce o b.engine.shTx (b.engine.shRx, b.chip) i).1 := by
  have hr0 : SwReady { b with engine := { b.engine with bitCnt := BitVec.ofNat 3 i } } := ⟨h.cs, h.sck, h.mosi, h.miso⟩
  have hc := swWrites_chip o (b.engine.shTx.getLsbD i) _ hr0
  generalize hb3 : pinWrite o .sck true (pinWrite o .mosi (b.engine.shTx.getLsbD i) (pinWrite o .sck false
    { b with engine := { b.engine with bitCnt := BitVec.ofNat 3 i } })) = b3 at *
  have hsel : selected b = true := selected_of_cs b h.cs
  have hch : b3.chip = chipRise o (b.engine.shTx.getLsbD i) b.chip := by
    rw [hc]
    unfold busClock
    simp only [hw]
    rw [if_pos (by simpa [selected] using hsel)]
  have hp : b3.pins.cs = b.pins.cs ∧ b3.pins.miso = b.pins.miso ∧ b3.wiring = b.wiring ∧
      b3.engine.shRx = b.engine.shRx := by
    subst hb3; refine ⟨?_, ?_, ?_, ?_⟩ <;> simp
  have hs : swBit o b i = { (pinRead b3).2 with
      engine := { (pinRead b3).2.engine with shRx := shiftIn (pinRead b3).2.engine.shRx (pinRead b3).1 } } := by
    subst hb3; simp [swBit]
  have hv : (pinRead b3).1 = chipMiso b3.chip := by
    simp only [pinRead, hp.2.1, h.miso, misoLevel, hp.2.2.1, hw]
    rw [if_pos (by rw [selected, hp.1]; exact hsel)]
  rw [hs]
  simp only [pinRead_chip, pinRead_engine, hv, hch, hp.2.2.2, clockOnce]
  exact ⟨trivial, trivial⟩

/-- One turn is one clock pulse on the wires, whatever is attached. -/
theorem swBit_seen (o : Opcodes) (b : Bus) (i : Nat) (hs : b.pins.sck.dir = .out) (hm : b.pins.mosi.dir = .out) :
    (swBit o b i).seen = b.seen ++ pulse (b.engine.shTx.getLsbD i) := by
  simp only [swBit, pinRead_seen]
  rw [pinWrite_seen o .sck true _ (by simpa [pinOf] using hs) (fun _ => by simpa using hm),
    pinWrite_seen o .mosi _ _ (by simpa [pinOf] using hm) (fun h => nomatch h),
    pinWrite_seen o .sck false _ (by simpa [pinOf] using hs) (fun _ => by simpa using hm)]
  simp [levelOf, pulse]

theorem swBits_seen (o : Opcodes) (tx : Byte) (l : List Nat) (b : Bus) (hs : b.pins.sck.dir = .out)
    (hm : b.pins.mosi.dir = .out) (ht : b.engine.shTx = tx) :
    (l.foldl (swBit o) b).seen = b.seen ++ (l.map fun i => tx.getLsbD i).flatMap pulse := by
  induction l generalizing b with
  | nil => simp
  | cons i l ih =>
    obtain ⟨r, k⟩ := swBit_out o b i
    rw [List.foldl_cons, ih _ (by rw [k.pins]; exact hs) (by rw [k.pins]; exact hm) (k.shTx.trans ht),
      swBit_seen o b i hs hm, ht]
    simp

theorem swBit_ready (o : Opcodes) (b : Bus) (i : Nat) (h : SwReady b) : SwReady (swBit o b i) := by
  obtain ⟨r, k⟩ := swBit_out o b i
  exact h.of_pins (by rw [k.pins]) (by rw [k.pins]) (by rw [k.pins]) (by rw [k.pins])

theorem swBits_fram (o : Opcodes) (tx : Byte) (l : List Nat) (b : Bus) (h : SwReady b) (hw : b.wiring = .fram)
    (ht : b.engine.shTx = tx) :
    (l.foldl (swBit o) b).chip = (l.foldl (clockOnce o tx) (b.engine.shRx, b.chip)).2 ∧
      (l.foldl (swBit o) b).engine.shRx = (l.foldl (clockOnce o tx) (b.engine.shRx, b.chip)).1 := by
  induction l generalizing b with
  | nil => exact ⟨rfl, rfl⟩
  | cons i l ih =>
    obtain ⟨r, k⟩ := swBit_out o b i
    have hf := swBit_fram o b i h hw
    rw [ht] at hf
    have := ih (swBit o b i) (swBit_ready o b i h) (k.wiring.trans hw) (k.shTx.trans ht)
    simp only [List.foldl_cons]
    rw [this.1, this.2, hf.1, hf.2]
    exact ⟨rfl, rfl⟩

theorem xferSW_fram (o : Opcodes) (tx : Byte) (b : Bus) (h : SwReady b) (hw : b.wiring = .fram)
    (hb : b.chip.bitn % 8 = 0) :
    (xferSW o tx b).1 = (chipByte o tx b.chip).1 ∧ (xferSW o tx b).2.chip = (chipByte o tx b.chip).2 := by
  have k := swBits_fram o tx bitOrder { b with engine := { shTx := tx, shRx := 0, bitCnt := 7 } }
    ⟨h.cs, h.sck, h.mosi, h.miso⟩ hw rfl
  dsimp only at k
  rw [clock_eight o tx b.chip hb] at k
  exact ⟨k.2, k.1⟩

/-- One turn with an unknown device on driven lines: the bit shifted in is the oracle's answer to the history up to this
rising edge (R56). -/
theorem swBit_oracle (o : Opcodes) (b : Bus) (i : Nat) (hw : b.wiring = .arbitrary) (hs : b.pins.sck.dir = .out)
    (hm : b.pins.mosi.dir = .out) :
    (swBit o b i).engine.shRx =
        shiftIn b.engine.shRx (Config.sampleBit (b.seen ++ pulse (b.engine.shTx.getLsbD i)) b.draws) ∧
      (swBit o b i).draws = b.draws + 1 := by
  have h := swBit_seen o b i hs hm
  simp only [swBit, pinRead_seen] at h
  have key : ∀ c : Bus, c.wiring = .arbitrary →
      (pinRead c).1 = Config.sampleBit c.seen c.draws ∧ (pinRead c).2.draws = c.draws + 1 := by
    intro c hc
    unfold pinRead
    cases c.pins.miso.dir <;> simp [misoLevel, hc, drawSample]
  simp only [swBit]
  generalize hb3 : pinWrite o .sck true (pinWrite o .mosi _ (pinWrite o .sck false
    { b with engine := { b.engine with bitCnt := BitVec.ofNat 3 i } })) = b3 at *
  have w3 : b3.wiring = .arbitrary ∧ b3.draws = b.draws ∧ b3.engine.shRx = b.engine.shRx := by subst hb3; simp [hw]
  obtain ⟨k1, k2⟩ := key b3 w3.1
  simp only [pinRead_engine, k1, k2, w3.2.1, w3.2.2]
  exact ⟨by rw [← h], trivial⟩

/-! ### The hardware engine on a selected device -/

theorem hwBits_fram (o : Opcodes) (tx : Byte) (l : List Nat) (acc : Byte × Bus) (hs : selected acc.2 = true)
    (hw : acc.2.wiring = .fram) :
    (l.foldl (hwBit o tx) acc).1 = (l.foldl (clockOnce o tx) (acc.1, acc.2.chip)).1 ∧
      (l.foldl (hwBit o tx) acc).2.chip = (l.foldl (clockOnce o tx) (acc.1, acc.2.chip)).2 := by
  induction l generalizing acc with
  | nil => exact ⟨rfl, rfl⟩
  | cons i l ih =>
    have k := hwBit_same o tx acc i
    have e1 : (hwBit o tx acc i).2.chip = (clockOnce o tx (acc.1, acc.2.chip) i).2 ∧
        (hwBit o tx acc i).1 = (clockOnce o tx (acc.1, acc.2.chip) i).1 := by
      have hs' : selected (busClock o (tx.getLsbD i) (see (pulse (tx.getLsbD i)) acc.2)) = true := by
        simpa [selected] using hs
      have hw' : (busClock o (tx.getLsbD i) (see (pulse (tx.getLsbD i)) acc.2)).wiring = .fram := by simpa using hw
      have hsee : selected (see (pulse (tx.getLsbD i)) acc.2) = true := by simpa [selected] using hs
      have hc : (busClock o (tx.getLsbD i) (see (pulse (tx.getLsbD i)) acc.2)).chip =
          chipRise o (tx.getLsbD i) acc.2.chip := by
        simp [busClock, hw, hsee]
      simp only [hwBit, misoLevel, hw', hs', if_true, hc, clockOnce]
      exact ⟨trivial, trivial⟩
    have hs2 : selected (hwBit o tx acc i).2 = true := by
      simpa [selected, k.pins] using hs
    have := ih (hwBit o tx acc i) hs2 (k.wiring.trans hw)
    simp only [List.foldl_cons]
    rw [this.1, this.2, e1.1, e1.2]
    exact ⟨rfl, rfl⟩

/-- The pulses the peripheral makes, whatever is attached. -/
theorem hwBits_seen (o : Opcodes) (tx : Byte) (l : List Nat) (acc : Byte × Bus) :
    (l.foldl (hwBit o tx) acc).2.seen = acc.2.seen ++ (l.map fun i => tx.getLsbD i).flatMap pulse := by
  induction l generalizing acc with
  | nil => simp
  | cons i l ih => rw [List.foldl_cons, ih]; simp [hwBit]

theorem hwWire_fram (o : Opcodes) (tx : Byte) (b : Bus) (hc : b.pins.cs = { dir := .out, latch := false })
    (hs : b.hwx.settings.isSome = true) (hw : b.wiring = .fram) (hb : b.chip.bitn % 8 = 0) :
    (hwWire o tx b).1 = (chipByte o tx b.chip).1 ∧ (hwWire o tx b).2.chip = (chipByte o tx b.chip).2 := by
  have k := hwBits_fram o tx bitOrder (0, b) (selected_of_cs b hc) hw
  rw [clock_eight o tx b.chip hb] at k
  unfold hwWire
  rw [if_pos (by simp [hs, hc, wire])]
  exact k

/-! ### The exchange, both strategies -/

/-- The device is selected and the pins are configured: inside a frame of an initialised block. -/
structure Framed (p : Params) (b : Bus) : Prop where
  configured : pinsConfigured p b = true
  low : b.pins.cs.latch = false

theorem Framed.cs {p : Params} {b : Bus} (h : Framed p b) : b.pins.cs = { dir := .out, latch := false } := by
  have := h.configured
  simp only [pinsConfigured, Bool.and_eq_true, decide_eq_true_eq] at this
  cases hc : b.pins.cs with
  | mk d l =>
    have h1 := this.1
    have h2 := h.low
    rw [hc] at h1 h2
    simp only at h1 h2
    rw [h1, h2]

theorem Framed.swReady {p : Params} {b : Bus} (h : Framed p b) (hm : p.mode = .sw) : SwReady b := by
  have := h.configured
  simp only [pinsConfigured, hm, Bool.and_eq_true, decide_eq_true_eq] at this
  exact ⟨h.cs, this.2.1.1, this.2.1.2, this.2.2⟩

theorem Framed.settings {p : Params} {b : Bus} (h : Framed p b) (hm : p.mode = .hw) :
    b.hwx.settings.isSome = true := by
  have := h.configured
  simp only [pinsConfigured, hm, Bool.and_eq_true] at this
  exact this.2

/-- An exchange with RefFRAM is one byte of R64, in both strategies. -/
theorem xfer_fram (p : Params) (tx rx : Byte) (b b' : Bus) (h : Framed p b) (hw : b.wiring = .fram)
    (hb : b.chip.bitn % 8 = 0) (hx : xfer p tx b = some (rx, b')) :
    rx = (chipByte p.opc tx b.chip).1 ∧ b'.chip = (chipByte p.opc tx b.chip).2 := by
  unfold xfer xferByMode at hx
  cases hm : p.mode with
  | sw =>
    rw [hm] at hx
    simp only [Option.some.injEq, Prod.mk.injEq] at hx
    have k := xferSW_fram p.opc tx b (h.swReady hm) hw hb
    exact ⟨hx.1 ▸ k.1, hx.2 ▸ k.2⟩
  | hw =>
    rw [hm] at hx
    dsimp only at hx
    unfold hwExchange at hx
    split at hx
    · cases hx
    · rename_i rx1 b1 he
      split at he
      · cases he
      · simp only [Option.some.injEq, Prod.mk.injEq] at he hx
        have k := hwWire_fram p.opc tx { b with hwx := hwxDone b.hwx } h.cs
          (by simpa [hwxDone] using h.settings hm) hw hb
        refine ⟨?_, ?_⟩
        · rw [← hx.1, ← he.1]; exact k.1
        · rw [← hx.2, ← he.2]; exact k.2

/-- An exchange on configured pins is the eight pulses of its byte on the wires, in both strategies and whatever is attached
(R187, R188, R193). -/
theorem xfer_seen (p : Params) (tx rx : Byte) (b b' : Bus) (h : pinsConfigured p b = true)
    (hx : xfer p tx b = some (rx, b')) : b'.seen = b.seen ++ bytePulses tx := by
  unfold xfer xferByMode at hx
  cases hm : p.mode with
  | sw =>
    simp only [hm, Option.some.injEq, Prod.mk.injEq] at hx
    simp only [pinsConfigured, hm, Bool.and_eq_true, decide_eq_true_eq] at h
    rw [← hx.2]
    exact swBits_seen p.opc tx bitOrder { b with engine := { shTx := tx, shRx := 0, bitCnt := 7 } } h.2.1.1 h.2.1.2 rfl
  | hw =>
    simp only [pinsConfigured, hm, Bool.and_eq_true, decide_eq_true_eq] at h
    simp only [hm] at hx
    unfold hwExchange at hx
    split at hx
    · cases hx
    · rename_i rx1 b1 he
      split at he
      · cases he
      · simp only [Option.some.injEq, Prod.mk.injEq] at he hx
        rw [← hx.2, ← he.2]
        unfold hwWire
        rw [if_pos (by simp [hwxDone, h.1, h.2, wire])]
        exact hwBits_seen p.opc tx bitOrder (0, { b with hwx := hwxDone b.hwx })

/-- Inside a frame every exchange keeps the frame. -/
theorem Framed.after {p : Params} {tx rx : Byte} {b b' : Bus} (h : Framed p b) (k : XferOut p tx rx b b') :
    Framed p b' := by
  refine ⟨?_, by rw [k.cs]; exact h.low⟩
  have := h.configured
  unfold pinsConfigured at *
  rw [k.cs, k.settings, k.sckDir, k.mosiDir, k.miso]
  exact this

end Sys2Proof.Machine
end

