-- ==== Sys2Proof/Laws/Sequencer.lean ====
section
/-! SUPPORT. The sequencer: what a frame can end in, and when it completes. -/

namespace Sys2Proof.Machine

/-! ### What the exchanges of a frame leave as it is -/

/-- From a state inside a frame to a later one inside the same frame. -/
structure Progress (s s' : State) : Prop where
  params : s'.params = s.params
  addrW : s'.addrW = s.addrW
  init : s'.init = s.init
  busy : s'.busy = s.busy
  op : s'.op = s.op
  lat : s'.lat = s.lat
  resp : s'.resp = s.resp
  respValid : s'.respValid = s.respValid
  inbox : s'.inbox = s.inbox
  frees : s'.frees = s.frees
  wiring : s'.bus.wiring = s.bus.wiring
  chip : s'.bus.chip.params = s.bus.chip.params
  frames : s'.bus.frames = s.bus.frames
  cs : s'.bus.pins.cs = s.bus.pins.cs
  miso : s'.bus.pins.miso = s.bus.pins.miso
  settings : s'.bus.hwx.settings = s.bus.hwx.settings
  sckDir : s'.bus.pins.sck.dir = s.bus.pins.sck.dir
  mosiDir : s'.bus.pins.mosi.dir = s.bus.pins.mosi.dir
  hwLines : s.params.mode = .hw → s'.bus.pins.sck = s.bus.pins.sck ∧ s'.bus.pins.mosi = s.bus.pins.mosi
  wf : Memory.wf s.bus.chip.mem = true → Memory.wf s'.bus.chip.mem = true
  forever : s.bus.hwx.budget = none → s'.bus.hwx.budget = none
  trace : ∃ es, s'.bus.trace = s.bus.trace ++ es
  hwx : s.params.mode = .sw → s'.bus.hwx = s.bus.hwx
  engine : s.params.mode = .hw → s'.bus.engine = s.bus.engine

theorem Progress.refl (s : State) : Progress s s :=
  ⟨rfl, rfl, rfl, rfl, rfl, rfl, rfl, rfl, rfl, rfl, rfl, rfl, rfl, rfl, rfl, rfl, rfl, rfl, fun _ => ⟨rfl, rfl⟩, id, id,
    ⟨[], (List.append_nil _).symm⟩, fun _ => rfl, fun _ => rfl⟩

theorem Progress.trans {a b c : State} (h : Progress a b) (k : Progress b c) : Progress a c :=
  ⟨k.params.trans h.params, k.addrW.trans h.addrW, k.init.trans h.init, k.busy.trans h.busy, k.op.trans h.op,
    k.lat.trans h.lat, k.resp.trans h.resp, k.respValid.trans h.respValid, k.inbox.trans h.inbox,
    k.frees.trans h.frees, k.wiring.trans h.wiring, k.chip.trans h.chip, k.frames.trans h.frames, k.cs.trans h.cs,
    k.miso.trans h.miso, k.settings.trans h.settings, k.sckDir.trans h.sckDir, k.mosiDir.trans h.mosiDir,
    fun m => ⟨(k.hwLines (by rw [h.params]; exact m)).1.trans (h.hwLines m).1,
      (k.hwLines (by rw [h.params]; exact m)).2.trans (h.hwLines m).2⟩,
    fun w => k.wf (h.wf w), fun b => k.forever (h.forever b), by
      obtain ⟨x, hx⟩ := h.trace
      obtain ⟨y, hy⟩ := k.trace
      exact ⟨x ++ y, by rw [hy, hx, List.append_assoc]⟩,
    fun m => (k.hwx (by rw [h.params]; exact m)).trans (h.hwx m),
    fun m => (k.engine (by rw [h.params]; exact m)).trans (h.engine m)⟩

/-- An exchange is progress. -/
theorem progress_beat {s : State} {tx rx : Byte} {b : Bus} (k : XferOut s.params tx rx s.bus b) (ph : Seq)
    (keep : Bool) (w : List Byte) : Progress s (beatDone ph keep rx b { s with wdat := w }) :=
  ⟨rfl, rfl, rfl, rfl, rfl, rfl, rfl, rfl, rfl, rfl, k.wiring, k.params, k.frames, k.cs, k.miso, k.settings, k.sckDir,
    k.mosiDir, fun m => ⟨(k.hw m).1, (k.hw m).2.1⟩, k.wf, fun hb => by
      cases hm : s.params.mode with
      | sw => simp only [beatDone_bus, (k.sw hm).2.2, hb]
      | hw => simp only [beatDone_bus, (k.hw hm).2.2, hwxDone, hb, Option.map_none],
    ⟨_, k.trace⟩, fun m => (k.sw m).2.2, fun m => k.engine m⟩

theorem progress_started (s : State) (tx : Byte) (w : List Byte) (hx : xfer s.params tx s.bus = none) :
    Progress s (startedOnly tx { s with wdat := w }) :=
  ⟨rfl, rfl, rfl, rfl, rfl, rfl, rfl, rfl, rfl, rfl, rfl, rfl, rfl, rfl, rfl, rfl, rfl, rfl, fun _ => ⟨rfl, rfl⟩, id, id,
    ⟨[], (List.append_nil _).symm⟩, fun m => (by
      obtain ⟨rx, b, h⟩ := xfer_sw_some s.params m tx s.bus
      rw [hx] at h; cases h), fun _ => rfl⟩

/-! ### What a frame ends in -/

/-- The two ways the rest of a frame ends in a next state: it is finished, or it waits in a phase of its own. -/
inductive BeatsEnd (beats : List Beat) (s t : State) : Prop where
  | finished (s' : State) (h : Progress s s') (e : t = finishOp s')
  | waiting (s' : State) (ph : Seq) (td : List Beat) (h : Progress s s') (e : t = waitAt ph td s')
      (ok : phasesOk beats = true → ph ≠ .idle ∧ phasesOk td = true)

theorem runBeats_end (beats : List Beat) (s t : State) (h : runBeats beats s = .next t) : BeatsEnd beats s t := by
  induction beats generalizing s with
  | nil =>
    simp only [runBeats, Host.Outcome.next.injEq] at h
    exact .finished s (Progress.refl s) h.symm
  | cons b beats ih =>
    cases b with
    | byte ph tx keep =>
      simp only [runBeats] at h
      split at h
      · rename_i hx
        simp only [Host.Outcome.next.injEq] at h
        exact .waiting (startedOnly tx s) ph _ (progress_started s tx s.wdat hx) h.symm fun ok => by
          refine ⟨?_, ok⟩
          simp only [phasesOk, List.all_cons, Bool.and_eq_true, decide_eq_true_eq] at ok
          exact ok.1
      · rename_i rx b hx
        have p := progress_beat (xfer_out _ _ _ _ _ hx).1 ph keep s.wdat
        cases ih _ h with
        | finished s' q e => exact .finished s' (p.trans q) e
        | waiting s' ph' td q e ok =>
          exact .waiting s' ph' td (p.trans q) e fun k => ok (by
            simp only [phasesOk, List.all_cons, Bool.and_eq_true] at k; exact k.2)
    | stream i =>
      simp only [runBeats] at h
      split at h
      · simp only [Host.Outcome.next.injEq] at h
        exact .waiting s (.data i) _ (Progress.refl s) h.symm fun ok => ⟨by simp, ok⟩
      · rename_i tx more _
        split at h
        · rename_i hx
          simp only [Host.Outcome.next.injEq] at h
          exact .waiting _ (.data i) _ (progress_started s tx more hx) h.symm fun ok => by
            refine ⟨by simp, ?_⟩
            simp only [phasesOk, List.all_cons, Bool.and_eq_true] at ok ⊢
            exact ⟨by simp, ok.2⟩
        · rename_i rx b hx
          have p := progress_beat (s := s) (xfer_out _ _ _ _ _ hx).1 (.data i) false more
          cases ih _ h with
          | finished s' q e => exact .finished s' (p.trans q) e
          | waiting s' ph' td q e ok =>
            exact .waiting s' ph' td (p.trans q) e fun k => ok (by
              simp only [phasesOk, List.all_cons, Bool.and_eq_true] at k; exact k.2)
    | malformed w => simp only [runBeats, raiseMalformedWidth] at h; cases h

/-! ### Completion -/

/-- The bytes a list of exchanges sends, given what the stream offers; `none` where the stream is too short or the
address field is undefined. -/
def txsOf : List Beat → List Byte → Option (List Byte)
  | [], _ => some []
  | .byte _ tx _ :: rest, w => (txsOf rest w).map (tx :: ·)
  | .stream _ :: rest, x :: w => (txsOf rest w).map (x :: ·)
  | .stream _ :: _, [] => none
  | .malformed _ :: _, _ => none

/-- What the stream still offers after them. -/
def streamAfter : List Beat → List Byte → List Byte
  | [], w => w
  | .byte _ _ _ :: rest, w => streamAfter rest w
  | .stream _ :: rest, w => streamAfter rest w.tail
  | .malformed _ :: rest, w => streamAfter rest w

/-- The answers a list of exchanges keeps. -/
def keptOf : List Beat → List Byte → List Byte
  | .byte _ _ keep :: rest, rx :: rxs => if keep then rx :: keptOf rest rxs else keptOf rest rxs
  | .stream _ :: rest, _ :: rxs => keptOf rest rxs
  | _, _ => []

/-- A peripheral that lasts for `n + 1` exchanges completes this one and lasts for `n`. -/
theorem engineLasts_succ {n : Nat} {s : State} (h : engineLasts (n + 1) s = true) (tx : Byte) :
    ∃ rx b, xfer s.params tx s.bus = some (rx, b) ∧
      ∀ s', s'.params = s.params → s'.bus = b → engineLasts n s' = true := by
  cases hm : s.params.mode with
  | sw =>
    obtain ⟨rx, b, hx⟩ := xfer_sw_some s.params hm tx s.bus
    refine ⟨rx, b, hx, fun s' hp _ => ?_⟩
    unfold engineLasts; rw [hp, hm]
  | hw =>
    have hb : s.bus.hwx.budget ≠ some 0 := by
      intro hb
      simp [engineLasts, hm, hb] at h
    cases hx : xfer s.params tx s.bus with
    | none => exact absurd ((xfer_hw_none_iff s.params hm tx s.bus).1 hx) hb
    | some r =>
      obtain ⟨rx, b⟩ := r
      refine ⟨rx, b, rfl, fun s' hp hb' => ?_⟩
      have k := ((xfer_out _ _ _ _ _ hx).1.hw hm).2.2
      unfold engineLasts at h ⊢
      rw [hp, hm, hb', k, hwxDone]
      rw [hm] at h
      cases hq : s.bus.hwx.budget with
      | none => rfl
      | some q =>
        rw [hq] at h
        simp only [decide_eq_true_eq, Option.map_some] at h ⊢
        omega

/-- The SCK latch after exchanges in software mode: high once a byte was sent (R190). -/
def sckAfter (f : List (Byte × Byte)) (old : Bool) : Bool := if f = [] then old else true

/-- The MOSI latch after exchanges in software mode: bit 0 of the last byte sent (R41, R190). -/
def mosiAfter (f : List (Byte × Byte)) (old : Bool) : Bool :=
  match f.getLast? with
  | some x => x.1.getLsbD 0
  | none => old

theorem sckAfter_cons (x : Byte × Byte) (f : List (Byte × Byte)) (old : Bool) :
    sckAfter (x :: f) old = sckAfter f true := by
  cases f <;> simp [sckAfter]

theorem mosiAfter_cons (x : Byte × Byte) (f : List (Byte × Byte)) (old : Bool) :
    mosiAfter (x :: f) old = mosiAfter f (x.1.getLsbD 0) := by
  cases f with
  | nil => rfl
  | cons y ys => simp only [mosiAfter, List.getLast?_cons, Option.getD_some]

/-- The end of a list of exchanges that completes: the pairs `f`, and where they are found. -/
structure SentOut (beats : List Beat) (s s' : State) (f : List (Byte × Byte)) : Prop where
  progress : Progress s s'
  trace : s'.bus.trace = s.bus.trace ++ f.flatMap (exchangeEvents s.params.mode)
  frame : s'.bus.frame = s.bus.frame ++ f
  got : s'.got = s.got ++ keptOf beats (f.map Prod.snd)
  wdat : s'.wdat = streamAfter beats s.wdat
  lines : s.params.mode = .sw →
    s'.bus.pins.sck.latch = sckAfter f s.bus.pins.sck.latch ∧ s'.bus.pins.mosi.latch = mosiAfter f s.bus.pins.mosi.latch

theorem runBeats_sent (beats : List Beat) (s : State) (txs : List Byte) (h : txsOf beats s.wdat = some txs)
    (hl : engineLasts beats.length s = true) :
    ∃ f s', runBeats beats s = .next (finishOp s') ∧ f.map Prod.fst = txs ∧ SentOut beats s s' f := by
  induction beats generalizing s txs with
  | nil =>
    simp only [txsOf, Option.some.injEq] at h
    exact ⟨[], s, rfl, by simp [← h], ⟨Progress.refl s, by simp, by simp, by simp [keptOf], rfl,
      fun _ => ⟨rfl, rfl⟩⟩⟩
  | cons b beats ih =>
    cases b with
    | malformed w => simp [txsOf] at h
    | byte ph tx keep =>
      simp only [txsOf, Option.map_eq_some_iff] at h
      obtain ⟨txs', h', rfl⟩ := h
      obtain ⟨rx, b, hx, hn⟩ := engineLasts_succ hl tx
      obtain ⟨k, kf⟩ := xfer_out _ _ _ _ _ hx
      obtain ⟨f, s', hr, hf, o⟩ := ih (beatDone ph keep rx b s) txs' h' (hn _ rfl rfl)
      refine ⟨(tx, rx) :: f, s', ?_, by simp [hf], ⟨(progress_beat k ph keep s.wdat).trans o.progress, ?_, ?_, ?_, ?_, ?_⟩⟩
      · simp only [runBeats, hx, hr]
      · rw [o.trace]; simp [k.trace]
      · rw [o.frame]; simp [kf]
      · rw [o.got]; cases keep <;> simp [keptOf]
      · rw [o.wdat]; rfl
      · intro hm
        have l := o.lines hm
        obtain ⟨g1, g2, _⟩ := k.sw hm
        simp only [beatDone_bus, g1, g2] at l
        rw [sckAfter_cons, mosiAfter_cons]
        exact l
    | stream i =>
      cases hw : s.wdat with
      | nil => rw [hw] at h; simp [txsOf] at h
      | cons tx more =>
        rw [hw] at h
        simp only [txsOf, Option.map_eq_some_iff] at h
        obtain ⟨txs', h', rfl⟩ := h
        obtain ⟨rx, b, hx, hn⟩ := engineLasts_succ hl tx
        obtain ⟨k, kf⟩ := xfer_out _ _ _ _ _ hx
        obtain ⟨f, s', hr, hf, o⟩ := ih (beatDone (.data i) false rx b { s with wdat := more }) txs' h' (hn _ rfl rfl)
        refine ⟨(tx, rx) :: f, s', ?_, by simp [hf],
          ⟨(progress_beat k (.data i) false more).trans o.progress, ?_, ?_, ?_, ?_, ?_⟩⟩
        · simp only [runBeats, hw, hx, hr]
        · rw [o.trace]; simp [k.trace]
        · rw [o.frame]; simp [kf]
        · rw [o.got]; simp [keptOf]
        · rw [o.wdat, hw]; rfl
        · intro hm
          have l := o.lines hm
          obtain ⟨g1, g2, _⟩ := k.sw hm
          simp only [beatDone_bus, g1, g2] at l
          rw [sckAfter_cons, mosiAfter_cons]
          exact l

/-! ### The end of an operation -/

theorem respondOp_rest (s : State) :
    (respondOp s).params = s.params ∧ (respondOp s).addrW = s.addrW ∧ (respondOp s).inbox = s.inbox ∧
      (respondOp s).wdat = s.wdat ∧ (respondOp s).bus = s.bus := by
  unfold respondOp
  cases s.op with
  | none => exact ⟨rfl, rfl, rfl, rfl, rfl⟩
  | some k => cases k <;> exact ⟨rfl, rfl, rfl, rfl, rfl⟩

theorem respondOp_init (s : State) (h : s.op ≠ some .begin) : (respondOp s).init = s.init := by
  unfold respondOp
  cases hk : s.op with
  | none => rfl
  | some k => cases k <;> first | rfl | exact absurd hk h

/-- Everything the end of an operation does, but for the response. -/
structure FinishOut (s t : State) : Prop where
  rest : AtRest t
  valid : t.respValid = true
  params : t.params = s.params
  addrW : t.addrW = s.addrW
  inbox : t.inbox = s.inbox
  wdat : t.wdat = s.wdat
  bus : t.bus = csDeassert s.params.opc s.bus
  resp : t.resp = (respondOp { s with seq := .fin, bus := csDeassert s.params.opc s.bus }).resp
  init : t.init = (respondOp { s with seq := .fin, bus := csDeassert s.params.opc s.bus }).init

theorem finishOp_out (s : State) : FinishOut s (finishOp s) := by
  obtain ⟨h1, h2, h3, h4, h5⟩ := respondOp_rest { s with seq := .fin, bus := csDeassert s.params.opc s.bus }
  exact ⟨⟨rfl, rfl, rfl, rfl, rfl⟩, rfl, h1, h2, h3, h4, h5, rfl, rfl⟩

theorem mosiAfter_some (f : List (Byte × Byte)) (old : Bool) (h : f ≠ []) :
    some (mosiAfter f old) = f.getLast?.map (fun x => x.1.getLsbD 0) := by
  unfold mosiAfter
  cases hf : f.getLast? with
  | none => exact absurd (List.getLast?_eq_none_iff.1 hf) h
  | some x => rfl

/-- A whole frame that completes: the pairs sent and received, on both traces, between one pair of CS edges, and the
operation's end. `s'` is the state after the last exchange. -/
theorem runFrame_sent (beats : List Beat) (s : State) (txs : List Byte) (h : txsOf beats s.wdat = some txs)
    (hl : engineLasts beats.length s = true) (hg : s.got = []) :
    ∃ f s', runFrame beats s = .next (finishOp s') ∧ f.map Prod.fst = txs ∧
      Progress { s with bus := csAssert s.params.opc s.bus } s' ∧ s'.got = keptOf beats (f.map Prod.snd) ∧
      s'.wdat = streamAfter beats s.wdat ∧
      (finishOp s').bus.frames = s.bus.frames ++ [f] ∧
      (finishOp s').bus.trace = s.bus.trace ++ frameEvents s.params.mode f ∧
      (s.params.mode = .sw → (finishOp s').bus.pins.sck.latch = sckAfter f s.bus.pins.sck.latch ∧
        (finishOp s').bus.pins.mosi.latch = mosiAfter f s.bus.pins.mosi.latch) := by
  obtain ⟨a, af, afs⟩ := csAssert_out s.params.opc s.bus
  obtain ⟨f, s', hr, hf, o⟩ := runBeats_sent beats { s with bus := csAssert s.params.opc s.bus } txs h (by
    unfold engineLasts at hl ⊢
    dsimp only
    rw [a.hwx]
    exact hl)
  have ob := (finishOp_out s').bus
  obtain ⟨d, df, dfs⟩ := csDeassert_out s'.params.opc s'.bus
  refine ⟨f, s', hr, hf, o.progress, ?_, o.wdat, ?_, ?_, ?_⟩
  · rw [o.got]; simp [hg]
  · rw [ob, dfs, o.progress.frames, o.frame]; simp [af, afs]
  · rw [ob, d.trace, o.trace]; simp [a.trace, frameEvents]
  · intro hm
    rw [ob, d.pins]
    have := o.lines hm
    simp only [a.pins] at this
    exact this

/-- The response a completed frame delivers. -/
def responseOf (k : OpKind) (s : State) (kept : List Byte) : Response :=
  (respond k { s with got := kept }).resp

/-- A pin-touching operation other than BEGIN completes: one frame with the bytes of its format, the rest of the block
as it was, and the response its kind delivers from the answers it keeps. -/
theorem runPinOp_completed (k : OpKind) (l : OpLatches) (frame : State → List Beat) (s : State) (txs : List Byte)
    (ha : Admitted s) (hk : k ≠ .begin) (h : txsOf (frame (accept (some k) l s)) s.wdat = some txs) (hne : txs ≠ [])
    (hl : engineLasts (frame (accept (some k) l s)).length s = true) :
    ∃ f t, runPinOp k l frame s = .next t ∧ f.map Prod.fst = txs ∧ Completed s t f ∧
      t.wdat = streamAfter (frame (accept (some k) l s)) s.wdat ∧
      t.resp = responseOf k (accept (some k) l s) (keptOf (frame (accept (some k) l s)) (f.map Prod.snd)) ∧
      (s.bus.hwx.budget = none → t.bus.hwx.budget = none) := by
  obtain ⟨f, s', hr, hf, p, hgot, hw, hfr, htr, hln⟩ :=
    runFrame_sent (frame (accept (some k) l s)) (accept (some k) l s) txs h hl rfl
  obtain ⟨a, -, -⟩ := csAssert_out s.params.opc s.bus
  have q := finishOp_out s'
  obtain ⟨d, -, -⟩ := csDeassert_out s'.params.opc s'.bus
  have hop : s'.op = some k := p.op
  have hfne : f ≠ [] := by rintro rfl; exact hne (by simpa using hf.symm)
  have hadm : runPinOp k l frame s = runFrame (frame (accept (some k) l s)) (accept (some k) l s) := by
    unfold runPinOp atAcceptance refuseOr
    rw [ha.1]
    rcases ha.2 with hi | hc
    · simp [hi]
    · simp only [Bool.false_eq_true, if_false, hc]
      split <;> rfl
  refine ⟨f, finishOp s', hadm.trans hr, hf, ⟨q.rest, q.valid, ⟨?_, ?_, ?_, ?_⟩, ⟨?_, ?_, ?_, ?_, ?_, ?_, ?_⟩, ⟨?_, ?_⟩,
    hfr, htr⟩, ?_, ?_, ?_⟩
  · exact q.params.trans p.params
  · exact q.inbox.trans p.inbox
  · rw [q.bus, d.wiring, p.wiring]; exact a.wiring
  · rw [q.bus, d.params, p.chip]; exact a.params
  · exact q.addrW.trans p.addrW
  · rw [q.init, respondOp_init _ (by simpa [hop] using hk)]; exact p.init
  · rw [q.bus, d.hwx, p.settings]; exact congrArg Hwx.settings a.hwx
  · rw [q.bus, d.pins]; dsimp only; rw [p.cs]; dsimp only; rw [accept_bus, accept_params, a.pins]
  · rw [q.bus, d.pins]; dsimp only; rw [p.sckDir]; dsimp only; rw [accept_bus, accept_params, a.pins]
  · rw [q.bus, d.pins]; dsimp only; rw [p.mosiDir]; dsimp only; rw [accept_bus, accept_params, a.pins]
  · rw [q.bus, d.pins]; dsimp only; rw [p.miso]; dsimp only; rw [accept_bus, accept_params, a.pins]
  · rw [q.bus, d.pins]
  · cases hm : s.params.mode with
    | sw =>
      obtain ⟨h1, h2⟩ := hln hm
      refine ⟨?_, ?_, ?_⟩
      · rw [h1, sckAfter, if_neg hfne]
      · rw [h2, mosiAfter_some f _ hfne]
      · rw [q.bus, d.hwx, p.hwx hm]; exact a.hwx
    | hw =>
      obtain ⟨h1, h2⟩ := p.hwLines hm
      refine ⟨?_, ?_, ?_⟩
      · rw [q.bus, d.pins]; dsimp only; rw [h1]; dsimp only; rw [accept_bus, accept_params, a.pins]
      · rw [q.bus, d.pins]; dsimp only; rw [h2]; dsimp only; rw [accept_bus, accept_params, a.pins]
      · rw [q.bus, d.engine, p.engine hm]; exact a.engine
  · exact q.wdat.trans hw
  · rw [q.resp]
    unfold respondOp responseOf
    simp only [hop]
    cases k <;> simp [respond, readResult, result, p.addrW, p.resp, p.frees, p.lat, hgot]
  · intro hb
    rw [q.bus, d.hwx]
    exact p.forever ((congrArg Hwx.budget a.hwx).trans hb)

end Sys2Proof.Machine
end

