-- ==== Sys2Proof/Laws/Frames.lean ====
section
/-! SUPPORT. What each frame format sends, keeps and takes from the stream (30_encoding.md R81 to R88). -/

namespace Sys2Proof.Machine

/-! ### The address field -/

theorem txsOf_addrPhases (xs : List Byte) (rest : List Beat) (w : List Byte) :
    txsOf (addrPhases xs ++ rest) w = (txsOf rest w).map (xs ++ ·) := by
  induction xs with
  | nil => simp [addrPhases]
  | cons x xs ih =>
    simp only [addrPhases, List.cons_append, txsOf, ih, Option.map_map]
    rfl

theorem streamAfter_addrPhases (xs : List Byte) (rest : List Beat) (w : List Byte) :
    streamAfter (addrPhases xs ++ rest) w = streamAfter rest w := by
  induction xs with
  | nil => rfl
  | cons x xs ih => exact ih

theorem keptOf_addrPhases (xs : List Byte) (rest : List Beat) (rxs : List Byte) :
    keptOf (addrPhases xs ++ rest) rxs = keptOf rest (rxs.drop xs.length) := by
  induction xs generalizing rxs with
  | nil => rfl
  | cons x xs ih =>
    cases rxs with
    | nil => cases rest <;> simp [addrPhases, keptOf]
    | cons r rxs => simpa [addrPhases, keptOf] using ih rxs

@[simp] theorem addrPhases_length (xs : List Byte) : (addrPhases xs).length = xs.length := by
  induction xs with
  | nil => rfl
  | cons x xs ih => simp [addrPhases, ih]

@[simp] theorem addrBytes_length (w : AddrWidth) (a : Addr) : (addrBytes w a).length = w.bytes := by
  cases w <;> rfl

theorem addrBeats_of_width {s : State} {w : AddrWidth} (h : widthOf s.addrW = some w) :
    addrBeats s = addrPhases (addrBytes w s.lat.addr) := by
  simp [addrBeats, h]

theorem addrBeats_of_strict {s : State} (h : widthOf s.addrW = none) (hc : s.params.conduct = .strict) :
    addrBeats s = [.malformed s.addrW] := by
  simp [addrBeats, h, hc]

theorem addrBeats_of_hardware {s : State} (h : widthOf s.addrW = none) (hc : s.params.conduct = .hardware) :
    addrBeats s = addrPhases (Config.malformedAddress s.frees s.addrW s.lat.addr) := by
  simp [addrBeats, h, hc]

/-! ### The data bytes of WRITE -/

theorem txsOf_streams (is : List Nat) (w : List Byte) (h : is.length ≤ w.length) :
    txsOf (is.map Beat.stream) w = some (w.take is.length) := by
  induction is generalizing w with
  | nil => simp [txsOf]
  | cons i is ih =>
    cases w with
    | nil => simp at h
    | cons x w => simp only [List.map_cons, txsOf, ih w (by simpa using h)]; rfl

theorem streamAfter_streams (is : List Nat) (w : List Byte) :
    streamAfter (is.map Beat.stream) w = w.drop is.length := by
  induction is generalizing w with
  | nil => rfl
  | cons i is ih =>
    cases w with
    | nil => simpa [streamAfter] using ih []
    | cons x w => simpa [streamAfter] using ih w

/-! ### Whole frames -/

theorem txsOf_frameFAW8 {s : State} {w : AddrWidth} (h : widthOf s.addrW = some w) (ws : List Byte) :
    txsOf (frameFAW8 s) ws = some (s.params.opc.write :: addrBytes w s.lat.addr ++ [s.lat.data]) := by
  simp only [frameFAW8, opcBeat, addrBeats_of_width h, List.cons_append, txsOf, txsOf_addrPhases, Option.map_some]

theorem txsOf_frameFAR {s : State} {w : AddrWidth} (h : widthOf s.addrW = some w) (ws : List Byte) :
    txsOf (frameFAR s) ws = some (s.params.opc.read :: addrBytes w s.lat.addr ++ [s.params.dummy]) := by
  simp only [frameFAR, opcBeat, dummyBeat, addrBeats_of_width h, List.cons_append, txsOf, txsOf_addrPhases,
    Option.map_some]

theorem txsOf_frameFAW {s : State} {w : AddrWidth} (h : widthOf s.addrW = some w) (ws : List Byte)
    (hw : s.lat.count.toNat ≤ ws.length) :
    txsOf (frameFAW s) ws =
      some (s.params.opc.write :: addrBytes w s.lat.addr ++ ws.take s.lat.count.toNat) := by
  have k := txsOf_streams (List.range s.lat.count.toNat) ws (by simpa using hw)
  simp only [frameFAW, opcBeat, addrBeats_of_width h, List.cons_append, txsOf, txsOf_addrPhases, k, Option.map_some,
    List.length_range]

theorem streamAfter_frameFAW {s : State} {w : AddrWidth} (h : widthOf s.addrW = some w) (ws : List Byte) :
    streamAfter (frameFAW s) ws = ws.drop s.lat.count.toNat := by
  have k := streamAfter_streams (List.range s.lat.count.toNat) ws
  simp only [frameFAW, opcBeat, addrBeats_of_width h, List.cons_append, streamAfter, streamAfter_addrPhases, k,
    List.length_range]

end Sys2Proof.Machine
end

