-- ==== Sys2Proof/Laws/Ends.lean ====
section
/-! SUPPORT. What an operation's next state can be: the ends of `atAcceptance`, of a pin-touching operation, of BEGIN and of a
presented frame. -/

namespace Sys2Proof.Machine

/-- An admitted operation's next state: the block was busy and accepted nothing, or it was idle and ran. -/
theorem atAcceptance_end {pinOp : Option OpKind} {s t : State} {run : State → Outcome} (h : atAcceptance pinOp s run = .next t) :
    (s.busy = true ∧ t = s) ∨ (s.busy = false ∧ run s = .next t) := by
  unfold atAcceptance refuseOr at h
  cases hb : s.busy with
  | true =>
    rw [hb] at h
    simp only [if_true] at h
    split at h
    · cases h
    · exact .inl ⟨rfl, (Host.Outcome.next.inj h).symm⟩
  | false =>
    rw [hb] at h
    simp only [Bool.false_eq_true, if_false] at h
    refine .inr ⟨rfl, ?_⟩
    split at h
    · exact h
    · split at h
      · exact h
      · split at h
        · cases h
        · exact h

/-- The state in which the frame of an accepted operation starts. -/
def framed (k : OpKind) (l : OpLatches) (s : State) : State :=
  { accept (some k) l s with bus := csAssert s.params.opc s.bus }

theorem runPinOp_end {k : OpKind} {l : OpLatches} {frame : State → List Beat} {s t : State}
    (h : runPinOp k l frame s = .next t) :
    (s.busy = true ∧ t = s) ∨
      (s.busy = false ∧ BeatsEnd (frame (accept (some k) l s)) (framed k l s) t) := by
  rcases atAcceptance_end h with e | ⟨hb, e⟩
  · exact .inl e
  · exact .inr ⟨hb, runBeats_end _ _ _ e⟩

/-- BEGIN's pin configuration and the start of its frame. -/
def beginFramed (s : State) : State :=
  { accept (some .begin) s.lat s with bus := csAssert s.params.opc (configurePins s.params s.bus) }

/-- BEGIN on an idle block runs its identity frame. -/
theorem execBegin_idle (s : State) (hb : s.busy = false) :
    exec .begin s = runBeats (frameFID s.params) (beginFramed s) := by
  simp only [exec, execBegin, atAcceptance, hb]; rfl

theorem execBegin_end {s t : State} (h : execBegin s = .next t) :
    (s.busy = true ∧ t = s) ∨ (s.busy = false ∧ BeatsEnd (frameFID s.params) (beginFramed s) t) := by
  rcases atAcceptance_end h with e | ⟨hb, e⟩
  · exact .inl e
  · exact .inr ⟨hb, runBeats_end _ _ _ e⟩

/-- The rows of the wire encoding on an idle block: their frame at the device. -/
theorem exec_wire {i : Instr} {s : State} (hi : isWire i = true) (hb : s.busy = false) :
    exec i s = .next { s with bus := deviceFrame s.params.opc (frameBytes s.params.opc s.params.dummy i) s.bus } := by
  cases i <;> simp [isWire] at hi <;>
    simp only [exec, execWireWren, execWireWrdi, execWireRdsr, execWireWrsr, execWireRead, execWireWrite, execWireRdid,
      presentFrame, hb, bytesOf] <;> rfl

theorem deviceByte_same (o : Opcodes) (tx : Byte) (b : Bus) : SameButDevice b (deviceByte o tx b).2 := by
  unfold deviceByte
  split
  · exact foldl_same _ (hwBit_same o tx) bitOrder (0, b)
  · exact ⟨rfl, rfl, rfl, rfl, rfl, rfl, rfl, rfl, id⟩
  · exact ⟨rfl, rfl, rfl, rfl, rfl, rfl, rfl, by simp, fun h => by simpa using h⟩

theorem deviceBytes_same (o : Opcodes) (txs : List Byte) (b : Bus) :
    (deviceBytes o txs b).1.map Prod.fst = txs ∧ SameButDevice b (deviceBytes o txs b).2 := by
  induction txs generalizing b with
  | nil => exact ⟨rfl, SameButDevice.refl b⟩
  | cons x xs ih =>
    obtain ⟨h1, h2⟩ := ih (deviceByte o x b).2
    exact ⟨by simp [deviceBytes, h1], (deviceByte_same o x b).trans h2⟩

/-- A byte exchanged with the device alone is its eight pulses on the wires, whatever is attached. -/
theorem deviceByte_seen (o : Opcodes) (tx : Byte) (b : Bus) : (deviceByte o tx b).2.seen = b.seen ++ bytePulses tx := by
  unfold deviceByte
  split
  · exact hwBits_seen o tx bitOrder (0, b)
  · rfl
  · rfl

theorem deviceBytes_seen (o : Opcodes) (txs : List Byte) (b : Bus) :
    (deviceBytes o txs b).2.seen = b.seen ++ txs.flatMap bytePulses := by
  induction txs generalizing b with
  | nil => simp [deviceBytes]
  | cons x xs ih => simp only [deviceBytes, ih, deviceByte_seen]; simp

/-- Everything a presented frame leaves as it is, and what it adds to the history of the wires. -/
structure DeviceFrameOut (txs : List Byte) (b b' : Bus) : Prop where
  pins : b'.pins = b.pins
  engine : b'.engine = b.engine
  hwx : b'.hwx = b.hwx
  wiring : b'.wiring = b.wiring
  trace : b'.trace = b.trace
  params : b'.chip.params = b.chip.params
  frames : ∃ f, b'.frames = b.frames ++ [f] ∧ f.map Prod.fst = txs
  seen : b'.seen = b.seen ++ frameSeen txs
  wf : Memory.wf b.chip.mem = true → Memory.wf b'.chip.mem = true

theorem deviceFrame_out (o : Opcodes) (txs : List Byte) (b : Bus) : DeviceFrameOut txs b (deviceFrame o txs b) := by
  obtain ⟨h1, h2⟩ := deviceBytes_same o txs (busFall (see [.cs false] b))
  have h3 := deviceBytes_seen o txs (busFall (see [.cs false] b))
  unfold deviceFrame
  dsimp only
  generalize deviceBytes o txs (busFall (see [.cs false] b)) = q at *
  refine ⟨?_, ?_, ?_, ?_, ?_, ?_, ⟨q.1, ?_, h1⟩, ?_, fun hw => busRaise_wf _ _ (h2.wf (busFall_wf _ hw))⟩ <;>
    simp [h2.pins, h2.engine, h2.hwx, h2.wiring, h2.params, h2.trace, h2.frames, h3, frameSeen]

/-! ### What exec can do -/

/-- The opcode of an operation's frame (R96). -/
def opcodeOf (o : Opcodes) : OpKind → Byte
  | .begin => o.rdid
  | .writeEnableT => o.wren
  | .writeEnableF => o.wrdi
  | .write8 => o.write
  | .write => o.write
  | .read8 => o.read
  | .getDeviceId => o.rdid
  | .getStatus => o.rdsr
  | .setStatus => o.wrsr

theorem phasesOk_append (a b : List Beat) : phasesOk (a ++ b) = (phasesOk a && phasesOk b) := by simp [phasesOk]

theorem phasesOk_addrPhases (xs : List Byte) : phasesOk (addrPhases xs) = true := by
  induction xs with
  | nil => rfl
  | cons x xs ih => simp only [phasesOk, addrPhases, List.all_cons] at *; rw [ih]; rfl

theorem phasesOk_addrBeats (s : State) : phasesOk (addrBeats s) = true := by
  unfold addrBeats; split
  · exact phasesOk_addrPhases _
  · split
    · rfl
    · exact phasesOk_addrPhases _

/-- Every next state of `exec`: a busy block accepted nothing, or a frame was presented over one of its own; GETADDRLEN
and SETADDRLEN; BEGIN's frame or another operation's, finished or waiting; a frame at the device. -/
inductive ExecEnd (i : Instr) (s t : State) : Prop where
  | same (hb : s.busy = true) (e : t = s)
  | disturbed (hb : s.busy = true) (hi : isWire i = true) (vs : List Bool)
      (e : t = { s with bus := busDisturb vs s.bus })
  | get (hb : s.busy = false) (hi : i = .getAddrLen)
      (e : t = complete { accept none s.lat s with resp := { anyResponse s.frees with data := s.addrW } })
  | set (hb : s.busy = false) (n : Byte) (hi : i = .setAddrLen n)
      (e : t = complete { accept none { s.lat with data := n } s with addrW := n })
  | begin (hb : s.busy = false) (hi : i = .begin) (e : BeatsEnd (frameFID s.params) (beginFramed s) t)
  | pin (hb : s.busy = false) (k : OpKind) (l : OpLatches) (frame : State → List Beat) (hk : k ≠ .begin)
      (hi : pinOpOf i = some k) (hp : ∀ s', phasesOk (frame s') = true)
      (hh : ∀ s', s'.params = s.params → s'.lat = l → ∃ rest, frame s' = opcBeat (opcodeOf s.params.opc k) :: rest)
      (r : runPinOp k l frame s = .next t) (e : BeatsEnd (frame (accept (some k) l s)) (framed k l s) t)
  | wire (hb : s.busy = false) (hi : isWire i = true)
      (e : t = { s with bus := deviceFrame s.params.opc (frameBytes s.params.opc s.params.dummy i) s.bus })

theorem exec_end {i : Instr} {s t : State} (h : exec i s = .next t) : ExecEnd i s t := by
  by_cases hw : isWire i = true
  · cases hb : s.busy with
    | false => rw [exec_wire hw hb] at h; exact .wire hb hw (Host.Outcome.next.inj h).symm
    | true =>
      have key : ∀ bs, presentFrame bs s = .next t → t = { s with bus := busDisturb (frameBits bs) s.bus } := by
        intro bs h
        unfold presentFrame refuseOr at h
        rw [if_pos hb] at h
        split at h
        · cases h
        · exact (Host.Outcome.next.inj h).symm
      cases i <;> simp [isWire] at hw <;> exact .disturbed hb rfl _ (key _ h)
  · cases i <;> simp [isWire] at hw
    case begin =>
      rcases execBegin_end h with ⟨a, b⟩ | ⟨a, b⟩
      · exact .same a b
      · exact .begin a rfl b
    case getAddrLen =>
      have h : execGetAddrLen s = .next t := h
      rcases atAcceptance_end h with ⟨a, b⟩ | ⟨a, b⟩
      · exact .same a b
      · exact .get a rfl (Host.Outcome.next.inj b).symm
    case setAddrLen n =>
      have h : execSetAddrLen n s = .next t := h
      rcases atAcceptance_end h with ⟨a, b⟩ | ⟨a, b⟩
      · exact .same a b
      · exact .set a n rfl (Host.Outcome.next.inj b).symm
    case getDeviceId =>
      have h : execGetDeviceId s = .next t := h
      rcases runPinOp_end h with ⟨a, b⟩ | ⟨a, b⟩
      · exact .same a b
      · exact .pin a _ _ _ (by simp) rfl (fun s => rfl) (fun s' e1 e2 => ⟨_, by rw [← e1]; rfl⟩) h b
    case getStatus =>
      have h : execGetStatus s = .next t := h
      rcases runPinOp_end h with ⟨a, b⟩ | ⟨a, b⟩
      · exact .same a b
      · exact .pin a _ _ _ (by simp) rfl (fun s => rfl) (fun s' e1 e2 => ⟨_, by rw [← e1]; rfl⟩) h b
    case setStatus v =>
      have h : execSetStatus v s = .next t := h
      rcases runPinOp_end h with ⟨a, b⟩ | ⟨a, b⟩
      · exact .same a b
      · exact .pin a _ _ _ (by simp) rfl (fun s => rfl) (fun s' e1 e2 => ⟨_, by rw [← e1]; rfl⟩) h b
    all_goals
      rcases runPinOp_end h with ⟨a, b⟩ | ⟨a, b⟩
      · exact .same a b
      · refine .pin a _ _ _ (by simp) rfl (fun s => ?_) (fun s' e1 e2 => ?_) h b
        · first
          | rfl
          | (simp only [frameFAW8, frameFAR, frameFAW, List.cons_append]
             rw [← List.singleton_append, phasesOk_append, phasesOk_append, phasesOk_addrBeats]
             simp [phasesOk, opcBeat, dummyBeat])
        · rw [← e1]
          first
          | exact ⟨_, rfl⟩
          | exact ⟨_, by simp [frameEnable, frameF0, enableOpcode, opcodeOf, e2]; rfl⟩

/-- An admitted pin-touching operation runs its frame. -/
theorem runPinOp_admitted (k : OpKind) (l : OpLatches) (frame : State → List Beat) (s : State) (ha : Admitted s) :
    runPinOp k l frame s = runBeats (frame (accept (some k) l s)) (framed k l s) := by
  unfold runPinOp atAcceptance refuseOr
  rw [ha.1]
  rcases ha.2 with hi | hcd
  · simp only [Bool.false_eq_true, if_false, if_pos hi]; rfl
  · simp only [Bool.false_eq_true, if_false, hcd]
    split <;> rfl

/-- A host operation with a frame is one pin-touching operation whose frame sends the bytes `opBytes` gives. -/
theorem exec_hostFrame (i : Instr) (s : State) (txs : List Byte) (h : opBytes s i = some txs)
    (hst : streamFull s i = true) :
    ∃ k l frame, exec i s = runPinOp k l frame s ∧ k ≠ .begin ∧ txsOf (frame (accept (some k) l s)) s.wdat = some txs ∧
      (frame (accept (some k) l s)).length = txs.length ∧ txs ≠ [] ∧ phasesOk (frame (accept (some k) l s)) = true := by
  cases i <;> simp only [opBytes, reduceCtorEq] at h
  case writeEnableT =>
    injection h with h; subst h
    exact ⟨_, _, _, rfl, by simp, rfl, rfl, by simp, rfl⟩
  case writeEnableF =>
    injection h with h; subst h
    exact ⟨_, _, _, rfl, by simp, rfl, rfl, by simp, rfl⟩
  case getDeviceId =>
    injection h with h; subst h
    exact ⟨.getDeviceId, s.lat, (fun s1 => frameFID s1.params), rfl, by simp, rfl, rfl, by simp, rfl⟩
  case getStatus =>
    injection h with h; subst h
    exact ⟨.getStatus, s.lat, (fun s1 => frameF1R s1.params s1.params.opc.rdsr), rfl, by simp, rfl, rfl, by simp, rfl⟩
  case setStatus v =>
    injection h with h; subst h
    exact ⟨.setStatus, { s.lat with data := v }, fun s1 => frameF1W s1.params.opc.wrsr s1.lat.data, rfl,
      by simp, rfl, rfl, by simp, rfl⟩
  case write8 x v =>
    simp only [Option.map_eq_some_iff] at h
    obtain ⟨w, hw', rfl⟩ := h
    have hb := addrBeats_of_width (s := accept (some OpKind.write8) { s.lat with addr := x, data := v } s) (w := w)
      (by simpa using hw')
    refine ⟨_, _, _, rfl, by simp, txsOf_frameFAW8 (w := w) (by simpa using hw') _, by simp [frameFAW8, hb], by simp, ?_⟩
    simp only [frameFAW8, List.cons_append]
    rw [← List.singleton_append, phasesOk_append, phasesOk_append, phasesOk_addrBeats]
    simp [phasesOk, opcBeat]
  case read8 x =>
    simp only [Option.map_eq_some_iff] at h
    obtain ⟨w, hw', rfl⟩ := h
    have hb := addrBeats_of_width (s := accept (some OpKind.read8) { s.lat with addr := x } s) (w := w)
      (by simpa using hw')
    refine ⟨_, _, _, rfl, by simp, txsOf_frameFAR (w := w) (by simpa using hw') _, by simp [frameFAR, hb], by simp, ?_⟩
    simp only [frameFAR, List.cons_append]
    rw [← List.singleton_append, phasesOk_append, phasesOk_append, phasesOk_addrBeats]
    simp [phasesOk, opcBeat, dummyBeat]
  case write x n =>
    simp only [Option.map_eq_some_iff] at h
    obtain ⟨w, hw', rfl⟩ := h
    simp only [streamFull, decide_eq_true_eq] at hst
    have hb := addrBeats_of_width (s := accept (some OpKind.write) { s.lat with addr := x, count := n } s) (w := w)
      (by simpa using hw')
    refine ⟨_, _, _, rfl, by simp, txsOf_frameFAW (w := w) (by simpa using hw') _ (by simpa using hst),
      by simp [frameFAW, hst, hb], by simp, ?_⟩
    simp only [frameFAW, List.cons_append]
    rw [← List.singleton_append, phasesOk_append, phasesOk_append, phasesOk_addrBeats]
    simp [phasesOk, opcBeat]

/-! ### What the end of a frame leaves as it is -/

theorem beatsEnd_addrW {bs : List Beat} {s t : State} (e : BeatsEnd bs s t) : t.addrW = s.addrW := by
  cases e with
  | finished s' p e => rw [e, (finishOp_out s').addrW, p.addrW]
  | waiting s' ph td p e ok => rw [e]; exact p.addrW

theorem beatsEnd_params {bs : List Beat} {s t : State} (e : BeatsEnd bs s t) :
    t.params = s.params ∧ t.bus.wiring = s.bus.wiring ∧ t.bus.chip.params = s.bus.chip.params := by
  cases e with
  | finished s' p e =>
    obtain ⟨d, -⟩ := csDeassert_out s'.params.opc s'.bus
    rw [e, (finishOp_out s').params, (finishOp_out s').bus, d.wiring, d.params]; exact ⟨p.params, p.wiring, p.chip⟩
  | waiting s' ph td p e ok => rw [e]; exact ⟨p.params, p.wiring, p.chip⟩

theorem beatsEnd_init {bs : List Beat} {s t : State} (e : BeatsEnd bs s t) :
    t.init = s.init ∨ (s.op = some .begin ∧ t.init = true) := by
  cases e with
  | finished s' p e =>
    by_cases h : s'.op = some .begin
    · right; refine ⟨by rw [← p.op]; exact h, ?_⟩
      rw [e, (finishOp_out s').init]; simp [respondOp, h, respond]
    · left; rw [e, (finishOp_out s').init, respondOp_init _ (by exact h)]; exact p.init
  | waiting s' ph td p e ok => rw [e]; exact .inl p.init

theorem beatsEnd_dirs {bs : List Beat} {s t : State} (e : BeatsEnd bs s t) :
    t.bus.pins.cs.dir = s.bus.pins.cs.dir ∧
    t.bus.pins.sck.dir = s.bus.pins.sck.dir ∧
    t.bus.pins.mosi.dir = s.bus.pins.mosi.dir ∧
    t.bus.pins.miso = s.bus.pins.miso ∧
    t.bus.hwx.settings = s.bus.hwx.settings := by
  cases e with
  | finished s' p e =>
    obtain ⟨d, -⟩ := csDeassert_out s'.params.opc s'.bus
    rw [e, (finishOp_out s').bus, d.pins, d.hwx]
    exact ⟨by simp [p.cs], p.sckDir, p.mosiDir, p.miso, p.settings⟩
  | waiting s' ph td p e ok => rw [e]; exact ⟨congrArg _ p.cs, p.sckDir, p.mosiDir, p.miso, p.settings⟩

theorem framed_dirs (k : OpKind) (l : OpLatches) (s : State) :
    (framed k l s).bus.pins.cs.dir = s.bus.pins.cs.dir ∧
    (framed k l s).bus.pins.sck.dir = s.bus.pins.sck.dir ∧
    (framed k l s).bus.pins.mosi.dir = s.bus.pins.mosi.dir ∧
    (framed k l s).bus.pins.miso = s.bus.pins.miso ∧
    (framed k l s).bus.hwx.settings = s.bus.hwx.settings := by
  obtain ⟨a, -⟩ := csAssert_out s.params.opc s.bus
  simp [framed, a.pins, a.hwx]

/-! ### What a step can do -/

theorem resume_end {s t : State} (h : resume s = .next t) : BeatsEnd s.todo s t := runBeats_end _ _ _ h

/-- Every next state of `step`: nothing presented; the operation in progress goes on, over a frame of another master or
not; an instruction runs; an input that is no instruction is consumed, is a frame at the device, or resets the block. -/
inductive StepEnd (s t : State) : Prop where
  | tick (hb : s.busy = false) (e : t = idleTick s)
  | go (hb : s.busy = true) (s1 : State)
      (h1 : s1 = s ∨ ∃ r vs, s1 = { s with inbox := r, bus := busDisturb vs s.bus }) (e : BeatsEnd s.todo s1 t)
  | run (hb : s.busy = false) (i : Instr) (r : List Entry) (e : ExecEnd i { s with inbox := r } t)
  | skip (hb : s.busy = false) (r : List Entry) (e : t = { s with inbox := r })
  | frame (hb : s.busy = false) (r : List Entry) (bytes : List Byte)
      (e : t = { s with inbox := r, bus := deviceFrame s.params.opc bytes s.bus })
  | reset (hb : s.busy = false) (r : List Entry) (e : t = resetBlock { s with inbox := r })

theorem fetchRejected_ne_goOn (r : Reject) (s s1 : State) : fetchRejected r s ≠ .goOn s1 := by
  unfold fetchRejected; split
  · split <;> simp
  · simp
  · simp

theorem fetchRejected_ne_run (r : Reject) (s s1 : State) (i : Instr) : fetchRejected r s ≠ .run i s1 := by
  unfold fetchRejected; split
  · split <;> simp
  · simp
  · simp

theorem fetchRejected_skip {r : Reject} {s s1 : State} (h : fetchRejected r s = .skip s1) :
    s1 = s ∨ (∃ bytes, s1 = { s with bus := deviceFrame s.params.opc bytes s.bus }) ∨ s1 = resetBlock s := by
  unfold fetchRejected at h; split at h
  · split at h
    · cases h
    · cases h; exact .inl rfl
  · rename_i bytes; cases h; exact .inr (.inl ⟨bytes, rfl⟩)
  · cases h; exact .inr (.inr rfl)

theorem fetch_goOn {s s1 : State} (h : fetch s = .goOn s1) :
    s.busy = true ∧ (s1 = s ∨ ∃ r vs, s1 = { s with inbox := r, bus := busDisturb vs s.bus }) := by
  unfold fetch at h
  split at h
  · rename_i hb _; cases h; exact ⟨hb, .inl rfl⟩
  · rename_i hb _
    refine ⟨hb, ?_⟩
    unfold fetchBusy at h
    split at h <;> cases h
    · exact .inl rfl
    · exact .inl rfl
    · exact .inl rfl
    · exact .inr ⟨_, _, rfl⟩
    · exact .inl rfl
  · cases h
  · unfold fetchIdle at h; split at h
    · cases h
    · exact absurd h (fetchRejected_ne_goOn _ _ _)

theorem fetch_run {s s1 : State} {i : Instr} (h : fetch s = .run i s1) :
    s.busy = false ∧ ∃ r, s1 = { s with inbox := r } := by
  unfold fetch at h
  split at h
  · cases h
  · unfold fetchBusy at h; split at h <;> cases h
  · cases h
  · rename_i hb _; unfold fetchIdle at h; split at h
    · cases h; exact ⟨hb, _, rfl⟩
    · exact absurd h (fetchRejected_ne_run _ _ _ _)

theorem fetch_skip {s s1 : State} (h : fetch s = .skip s1) :
    s.busy = false ∧ ∃ r, s1 = { s with inbox := r } ∨
      (∃ bytes, s1 = { s with inbox := r, bus := deviceFrame s.params.opc bytes s.bus }) ∨
      s1 = resetBlock { s with inbox := r } := by
  unfold fetch at h
  split at h
  · cases h
  · unfold fetchBusy at h; split at h <;> cases h
  · cases h
  · rename_i hb _; unfold fetchIdle at h; split at h
    · cases h
    · rcases fetchRejected_skip h with e | ⟨bytes, e⟩ | e
      · exact ⟨hb, _, .inl e⟩
      · exact ⟨hb, _, .inr (.inl ⟨bytes, e⟩)⟩
      · exact ⟨hb, _, .inr (.inr e)⟩

theorem fetch_idle {s : State} (h : fetch s = .idle) : s.busy = false := by
  unfold fetch at h
  split at h
  · cases h
  · unfold fetchBusy at h; split at h <;> cases h
  · assumption
  · assumption

theorem step_end {s t : State} (h : step s = .next t) : StepEnd s t := by
  unfold step at h
  split at h
  · rename_i hf; exact .tick (fetch_idle hf) (Host.Outcome.next.inj h).symm
  · rename_i s1 hf
    obtain ⟨hb, h1⟩ := fetch_goOn hf
    refine .go hb s1 h1 ?_
    have := resume_end h
    rcases h1 with rfl | ⟨r, vs, rfl⟩ <;> exact this
  · rename_i i s1 hf
    obtain ⟨hb, r, rfl⟩ := fetch_run hf
    exact .run hb i r (exec_end h)
  · cases h
  · rename_i s1 hf
    obtain ⟨hb, r, rfl | ⟨bytes, rfl⟩ | rfl⟩ := fetch_skip hf
    · exact .skip hb r (Host.Outcome.next.inj h).symm
    · exact .frame hb r bytes (Host.Outcome.next.inj h).symm
    · exact .reset hb r (Host.Outcome.next.inj h).symm

end Sys2Proof.Machine
end

