-- ==== Sys2Proof/Laws/Refine.lean ====
section
/-! SUPPORT. A frame of the block does to RefFRAM what its bytes do one by one (R57 to R64), and what the bytes of each
format do. -/

namespace Sys2Proof.Machine

/-! ### Bytes at RefFRAM -/

/-- The bytes of a frame exchanged with RefFRAM in order: the pairs and the device after them. -/
def chipBytes (o : Opcodes) : List Byte → Chip → List (Byte × Byte) × Chip
  | [], c => ([], c)
  | tx :: rest, c =>
    (((tx, chipAnswer o c) :: (chipBytes o rest (chipByte o tx c).2).1), (chipBytes o rest (chipByte o tx c).2).2)

/-- A whole frame at RefFRAM. -/
def chipFrame (o : Opcodes) (txs : List Byte) (c : Chip) : Chip := chipDeselect o (chipBytes o txs (chipSelect c)).2

theorem chipBytes_append (o : Opcodes) (xs ys : List Byte) (c : Chip) :
    chipBytes o (xs ++ ys) c =
      ((chipBytes o xs c).1 ++ (chipBytes o ys (chipBytes o xs c).2).1, (chipBytes o ys (chipBytes o xs c).2).2) := by
  induction xs generalizing c with
  | nil => rfl
  | cons x xs ih => simp only [List.cons_append, chipBytes, ih]

theorem chipBytes_fst (o : Opcodes) (txs : List Byte) (c : Chip) : (chipBytes o txs c).1.map Prod.fst = txs := by
  induction txs generalizing c with
  | nil => rfl
  | cons x xs ih => simp only [chipBytes, List.map_cons, ih]

theorem deviceBytes_fram (o : Opcodes) (txs : List Byte) (b : Bus) (h : b.wiring = .fram) :
    deviceBytes o txs b = ((chipBytes o txs b.chip).1,
      see (txs.flatMap bytePulses) { b with chip := (chipBytes o txs b.chip).2 }) := by
  induction txs generalizing b with
  | nil => simp [deviceBytes, chipBytes, see]
  | cons x xs ih =>
    simp only [deviceBytes, deviceByte, h, chipBytes]
    rw [ih _ rfl]
    simp [see, chipByte]

/-- A frame presented to RefFRAM alone. -/
theorem deviceFrame_fram (o : Opcodes) (txs : List Byte) (b : Bus) (h : b.wiring = .fram) :
    deviceFrame o txs b = { b with
      chip := chipFrame o txs b.chip, frames := b.frames ++ [(chipBytes o txs (chipSelect b.chip)).1],
      seen := b.seen ++ frameSeen txs } := by
  have hf : busFall (see [.cs false] b) = { see [.cs false] b with chip := chipSelect b.chip } := by
    unfold busFall; simp [h]
  simp only [deviceFrame, hf]
  rw [deviceBytes_fram o txs _ (by exact h)]
  simp [busRaise, h, chipFrame, see, frameSeen]

/-! ### A frame of the block at RefFRAM -/

theorem chipByte_bitn (o : Opcodes) (tx : Byte) (c : Chip) : (chipByte o tx c).2.bitn = 8 := by
  simp [chipByte, chipTake]

theorem runBeats_fram (beats : List Beat) (s : State) (txs : List Byte) (h : txsOf beats s.wdat = some txs)
    (hl : engineLasts beats.length s = true) (hf : Framed s.params s.bus) (hw : s.bus.wiring = .fram)
    (hb : s.bus.chip.bitn % 8 = 0) :
    ∃ s', runBeats beats s = .next (finishOp s') ∧ s'.params = s.params ∧ Framed s'.params s'.bus ∧
      s'.bus.wiring = .fram ∧ s'.bus.chip = (chipBytes s.params.opc txs s.bus.chip).2 ∧
      s'.bus.frame = s.bus.frame ++ (chipBytes s.params.opc txs s.bus.chip).1 ∧
      s'.bus.seen = s.bus.seen ++ txs.flatMap bytePulses := by
  induction beats generalizing s txs with
  | nil =>
    simp only [txsOf, Option.some.injEq] at h
    subst h
    exact ⟨s, rfl, rfl, hf, hw, rfl, by simp [chipBytes], by simp⟩
  | cons b beats ih =>
    cases b with
    | malformed w => simp [txsOf] at h
    | byte ph tx keep =>
      simp only [txsOf, Option.map_eq_some_iff] at h
      obtain ⟨txs', h', rfl⟩ := h
      obtain ⟨rx, b, hx, hn⟩ := engineLasts_succ hl tx
      obtain ⟨k, kf⟩ := xfer_out _ _ _ _ _ hx
      obtain ⟨e1, e2⟩ := xfer_fram _ _ _ _ _ hf hw hb hx
      have e3 := xfer_seen _ _ _ _ _ hf.configured hx
      obtain ⟨s', hr, hp, hf', hw', hc, hfr, hse⟩ := ih (beatDone ph keep rx b s) txs' h' (hn _ rfl rfl) (hf.after k)
        (k.wiring.trans hw) (by simp only [beatDone_bus, e2, chipByte_bitn])
      refine ⟨s', ?_, hp, hf', hw', ?_, ?_, by rw [hse]; simp [e3]⟩
      · simp only [runBeats, hx, hr]
      · rw [hc]; simp only [beatDone_bus, beatDone_params, e2, chipBytes]
      · rw [hfr]; simp only [beatDone_bus, beatDone_params, e2, kf, e1, chipBytes, List.append_assoc]; rfl
    | stream i =>
      cases hwd : s.wdat with
      | nil => rw [hwd] at h; simp [txsOf] at h
      | cons tx more =>
        rw [hwd] at h
        simp only [txsOf, Option.map_eq_some_iff] at h
        obtain ⟨txs', h', rfl⟩ := h
        obtain ⟨rx, b, hx, hn⟩ := engineLasts_succ hl tx
        obtain ⟨k, kf⟩ := xfer_out _ _ _ _ _ hx
        obtain ⟨e1, e2⟩ := xfer_fram _ _ _ _ _ hf hw hb hx
        have e3 := xfer_seen _ _ _ _ _ hf.configured hx
        obtain ⟨s', hr, hp, hf', hw', hc, hfr, hse⟩ := ih (beatDone (.data i) false rx b { s with wdat := more }) txs' h'
          (hn _ rfl rfl) (hf.after k) (k.wiring.trans hw) (by simp only [beatDone_bus, e2, chipByte_bitn])
        refine ⟨s', ?_, hp, hf', hw', ?_, ?_, by rw [hse]; simp [e3]⟩
        · simp only [runBeats, hwd, hx, hr]
        · rw [hc]; simp only [beatDone_bus, beatDone_params, e2, chipBytes]
        · rw [hfr]; simp only [beatDone_bus, beatDone_params, e2, kf, e1, chipBytes, List.append_assoc]; rfl

/-- CS falls on a bus at rest: RefFRAM begins a frame. -/
theorem csAssert_ready (p : Params) (b : Bus) (hc : pinsConfigured p b = true) (hl : b.pins.cs.latch = true)
    (hw : b.wiring = .fram) :
    Framed p (csAssert p.opc b) ∧ (csAssert p.opc b).wiring = .fram ∧ (csAssert p.opc b).chip = chipSelect b.chip ∧
      (csAssert p.opc b).frame = [] ∧ (csAssert p.opc b).seen = b.seen ++ [.cs false] := by
  obtain ⟨a, af, -⟩ := csAssert_out p.opc b
  have hd : b.pins.cs.dir = .out := by
    simp only [pinsConfigured, Bool.and_eq_true, decide_eq_true_eq] at hc; exact hc.1
  refine ⟨⟨?_, ?_⟩, a.wiring.trans hw, ?_, af, pinWrite_seen _ .cs _ _ hd (fun h => nomatch h)⟩
  · unfold pinsConfigured at *
    rw [a.pins, a.hwx]
    exact hc
  · rw [a.pins]
  · simp only [csAssert, pinWrite, pinOf, wire, hd, wireEdge, hl, Bool.not_false, Bool.and_self, if_true, busFall, setPin,
      see, log, hw]

/-- CS rises at the end of a frame: RefFRAM commits. -/
theorem csDeassert_framed (p : Params) (b : Bus) (hf : Framed p b) (hw : b.wiring = .fram) :
    (csDeassert p.opc b).chip = chipDeselect p.opc b.chip ∧ (csDeassert p.opc b).seen = b.seen ++ [.cs true] := by
  refine ⟨?_, pinWrite_seen _ .cs _ _ (by simp [pinOf, hf.cs]) (fun h => nomatch h)⟩
  simp only [csDeassert, pinWrite, pinOf, wire, hf.cs, wireEdge, Bool.not_true, Bool.not_false,
    Bool.and_self, if_true, Bool.false_eq_true, if_false, busRaise, setPin, see, log, hw]

/-- A pin-touching operation of a configured block at RefFRAM: its frame is the frame its bytes make, on the byte-level
trace and in the device. -/
theorem runPinOp_fram (k : OpKind) (l : OpLatches) (frame : State → List Beat) (s : State) (txs : List Byte)
    (ha : Admitted s) (hr : BusReady s) (hw : s.bus.wiring = .fram) (hk : k ≠ .begin)
    (h : txsOf (frame (accept (some k) l s)) s.wdat = some txs) (hne : txs ≠ [])
    (hl : engineLasts (frame (accept (some k) l s)).length s = true) :
    ∃ t, runPinOp k l frame s = .next t ∧
      Completed s t (chipBytes s.params.opc txs (chipSelect s.bus.chip)).1 ∧
      t.bus.chip = chipFrame s.params.opc txs s.bus.chip ∧
      t.wdat = streamAfter (frame (accept (some k) l s)) s.wdat ∧
      t.resp = responseOf k (accept (some k) l s) (keptOf (frame (accept (some k) l s))
        ((chipBytes s.params.opc txs (chipSelect s.bus.chip)).1.map Prod.snd)) ∧
      (s.bus.hwx.budget = none → t.bus.hwx.budget = none) ∧ t.bus.seen = s.bus.seen ++ frameSeen txs := by
  obtain ⟨f, t, hrun, hfst, hc, hwd, hresp, hbud⟩ := runPinOp_completed k l frame s txs ha hk h hne hl
  obtain ⟨e1, e2, e3, e4, e5⟩ := csAssert_ready s.params s.bus hr.1 hr.2 hw
  obtain ⟨s', q, qp, qf, qw, qc, qfr, qse⟩ := runBeats_fram (frame (accept (some k) l s))
    { accept (some k) l s with bus := csAssert s.params.opc s.bus } txs h (by
      obtain ⟨a, -, -⟩ := csAssert_out s.params.opc s.bus
      unfold engineLasts at hl ⊢
      dsimp only [accept_params]
      rw [a.hwx]
      exact hl) e1 e2 (by simp [e3, chipSelect])
  have hadm : runPinOp k l frame s = .next (finishOp s') := by
    rw [← q]
    unfold runPinOp atAcceptance refuseOr
    rw [ha.1]
    rcases ha.2 with hi | hcd
    · simp [hi, runFrame]
    · simp only [Bool.false_eq_true, if_false, hcd]
      split <;> rfl
  have ht : t = finishOp s' := by rw [hrun] at hadm; exact Host.Outcome.next.inj hadm
  have ob := (finishOp_out s').bus
  obtain ⟨-, -, dfs⟩ := csDeassert_out s'.params.opc s'.bus
  dsimp only [accept_params] at qc qfr qp
  rw [e3] at qc
  rw [e3, e4, List.nil_append] at qfr
  have hff : f = (chipBytes s.params.opc txs (chipSelect s.bus.chip)).1 := by
    have h1 := hc.2.2.2.2.2.1
    have hfs : s'.bus.frames = s.bus.frames := by
      obtain ⟨g, s'', hr', -, o⟩ := runBeats_sent (frame (accept (some k) l s))
        { accept (some k) l s with bus := csAssert s.params.opc s.bus } txs h (by
          obtain ⟨a, -, -⟩ := csAssert_out s.params.opc s.bus
          unfold engineLasts at hl ⊢
          dsimp only [accept_params]
          rw [a.hwx]
          exact hl)
      have h2 : (finishOp s'').bus.frames = (finishOp s').bus.frames := by
        rw [hr'] at q
        exact congrArg (fun x => x.bus.frames) (Host.Outcome.next.inj q)
      obtain ⟨-, -, d2⟩ := csDeassert_out s''.params.opc s''.bus
      rw [(finishOp_out s'').bus, ob, d2, dfs] at h2
      have h3 := List.append_inj' h2 rfl
      rw [← h3.1, o.progress.frames]
      obtain ⟨-, -, a3⟩ := csAssert_out s.params.opc s.bus
      exact a3
    rw [ht, ob, dfs, qfr, hfs] at h1
    have := List.append_cancel_left h1
    simpa using this.symm
  obtain ⟨g1, g2⟩ := csDeassert_framed s'.params s'.bus qf qw
  refine ⟨t, hrun, hff ▸ hc, ?_, hwd, hff ▸ hresp, hbud, ?_⟩
  · rw [ht, ob, g1, qc, qp]
    rfl
  · rw [ht, ob, g2, qse, e5]
    simp [frameSeen]

end Sys2Proof.Machine
end

