-- ==== Sys2Proof/Laws/Formats.lean ====
section
/-! SUPPORT. What each frame format does to RefFRAM (R57 to R64): its answers, and the device after CS rises. -/

namespace Sys2Proof.Machine

/-! ### The parts of the device a frame's meaning rests on -/

/-- The registers a byte of an address or of data leaves as they are. -/
structure Steady (c c' : Chip) : Prop where
  params : c'.params = c.params
  mem : c'.mem = c.mem
  sr : c'.sr = c.sr
  wel : c'.wel = c.wel

theorem Steady.trans {a b c : Chip} (h : Steady a b) (k : Steady b c) : Steady a c :=
  ⟨k.params.trans h.params, k.mem.trans h.mem, k.sr.trans h.sr, k.wel.trans h.wel⟩

theorem Steady.accepts {c c' : Chip} (h : Steady c c') : chipAccepts c' = chipAccepts c := by
  simp [chipAccepts, h.wel, h.params]

/-- No byte of a frame commits anything: commits are at CS rising (R60). -/
theorem chipByte_steady (o : Opcodes) (tx : Byte) (c : Chip) : Steady c (chipByte o tx c).2 := by
  refine ⟨by simp, by simp, ?_, ?_⟩
  · simp only [chipByte, chipTake, chipAbsorb]; repeat' (split <;> try rfl)
  · simp only [chipByte, chipTake, chipAbsorb]; repeat' (split <;> try rfl)

theorem chipBytes_steady (o : Opcodes) (txs : List Byte) (c : Chip) : Steady c (chipBytes o txs c).2 := by
  induction txs generalizing c with
  | nil => exact ⟨rfl, rfl, rfl, rfl⟩
  | cons x xs ih => exact (chipByte_steady o x c).trans (ih _)

theorem chipSelect_steady (c : Chip) : Steady c (chipSelect c) := ⟨rfl, rfl, rfl, rfl⟩

/-- Opcodes that are pairwise distinct (R85), as inequalities. -/
structure OpcodesApart (o : Opcodes) : Prop where
  wren_wrdi : o.wren ≠ o.wrdi
  wren_wrsr : o.wren ≠ o.wrsr
  wren_write : o.wren ≠ o.write
  wrdi_wren : o.wrdi ≠ o.wren
  wrdi_wrsr : o.wrdi ≠ o.wrsr
  wrdi_write : o.wrdi ≠ o.write
  rdsr_wrsr : o.rdsr ≠ o.wrsr
  rdsr_write : o.rdsr ≠ o.write
  rdid_rdsr : o.rdid ≠ o.rdsr
  rdid_wrsr : o.rdid ≠ o.wrsr
  rdid_write : o.rdid ≠ o.write
  wrsr_rdsr : o.wrsr ≠ o.rdsr
  wrsr_rdid : o.wrsr ≠ o.rdid
  wrsr_write : o.wrsr ≠ o.write
  read_rdsr : o.read ≠ o.rdsr
  read_rdid : o.read ≠ o.rdid
  read_wrsr : o.read ≠ o.wrsr
  read_write : o.read ≠ o.write
  write_rdsr : o.write ≠ o.rdsr
  write_rdid : o.write ≠ o.rdid
  write_wrsr : o.write ≠ o.wrsr
  write_read : o.write ≠ o.read
  write_wren : o.write ≠ o.wren
  write_wrdi : o.write ≠ o.wrdi

theorem opcodes_apart {o : Opcodes} (h : o.Distinct) : OpcodesApart o := by
  simp only [Opcodes.Distinct, Opcodes.toList, List.nodup_cons, List.mem_cons, List.not_mem_nil, or_false, not_or,
    not_false_eq_true, List.nodup_nil, and_true] at h
  obtain ⟨⟨a1, a2, a3, a4, a5, a6⟩, ⟨b1, b2, b3, b4, b5⟩, ⟨c1, c2, c3, c4⟩, ⟨d1, d2, d3⟩, ⟨e1, e2⟩, f1⟩ := h
  constructor <;> first | assumption | (apply Ne.symm; assumption)

/-! ### The opcode byte -/

/-- The device after the opcode byte of a frame. -/
def chipOpened (o : Opcodes) (op : Byte) (c : Chip) : Chip := (chipByte o op (chipSelect c)).2

theorem chipOpened_steady (o : Opcodes) (op : Byte) (c : Chip) : Steady c (chipOpened o op c) :=
  (chipSelect_steady c).trans (chipByte_steady o op _)

@[simp] theorem chipOpened_opc (o : Opcodes) (op : Byte) (c : Chip) : (chipOpened o op c).opc = op := by
  simp [chipOpened, chipByte, chipTake, chipAbsorb, chipSelect]
@[simp] theorem chipOpened_rxn (o : Opcodes) (op : Byte) (c : Chip) : (chipOpened o op c).rxn = 1 := by
  simp [chipOpened, chipByte, chipTake, chipAbsorb, chipSelect]
@[simp] theorem chipOpened_staged (o : Opcodes) (op : Byte) (c : Chip) : (chipOpened o op c).staged = [] := by
  simp [chipOpened, chipByte, chipTake, chipAbsorb, chipSelect]
@[simp] theorem chipOpened_stagedSr (o : Opcodes) (op : Byte) (c : Chip) : (chipOpened o op c).stagedSr = none := by
  simp [chipOpened, chipByte, chipTake, chipAbsorb, chipSelect]

theorem chipFrame_cons (o : Opcodes) (op : Byte) (rest : List Byte) (c : Chip) :
    chipFrame o (op :: rest) c = chipDeselect o (chipBytes o rest (chipOpened o op c)).2 := rfl

theorem chipBytes_cons (o : Opcodes) (op : Byte) (rest : List Byte) (c : Chip) :
    (chipBytes o (op :: rest) (chipSelect c)).1 =
      (op, chipAnswer o (chipSelect c)) :: (chipBytes o rest (chipOpened o op c)).1 := rfl

/-- Only the opcode byte writes the opcode register, and every byte counts. -/
theorem chipByte_count (o : Opcodes) (tx : Byte) (c : Chip) (h : c.rxn ≠ 0) :
    (chipByte o tx c).2.opc = c.opc ∧ (chipByte o tx c).2.rxn = c.rxn + 1 := by
  simp only [chipByte, chipTake, chipAbsorb, h, if_false]
  refine ⟨?_, trivial⟩
  repeat' (split <;> try rfl)

theorem chipBytes_count (o : Opcodes) (txs : List Byte) (c : Chip) (h : c.rxn ≠ 0) :
    (chipBytes o txs c).2.opc = c.opc ∧ (chipBytes o txs c).2.rxn = c.rxn + txs.length := by
  induction txs generalizing c with
  | nil => exact ⟨rfl, rfl⟩
  | cons x xs ih =>
    obtain ⟨h1, h2⟩ := chipByte_count o x c h
    obtain ⟨k1, k2⟩ := ih (chipByte o x c).2 (by omega)
    refine ⟨k1.trans h1, ?_⟩
    simp only [chipBytes, List.length_cons, k2, h2]
    omega

/-- A frame whose opcode is neither WRITE nor WRSR leaves memory and status register (R60, R70). -/
theorem chipFrame_keeps (o : Opcodes) (op : Byte) (rest : List Byte) (c : Chip) (h1 : op ≠ o.write) (h2 : op ≠ o.wrsr) :
    (chipFrame o (op :: rest) c).mem = c.mem ∧ (chipFrame o (op :: rest) c).sr = c.sr := by
  obtain ⟨k1, -⟩ := chipBytes_count o rest (chipOpened o op c) (by simp)
  have st := (chipOpened_steady o op c).trans (chipBytes_steady o rest (chipOpened o op c))
  rw [chipFrame_cons]
  refine ⟨?_, ?_⟩
  · rw [chipDeselect_mem, chipMemAfter_of_ne _ _ (by rw [k1, chipOpened_opc]; exact h1)]; exact st.mem
  · rw [chipDeselect_sr, chipSrAfter, if_neg (by rw [k1, chipOpened_opc]; exact fun hh => h2 hh.1)]; exact st.sr

/-- A frame of more than one byte, or of another opcode than WREN and WRDI, and not of WRITE or WRSR, leaves the
write-protect latch. -/
theorem chipFrame_wel (o : Opcodes) (op : Byte) (rest : List Byte) (c : Chip) (h1 : op ≠ o.write) (h2 : op ≠ o.wrsr)
    (h3 : rest ≠ []) : (chipFrame o (op :: rest) c).wel = c.wel := by
  obtain ⟨k1, k2⟩ := chipBytes_count o rest (chipOpened o op c) (by simp)
  have st := (chipOpened_steady o op c).trans (chipBytes_steady o rest (chipOpened o op c))
  have hn : ¬ 1 + rest.length = 1 := by
    have := List.length_pos_iff.2 h3; omega
  rw [chipFrame_cons]
  simp only [chipDeselect_wel, chipWelAfter, k1, k2, chipOpened_opc, chipOpened_rxn, h1, h2, hn, st.wel, false_and, or_self,
    if_false]

/-! ### WREN and WRDI (R62) -/

theorem chipFrame_wren (o : Opcodes) (c : Chip) (h : o.Distinct) : (chipFrame o [o.wren] c).wel = true := by
  have a := opcodes_apart h
  rw [chipFrame_cons]
  simp only [chipBytes, chipDeselect_wel, chipWelAfter, chipOpened_opc, chipOpened_rxn, a.wren_write, a.wren_wrsr,
    or_self, false_and, if_false, and_self, if_true]

theorem chipFrame_wrdi (o : Opcodes) (c : Chip) (h : o.Distinct) : (chipFrame o [o.wrdi] c).wel = false := by
  have a := opcodes_apart h
  rw [chipFrame_cons]
  simp only [chipBytes, chipDeselect_wel, chipWelAfter, chipOpened_opc, chipOpened_rxn, a.wrdi_write, a.wrdi_wrsr,
    a.wrdi_wren, or_self, false_and, and_false, if_false, and_self, if_true]

/-! ### RDSR and WRSR (R63) -/

/-- The answer to the byte after RDSR is the status register. -/
theorem chipBytes_rdsr (o : Opcodes) (d : Byte) (c : Chip) :
    (chipBytes o [o.rdsr, d] (chipSelect c)).1 = [(o.rdsr, chipAnswer o (chipSelect c)), (d, c.sr)] := by
  rw [chipBytes_cons]
  have := (chipOpened_steady o o.rdsr c).sr
  simp only [chipBytes, chipAnswer, chipOpened_rxn, chipOpened_opc, Nat.one_ne_zero, if_false, if_true, this]

theorem chipFrame_wrsr (o : Opcodes) (v : Byte) (c : Chip) (h : o.Distinct) :
    (chipFrame o [o.wrsr, v] c).sr = (if chipAccepts c then v else c.sr) ∧ (chipFrame o [o.wrsr, v] c).mem = c.mem ∧
      (chipFrame o [o.wrsr, v] c).wel = (if c.params.requireWel then false else c.wel) := by
  have a := opcodes_apart h
  have st := (chipOpened_steady o o.wrsr c).trans (chipByte_steady o v (chipOpened o o.wrsr c))
  obtain ⟨k1, k2⟩ := chipByte_count o v (chipOpened o o.wrsr c) (by simp)
  have ks : (chipByte o v (chipOpened o o.wrsr c)).2.stagedSr = some v := by
    simp only [chipByte, chipTake, chipAbsorb, chipOpened_rxn, chipOpened_opc, Nat.one_ne_zero, if_false, a.wrsr_rdsr,
      a.wrsr_rdid, if_true]
  rw [chipFrame_cons]
  simp only [chipBytes]
  refine ⟨?_, ?_, ?_⟩
  · rw [chipDeselect_sr, chipSrAfter, k1, ks, st.accepts, st.sr]
    simp
  · rw [chipDeselect_mem, chipMemAfter_of_ne _ _ (by rw [k1, chipOpened_opc]; exact a.wrsr_write)]; exact st.mem
  · rw [chipDeselect_wel, chipWelAfter, k1, k2, st.wel, st.params]
    simp

/-! ### RDID (R63) -/

theorem chipBytes_rdid (o : Opcodes) (d : Byte) (c : Chip) (h : o.Distinct) :
    (chipBytes o [o.rdid, d, d, d, d] (chipSelect c)).1 =
      [(o.rdid, chipAnswer o (chipSelect c)), (d, c.params.id0), (d, c.params.id1), (d, c.params.id2),
        (d, c.params.id3)] := by
  have a := opcodes_apart h
  have key : ∀ c' : Chip, ∀ n, c'.opc = o.rdid → c'.rxn = n + 1 → n < 4 → c'.params = c.params →
      chipAnswer o c' = chipId c.params n := by
    intro c' n h1 h2 h3 h4
    have hn : n + 1 ≤ 4 := by omega
    simp only [chipAnswer, h1, h2, h4, Nat.succ_ne_zero, if_false, a.rdid_rdsr, if_true, if_pos hn,
      Nat.add_sub_cancel]
  rw [chipBytes_cons]
  have p0 := (chipOpened_steady o o.rdid c).params
  generalize hc0 : chipOpened o o.rdid c = c0 at *
  have o0 : c0.opc = o.rdid := by rw [← hc0]; simp
  have r0 : c0.rxn = 1 := by rw [← hc0]; simp
  obtain ⟨o1, r1⟩ := chipByte_count o d c0 (by omega)
  have p1 := (chipByte_steady o d c0).params
  obtain ⟨o2, r2⟩ := chipByte_count o d (chipByte o d c0).2 (by omega)
  have p2 := (chipByte_steady o d (chipByte o d c0).2).params
  obtain ⟨o3, r3⟩ := chipByte_count o d (chipByte o d (chipByte o d c0).2).2 (by omega)
  have p3 := (chipByte_steady o d (chipByte o d (chipByte o d c0).2).2).params
  simp only [chipBytes]
  rw [key c0 0 o0 r0 (by omega) p0, key (chipByte o d c0).2 1 (by rw [o1, o0]) (by omega) (by omega) (by rw [p1, p0]),
    key (chipByte o d (chipByte o d c0).2).2 2 (by rw [o2, o1, o0]) (by omega) (by omega) (by rw [p2, p1, p0]),
    key (chipByte o d (chipByte o d (chipByte o d c0).2).2).2 3 (by rw [o3, o2, o1, o0]) (by omega) (by omega)
      (by rw [p3, p2, p1, p0])]
  rfl

/-! ### The address field (R59) -/

/-- The value of bytes sent most significant first. -/
def beValue (xs : List Byte) : Nat := xs.foldl (fun n x => n * 256 + x.toNat) 0

/-- The address bytes leave the pointer at their value, and nothing else of the frame. -/
theorem chipBytes_address (o : Opcodes) (xs : List Byte) (c : Chip) (h : o.Distinct)
    (hop : c.opc = o.read ∨ c.opc = o.write) (hr : c.rxn = 1) (hl : xs.length = c.params.aw.bytes) :
    (chipBytes o xs c).2.ptr = beValue xs ∧ (chipBytes o xs c).2.staged = c.staged := by
  have a := opcodes_apart h
  have n1 : c.opc ≠ o.rdsr := by rcases hop with e | e <;> rw [e]; exacts [a.read_rdsr, a.write_rdsr]
  have n2 : c.opc ≠ o.rdid := by rcases hop with e | e <;> rw [e]; exacts [a.read_rdid, a.write_rdid]
  have n3 : c.opc ≠ o.wrsr := by rcases hop with e | e <;> rw [e]; exacts [a.read_wrsr, a.write_wrsr]
  cases haw : c.params.aw with
  | w1 =>
    rw [haw] at hl
    obtain ⟨x, rfl⟩ := List.length_eq_one_iff.1 hl
    simp [chipBytes, chipByte, chipTake, chipAbsorb, chipShiftPtr, beValue, hr, n1, n2, n3, hop, haw, AddrWidth.bytes]
  | w2 =>
    rw [haw] at hl
    obtain ⟨x, y, rfl⟩ := List.length_eq_two.1 hl
    have hx := x.isLt; have hy := y.isLt
    simp [chipBytes, chipByte, chipTake, chipAbsorb, chipShiftPtr, beValue, hr, n1, n2, n3, hop, haw, AddrWidth.bytes]
    omega
  | w3 =>
    rw [haw] at hl
    obtain ⟨x, y, z, rfl⟩ := List.length_eq_three.1 hl
    have hx := x.isLt; have hy := y.isLt; have hz := z.isLt
    simp [chipBytes, chipByte, chipTake, chipAbsorb, chipShiftPtr, beValue, hr, n1, n2, n3, hop, haw, AddrWidth.bytes]
    omega

theorem beValue_addrBytes (w : AddrWidth) (a : Addr) : beValue (addrBytes w a) = a.toNat % 2 ^ (8 * w.bytes) := by
  cases w <;> simp only [beValue, addrBytes, List.foldl_cons, List.foldl_nil, AddrWidth.bytes,
    BitVec.extractLsb'_toNat, Nat.shiftRight_eq_div_pow] <;> omega

theorem beValue_addrField (w : AddrWidth) (a : Addr24) (h : addrFits w a = true) : beValue (addrField w a) = a.toNat := by
  simp only [addrFits, decide_eq_true_eq] at h
  have := a.isLt
  cases w <;> simp only [beValue, addrField, List.foldl_cons, List.foldl_nil, AddrWidth.bytes,
    BitVec.extractLsb'_toNat, Nat.shiftRight_eq_div_pow] at h ⊢ <;> omega

@[simp] theorem addrField_length (w : AddrWidth) (a : Addr24) : (addrField w a).length = w.bytes := by
  cases w <;> rfl

/-! ### READ (R61) and WRITE (R60) -/

/-- The last answer of a READ frame is the byte at the address. -/
theorem chipBytes_read (o : Opcodes) (d : Byte) (xs : List Byte) (c : Chip) (h : o.Distinct)
    (hl : xs.length = c.params.aw.bytes) :
    (chipBytes o (o.read :: xs ++ [d]) (chipSelect c)).1.getLast? =
      some (d, memRead c.mem (beValue xs % c.params.memBytes)) := by
  have a := opcodes_apart h
  have st := (chipOpened_steady o o.read c).trans (chipBytes_steady o xs (chipOpened o o.read c))
  obtain ⟨k1, k2⟩ := chipBytes_count o xs (chipOpened o o.read c) (by simp)
  obtain ⟨q, -⟩ := chipBytes_address o xs (chipOpened o o.read c) h (by simp) (by simp)
    (by rw [(chipOpened_steady o o.read c).params]; exact hl)
  rw [List.cons_append, chipBytes_cons, chipBytes_append]
  simp only [chipBytes, List.getLast?_cons, List.getLast?_append, List.getLast?_nil, Option.getD_none, Option.some_or,
    Option.getD_some]
  have hn : ¬ (1 + c.params.aw.bytes ≤ c.params.aw.bytes) := by omega
  simp only [chipAnswer, k1, k2, chipOpened_opc, chipOpened_rxn, hl, a.read_rdsr, a.read_rdid, a.read_wrsr, st.params,
    st.mem, q, hn, and_false, if_false, if_true]
  rw [if_neg (by omega)]

/-- The data bytes of a WRITE frame are staged at ascending addresses (R53, R59). -/
theorem chipBytes_data (o : Opcodes) (data : List Byte) (c : Chip) (h : o.Distinct) (hop : c.opc = o.write)
    (hr : c.params.aw.bytes < c.rxn) :
    (chipBytes o data c).2.staged = c.staged ++ blockCells c.params.memBytes c.ptr data := by
  have a := opcodes_apart h
  induction data generalizing c with
  | nil => simp [chipBytes, blockCells]
  | cons x xs ih =>
    have h0 : c.rxn ≠ 0 := by omega
    have hn : ¬ c.rxn ≤ c.params.aw.bytes := by omega
    obtain ⟨k1, k2⟩ := chipByte_count o x c h0
    have st := chipByte_steady o x c
    have e : (chipByte o x c).2.staged = c.staged ++ [(c.ptr % c.params.memBytes, x)] ∧
        (chipByte o x c).2.ptr = c.ptr + 1 := by
      simp only [chipByte, chipTake, chipAbsorb, h0, hop, a.write_rdsr, a.write_rdid, a.write_wrsr, a.write_read, hn,
        and_false, if_false, if_true]
      exact ⟨trivial, trivial⟩
    simp only [chipBytes]
    rw [ih _ (k1.trans hop) (by rw [st.params, k2]; omega), st.params, e.1, e.2]
    simp only [blockCells, List.zipIdx_cons, List.map_cons, List.append_assoc, List.singleton_append, Nat.add_zero,
      List.zipIdx_succ, List.map_map, Function.comp_def, Nat.zero_add]
    simp [Nat.add_comm, Nat.add_left_comm]

theorem chipFrame_write (o : Opcodes) (xs data : List Byte) (c : Chip) (h : o.Distinct)
    (hl : xs.length = c.params.aw.bytes) :
    (chipFrame o (o.write :: xs ++ data) c).mem =
        (if chipAccepts c then memWriteAll c.mem (blockCells c.params.memBytes (beValue xs) data) else c.mem) ∧
      (chipFrame o (o.write :: xs ++ data) c).sr = c.sr ∧
      (chipFrame o (o.write :: xs ++ data) c).wel = (if c.params.requireWel then false else c.wel) := by
  have a := opcodes_apart h
  have s0 := chipOpened_steady o o.write c
  have s1 := s0.trans (chipBytes_steady o xs (chipOpened o o.write c))
  obtain ⟨k1, k2⟩ := chipBytes_count o xs (chipOpened o o.write c) (by simp)
  obtain ⟨q1, q2⟩ := chipBytes_address o xs (chipOpened o o.write c) h (by simp) (by simp)
    (by rw [s0.params]; exact hl)
  have d := chipBytes_data o data (chipBytes o xs (chipOpened o o.write c)).2 h (by rw [k1]; simp)
    (by rw [k2, s1.params, hl]; simp)
  obtain ⟨k3, k4⟩ := chipBytes_count o data (chipBytes o xs (chipOpened o o.write c)).2 (by rw [k2]; simp)
  have s2 := s1.trans (chipBytes_steady o data (chipBytes o xs (chipOpened o o.write c)).2)
  rw [List.cons_append, chipFrame_cons, chipBytes_append]
  refine ⟨?_, ?_, ?_⟩
  · rw [chipDeselect_mem, chipMemAfter, k3, k1, s2.accepts, s2.mem, d, q2, q1, s1.params]
    simp
  · rw [chipDeselect_sr, chipSrAfter, k3, k1, s2.sr]
    simp [a.write_wrsr]
  · rw [chipDeselect_wel, chipWelAfter, k3, k1, s2.wel, s2.params]
    simp [a.write_wren, a.write_wrdi]

end Sys2Proof.Machine
end

