-- ==== Sys2Proof/Laws/OpenFrame.lean ====
section
/-! SUPPORT. The open frame of an operation in progress: it starts with one of the seven opcodes (30_encoding.md R85, R92),
whether the operation completes in one step or is resumed. -/

namespace Sys2Proof.Machine

theorem opcodeOf_mem (o : Opcodes) (k : OpKind) : opcodeOf o k ∈ o.toList := by
  cases k <;> simp [opcodeOf, Opcodes.toList]

/-- One exchange more: what is open still starts with an opcode, whatever is left to do. -/
theorem opensWithOpcode_beat {o : Opcodes} {todo : List Beat} {f : List (Byte × Byte)} {tx : Byte} (rx : Byte)
    (h : opensWithOpcode o todo f) (ht : ∀ op rest, todo = opcBeat op :: rest → tx = op) (left : List Beat) :
    opensWithOpcode o left (f ++ [(tx, rx)]) := by
  rcases h with ⟨x, hx, hm⟩ | ⟨hf, op, rest, ht', hm⟩
  · refine .inl ⟨x, ?_, hm⟩
    cases f <;> simp_all
  · exact .inl ⟨(tx, rx), by simp [hf], by rw [ht _ _ ht']; exact hm⟩

/-- The rest of a frame either ends, completing a frame that starts with an opcode, or waits with an open frame that does. -/
theorem runBeats_open (beats : List Beat) (s t : State) (o : Opcodes) (h : opensWithOpcode o beats s.bus.frame)
    (hr : runBeats beats s = .next t) (hb : s.busy = true) :
    (t.busy = false ∧ ∃ f, t.bus.frames = s.bus.frames ++ [f] ∧ ∃ x, f.head? = some x ∧ x.1 ∈ o.toList) ∨
      (t.busy = true ∧ t.bus.frames = s.bus.frames ∧ opensWithOpcode o t.todo t.bus.frame) := by
  induction beats generalizing s with
  | nil =>
    simp only [runBeats, Host.Outcome.next.injEq] at hr
    subst hr
    obtain ⟨-, -, d⟩ := csDeassert_out s.params.opc s.bus
    refine .inl ⟨rfl, s.bus.frame, by rw [(finishOp_out s).bus, d], ?_⟩
    rcases h with h | ⟨-, op, rest, h, -⟩
    · exact h
    · cases h
  | cons b beats ih =>
    cases b with
    | malformed w => simp [runBeats, raiseMalformedWidth] at hr
    | byte ph tx keep =>
      simp only [runBeats] at hr
      split at hr
      · cases hr; exact .inr ⟨hb, rfl, h⟩
      · rename_i rx b hx
        obtain ⟨k, kf⟩ := xfer_out _ _ _ _ _ hx
        have := ih (beatDone ph keep rx b s) (by
          simp only [beatDone_bus, kf]
          exact opensWithOpcode_beat rx h (by intro op rest e; cases e; rfl) _) hr hb
        simpa [k.frames] using this
    | stream i =>
      have hf : ∃ x, s.bus.frame.head? = some x ∧ x.1 ∈ o.toList := by
        rcases h with h | ⟨-, op, rest, h, -⟩
        · exact h
        · cases h
      simp only [runBeats] at hr
      split at hr
      · cases hr; exact .inr ⟨hb, rfl, .inl hf⟩
      · split at hr
        · cases hr; exact .inr ⟨hb, rfl, .inl hf⟩
        · rename_i tx more _ _ rx b hx
          obtain ⟨k, kf⟩ := xfer_out _ _ _ _ _ hx
          have := ih (beatDone (.data i) false rx b { s with wdat := more }) (by
            simp only [beatDone_bus, kf]
            exact opensWithOpcode_beat rx h (by intro op rest e; cases e) _) hr hb
          simpa [k.frames] using this

end Sys2Proof.Machine
end

