-- ==== Sys2Proof/Laws/PerInstr.lean ====
section
/-! SUPPORT. The per-instruction family LeadingWord: what selects an instruction, its command code (R97) or its opcode
byte (R80, R85), stands where the encoding puts it, and the decoder reads nothing else to choose the row. -/

namespace Sys2Proof.Laws.LeadingWord

/-- The command word of a host operation, as R97 gives it; `none` for a frame. -/
def commandWord : Instr → Option (BitVec 5)
  | .begin => some 0b00000
  | .getAddrLen => some 0b00001
  | .setAddrLen _ => some 0b00010
  | .writeEnableT => some 0b10011
  | .writeEnableF => some 0b00011
  | .write8 _ _ => some 0b00100
  | .write _ _ => some 0b00101
  | .read8 _ => some 0b00110
  | .getDeviceId => some 0b00111
  | .getStatus => some 0b01000
  | .setStatus _ => some 0b01001
  | .wireWren => none
  | .wireWrdi => none
  | .wireRdsr => none
  | .wireWrsr _ => none
  | .wireRead _ _ => none
  | .wireWrite _ _ _ => none
  | .wireRdid => none

/-- The opcode byte of a frame, as R85 assigns it to the formats; `none` for a host operation. -/
def opcodeByte (o : Opcodes) : Instr → Option Byte
  | .begin => none
  | .getAddrLen => none
  | .setAddrLen _ => none
  | .writeEnableT => none
  | .writeEnableF => none
  | .write8 _ _ => none
  | .write _ _ => none
  | .read8 _ => none
  | .getDeviceId => none
  | .getStatus => none
  | .setStatus _ => none
  | .wireWren => some o.wren
  | .wireWrdi => some o.wrdi
  | .wireRdsr => some o.rdsr
  | .wireWrsr _ => some o.wrsr
  | .wireRead _ _ => some o.read
  | .wireWrite _ _ _ => some o.write
  | .wireRdid => some o.rdid

/-- What the encoder puts first: a host operation's command word, or a frame's first byte. -/
def Statement (i : Instr) : Prop :=
  ∀ (o : Opcodes) (dummy : Byte),
    match encode o dummy i with
    | .command c => commandWord i = some c.word ∧ opcodeByte o i = none
    | .frame bytes => commandWord i = none ∧ opcodeByte o i = bytes.head?
    | .rst => False

theorem begin : Statement .begin := fun _ _ => ⟨rfl, rfl⟩
theorem getAddrLen : Statement .getAddrLen := fun _ _ => ⟨rfl, rfl⟩
theorem setAddrLen (n : Byte) : Statement (.setAddrLen n) := fun _ _ => ⟨rfl, rfl⟩
theorem writeEnableT : Statement .writeEnableT := fun _ _ => ⟨rfl, rfl⟩
theorem writeEnableF : Statement .writeEnableF := fun _ _ => ⟨rfl, rfl⟩
theorem write8 (a : Addr) (v : Byte) : Statement (.write8 a v) := fun _ _ => ⟨rfl, rfl⟩
theorem write (a : Addr) (count : Half) : Statement (.write a count) := fun _ _ => ⟨rfl, rfl⟩
theorem read8 (a : Addr) : Statement (.read8 a) := fun _ _ => ⟨rfl, rfl⟩
theorem getDeviceId : Statement .getDeviceId := fun _ _ => ⟨rfl, rfl⟩
theorem getStatus : Statement .getStatus := fun _ _ => ⟨rfl, rfl⟩
theorem setStatus (v : Byte) : Statement (.setStatus v) := fun _ _ => ⟨rfl, rfl⟩
theorem wireWren : Statement .wireWren := fun _ _ => ⟨rfl, rfl⟩
theorem wireWrdi : Statement .wireWrdi := fun _ _ => ⟨rfl, rfl⟩
theorem wireRdsr : Statement .wireRdsr := fun _ _ => ⟨rfl, rfl⟩
theorem wireWrsr (v : Byte) : Statement (.wireWrsr v) := fun _ _ => ⟨rfl, rfl⟩
theorem wireRead (w : AddrWidth) (a : Addr24) : Statement (.wireRead w a) := fun _ _ => ⟨rfl, rfl⟩
theorem wireWrite (w : AddrWidth) (a : Addr24) (data : List Byte) : Statement (.wireWrite w a data) :=
  fun _ _ => ⟨rfl, rfl⟩
theorem wireRdid : Statement .wireRdid := fun _ _ => ⟨rfl, rfl⟩

end Sys2Proof.Laws.LeadingWord
end

