-- ==== Sys2Proof/Tests/Slice0.lean ====
section
/-! SUPPORT. Tests: ill-formed terms, words written out from the encodings, one-step tests from the vectors of
95_test_vectors.md (their ids are named), and a witness for the hypotheses of every statement. -/

namespace Sys2Proof.Tests

open Sys2Proof Sys2Proof.Machine

/-! ### Small states -/

/-- Pins as BEGIN leaves them in software mode (P1's end state). -/
def pinsSw : Pins :=
  { cs := { dir := .out, latch := true }, sck := { dir := .out, latch := true }, mosi := { dir := .out, latch := false }
    miso := { dir := .inp, latch := false } }

/-- Software mode after BEGIN, with a device `c` on the wiring `w`. -/
def sw (w : Wiring) (c : Chip) : State :=
  let s := constructSw 0 1 2 3 w c
  { s with init := true, bus := { s.bus with pins := pinsSw } }

/-- Hardware mode after BEGIN, with a device `c`; `budget` exchanges complete. -/
def hw (w : Wiring) (c : Chip) (budget : Option Nat) : State :=
  let s := constructHw 3 w c budget
  { s with
    init := true
    bus := { s.bus with
      pins := { s.bus.pins with cs := { dir := .out, latch := true } }
      hwx := { s.bus.hwx with settings := some { spiMode := 0, hz := 8000000, msbFirst := true } } } }

/-- The reference device with another width, size, write-enable requirement. -/
def fram (aw : AddrWidth) (bytes : Nat) (wel : Bool) : Chip :=
  .initial { ChipParams.p1 with aw := aw, memBytes := bytes, requireWel := wel }

/-- The device of P1. -/
def p1 : Chip := .initial .p1

/-- A state that goes on as the hardware does. -/
def free (s : State) : State := { s with params := { s.params with conduct := .hardware } }

/-- A field of the next state. -/
def after {α : Type} (o : Outcome) (f : State → α) : Option α :=
  match o with
  | .next t => some (f t)
  | .fault _ => none
  | .refused _ => none

/-- The fault an outcome is. -/
def faulted (o : Outcome) : Option Fault :=
  match o with
  | .next _ => none
  | .fault e => some e
  | .refused _ => none

/-- The refusal an outcome is. -/
def refused (o : Outcome) : Option Refusal :=
  match o with
  | .next _ => none
  | .fault _ => none
  | .refused r => some r

/-- The frames completed since `s`. -/
def newFrames (s : State) (i : Instr) : Option (List (List (Byte × Byte))) := after (exec i s) fun t => t.bus.frames

/-- The bytes sent in the one new frame of an operation from a state without frames. -/
def sent (s : State) (i : Instr) : Option (List (List Byte)) :=
  after (exec i s) fun t => t.bus.frames.map fun f => f.map Prod.fst

/-! ### Well-formedness refuses -/

/-- R86: one address byte carries no bit above bit 7. -/
theorem test_illformed_read : (Instr.wireRead .w1 0x100).wellFormed = false := by decide
/-- R86: two address bytes carry no bit above bit 15. -/
theorem test_illformed_write_address : (Instr.wireWrite .w2 0x010000 [0]).wellFormed = false := by decide
/-- R145 (e): a block has at most 65 535 data bytes. -/
theorem test_illformed_write_data (n : Nat) (h : n = 2 ^ 16) :
    (Instr.wireWrite .w2 0 (List.replicate n 0)).wellFormed = false := by
  have hl : ¬ (List.replicate n (0 : Byte)).length < 2 ^ 16 := by rw [List.length_replicate]; omega
  simp only [Instr.wellFormed, decide_eq_false hl, Bool.and_false]
theorem test_wellformed_edge : (Instr.wireRead .w1 0xFF).wellFormed = true ∧ (Instr.wireWrite .w3 0xFFFFFF []).wellFormed = true := by
  decide

/-! ### Words written out from the encodings -/

/-- R97: `cmd_en` in bit 4, `cmd_op` in bits 3 to 0. -/
theorem test_word_begin : decodeTableWord 5 0b00000 = some .begin := by decide
theorem test_word_getAddrLen : decodeTableWord 5 0b00001 = some .getAddrLen := by decide
theorem test_word_setAddrLen :
    decodeCommand { word := 0b00010, addr := 0, data := 0x03, count := 0 } = .ok (.setAddrLen 3) := by decide
theorem test_word_writeEnableT : decodeTableWord 5 0b10011 = some .writeEnableT := by decide
theorem test_word_writeEnableF : decodeTableWord 5 0b00011 = some .writeEnableF := by decide
theorem test_word_write8 :
    decodeCommand { word := 0b00100, addr := 0x00012345, data := 0xA5, count := 7 } = .ok (.write8 0x00012345 0xA5) := by
  decide
theorem test_word_write :
    decodeCommand { word := 0b00101, addr := 0x10, data := 9, count := 0x0004 } = .ok (.write 0x10 4) := by decide
theorem test_word_read8 :
    decodeCommand { word := 0b10110, addr := 0xFF34, data := 1, count := 1 } = .ok (.read8 0xFF34) := by decide
theorem test_word_getDeviceId : decodeTableWord 5 0b00111 = some .getDeviceId := by decide
theorem test_word_getStatus : decodeTableWord 5 0b01000 = some .getStatus := by decide
theorem test_word_setStatus :
    decodeCommand { word := 0b01001, addr := 0, data := 0x80, count := 0 } = .ok (.setStatus 0x80) := by decide
/-- X4, R98. -/
theorem test_word_reserved :
    decodeCommand { word := 0b01010, addr := 0, data := 0, count := 0 } = .error (.reservedCommand 0xA) ∧
      decodeCommand { word := 0b11111, addr := 0, data := 0, count := 0 } = .error (.reservedCommand 0xF) := by decide
/-- R81 to R85: the binary column of R85. -/
theorem test_word_wireWren : decodeTableWord 8 0b00000110 = some .wireWren := by decide
theorem test_word_wireWrdi : decodeTableWord 8 0b00000100 = some .wireWrdi := by decide
theorem test_word_wireRdsr : decodeTableWord 8 0b00000101 = some .wireRdsr := by decide
theorem test_word_wireWrsr : decodeFrame .default 0 .w2 [0b00000001, 0x80] = .ok (.wireWrsr 0x80) := by decide
theorem test_word_wireRead : decodeFrame .default 0 .w2 [0b00000011, 0x12, 0x34, 0x00] = .ok (.wireRead .w2 0x1234) := by
  decide
theorem test_word_wireWrite :
    decodeFrame .default 0 .w1 [0b00000010, 0x34, 0x77] = .ok (.wireWrite .w1 0x34 [0x77]) := by decide
theorem test_word_wireRdid : decodeTableWord 8 0b10011111 = some .wireRdid := by decide
/-- R92: a frame of no format, an unknown opcode, a READ that ends inside its address. -/
theorem test_word_unknown :
    decodeFrame .default 0 .w2 [0x06, 0x00] = .error (.noFormat [0x06, 0x00]) ∧
      decodeFrame .default 0 .w2 [0xAB] = .error (.noFormat [0xAB]) ∧
      decodeFrame .default 0 .w3 [0x03, 0x12, 0x34] = .error (.noFormat [0x03, 0x12, 0x34]) := by decide

/-! ### The address field (A1 to A12) -/

theorem test_A1_A6 : addrBytes .w1 0x1234 = [0x34] ∧ addrBytes .w1 0x012345 = [0x45] := by decide
theorem test_A2_A5 : addrBytes .w2 0x1234 = [0x12, 0x34] ∧ addrBytes .w2 0x012345 = [0x23, 0x45] := by decide
theorem test_A4_A7 : addrBytes .w3 0x012345 = [0x01, 0x23, 0x45] ∧ addrBytes .w3 0xFF012345 = [0x01, 0x23, 0x45] := by
  decide
theorem test_A12 : widthOf 0 = none ∧ widthOf 4 = none ∧ widthOf 255 = none := by decide

/-! ### Configuration (C1 to C14, P1) -/

/-- C1. -/
theorem test_C1 : after (exec .getAddrLen State.reset) (fun t => (t.resp.data, t.bus.trace)) = some (2, []) := by decide +kernel
/-- C7. -/
theorem test_C7 : after (exec (.setAddrLen 255) State.reset) (fun t => (t.addrW, t.bus.trace)) = some (255, []) := by
  decide +kernel
/-- P1 step 2. -/
theorem test_P1_begin : newFrames State.reset .begin =
    some [[(0x9F, 0xFF), (0x00, 0x04), (0x00, 0x7F), (0x00, 0x03), (0x00, 0x02)]] := by decide +kernel
/-- P1: 167 events, 40 rising edges, R_OK, INIT. -/
theorem test_P1_events : after (exec .begin State.reset) (fun t =>
    (t.bus.trace.length, sckHighWrites t.bus.trace, t.resp.ok, t.init, t.bus.pins)) =
      some (167, 40, true, true, pinsSw) := by decide +kernel
/-- C9. -/
theorem test_C9 : after (exec .begin (constructHw 3 .loopback p1 none)) (fun t => t.bus.trace) = some
    [.pinMode .cs .out, .pinWrite .cs true, .hwInit { spiMode := 0, hz := 8000000, msbFirst := true },
      .pinWrite .cs false, .hwExchange 0x9F 0x9F, .hwExchange 0 0, .hwExchange 0 0, .hwExchange 0 0, .hwExchange 0 0,
      .pinWrite .cs true] := by decide +kernel

/-! ### Write control (W1 to W3, T8) -/

/-- W1 and W2. -/
theorem test_W1_W2 : newFrames (sw .fram p1) .writeEnableT = some [[(0x06, 0xFF)]] ∧
    newFrames (sw .fram p1) .writeEnableF = some [[(0x04, 0xFF)]] := by decide +kernel
/-- T8. -/
theorem test_T8 : after (exec .writeEnableT (sw .fram p1)) (fun t => t.bus.trace.map fun e =>
    match e with
    | .pinWrite .cs v => (0, v)
    | .pinWrite .sck v => (1, v)
    | .pinWrite .mosi v => (2, v)
    | .pinRead .miso v => (3, v)
    | _ => (4, false)) = some
      [(0, false), (1, false), (2, false), (1, true), (3, true), (1, false), (2, false), (1, true), (3, true),
        (1, false), (2, false), (1, true), (3, true), (1, false), (2, false), (1, true), (3, true),
        (1, false), (2, false), (1, true), (3, true), (1, false), (2, true), (1, true), (3, true),
        (1, false), (2, true), (1, true), (3, true), (1, false), (2, false), (1, true), (3, true), (0, true)] := by
  decide +kernel

/-! ### Memory access (M1 to M15) -/

/-- M1 and M2. -/
theorem test_M1_M2 : sent (sw .fram p1) (.write8 0x0010 0xA5) = some [[0x02, 0x00, 0x10, 0xA5]] ∧
    sent { sw .fram p1 with addrW := 1 } (.write8 0x1234 0x77) = some [[0x02, 0x34, 0x77]] := by decide +kernel
/-- M5. -/
theorem test_M5 : sent { sw .fram p1 with wdat := [0xDE, 0xAD, 0xBE, 0xEF] } (.write 0x0010 4) =
    some [[0x02, 0x00, 0x10, 0xDE, 0xAD, 0xBE, 0xEF]] := by decide +kernel
/-- M6. -/
theorem test_M6 : after (exec (.write 0x0010 0) (sw .fram (fram .w2 65536 false)))
    (fun t => (t.bus.frames.map (fun f => f.map Prod.fst), t.bus.chip.mem)) = some ([[0x02, 0x00, 0x10]], []) := by decide +kernel
/-- M10, by R66 and S1. -/
theorem test_M10 : after (exec (.read8 0xFF34) { sw .fram { fram .w1 256 false with mem := [(0x34, 0x77)] } with addrW := 1 })
    (fun t => (t.bus.frames, t.resp.data)) = some ([[(0x03, 0xFF), (0x34, 0xFF), (0x00, 0x77)]], 0x77) := by decide +kernel
/-- M11. -/
theorem test_M11 : after (exec (.read8 0x1234) (sw .loopback p1)) (fun t => (t.bus.frames, t.resp.data)) =
    some ([[(0x03, 0x03), (0x12, 0x12), (0x34, 0x34), (0x00, 0x00)]], 0x00) := by decide +kernel
/-- M13 and M14. -/
theorem test_M13_M14 : faulted (exec (.read8 0) { sw .fram p1 with addrW := 4 }) = some (.malformedWidth 4) ∧
    faulted (exec (.write8 0 0) { sw .fram p1 with addrW := 0 }) = some (.malformedWidth 0) := by decide +kernel
/-- X1. -/
theorem test_X1 : faulted (exec (.write 0 1) { sw .fram p1 with addrW := 4, wdat := [1] }) =
    some (.malformedWidth 4) := by decide +kernel
/-- M15 and X2: `NotInitialised` takes precedence. -/
theorem test_M15_X2 : refused (exec (.read8 0) State.reset) = some (.notInitialised .read8) ∧
    refused (exec (.read8 0) { State.reset with addrW := 4 }) = some (.notInitialised .read8) := by decide +kernel
/-- P2 step 4: the write lands, and the latch is cleared. -/
theorem test_P2_step4 : after (exec (.write8 0x012345 0xA5)
    { hw .fram { fram .w3 131072 true with wel := true } none with addrW := 3 })
      (fun t => (t.bus.chip.mem, t.bus.chip.wel)) = some ([(0x012345, 0xA5)], false) := by decide +kernel
/-- P2 step 6: without WRITEENABLE.T the device ignores the frame, which is emitted all the same. -/
theorem test_P2_step6 : after (exec (.write8 0x012346 0x5A) { hw .fram (fram .w3 131072 true) none with addrW := 3 })
    (fun t => (t.bus.frames.map (fun f => f.map Prod.fst), t.bus.chip.mem)) =
      some ([[0x02, 0x01, 0x23, 0x46, 0x5A]], []) := by decide +kernel
/-- P3 step 2, with the first cell at the top of the device: the second byte wraps (R64). -/
theorem test_block_wraps : after (exec (.write 0xFFFF 2)
    { sw .fram { fram .w2 65536 true with wel := true } with wdat := [0xDE, 0xAD] }) (fun t => t.bus.chip.mem) =
      some [(0x0000, 0xAD), (0xFFFF, 0xDE)] := by decide +kernel
/-- X5: the hang, in hardware mode, in the first address byte. -/
theorem test_X5 : after (exec (.read8 0) (hw .fram p1 (some 1)))
    (fun t => (t.busy, t.seq, t.bus.pins.cs.latch, t.bus.hwx.pending)) = some (true, .addr 1, false, some 0x00) := by
  decide +kernel

/-! ### Identification and status (I1 to I11) -/

/-- I5: the byte shuffle. -/
theorem test_I5 : after (exec .getDeviceId
    (sw .fram (.initial { ChipParams.p1 with id0 := 0x12, id1 := 0xFF, id2 := 0x80, id3 := 0x01 })))
      (fun t => (t.bus.frames, t.resp.mfg, t.resp.prod)) =
        some ([[(0x9F, 0xFF), (0x00, 0x12), (0x00, 0xFF), (0x00, 0x80), (0x00, 0x01)]], 0x12, 0x8001) := by decide +kernel
/-- I8. -/
theorem test_I8 : after (exec .getStatus (hw .fram { p1 with sr := 0x42 } none)) (fun t => (t.bus.frames, t.resp.data)) =
    some ([[(0x05, 0xFF), (0x00, 0x42)]], 0x42) := by decide +kernel
/-- I10, and P5 steps 2 and 5. -/
theorem test_I10_P5 : after (exec (.setStatus 0x80) (sw .fram p1)) (fun t => (t.bus.frames, t.bus.chip.sr)) =
      some ([[(0x01, 0xFF), (0x80, 0xFF)]], 0x00) ∧
    after (exec (.setStatus 0x80) (sw .fram { p1 with wel := true })) (fun t => t.bus.chip.sr) = some 0x80 := by decide +kernel

/-! ### The exchange (T1, T2) -/

/-- A bus in the middle of an RDSR frame whose status byte is `v`. -/
def answering (v : Byte) : Bus :=
  { (sw .fram { p1 with sr := v, opc := 0x05, rxn := 1 }).bus with
    pins := { pinsSw with cs := { dir := .out, latch := false } } }

/-- T1: the MOSI levels and the result. -/
theorem test_T1 : (xferSW .default 0xA5 (answering 0xC3)).1 = 0xC3 ∧
    (xferSW .default 0xA5 (answering 0xC3)).2.trace.filterMap (fun e =>
      match e with
      | .pinWrite .mosi v => some v
      | _ => none) = [true, false, true, false, false, true, false, true] := by decide +kernel
/-- T5 and T6: which sample is which bit. -/
theorem test_T5_T6 : (xferSW .default 0x80 (answering 0x01)).1 = 0x01 ∧
    (xferSW .default 0x80 (answering 0x01)).2.trace.filterMap (fun e =>
      match e with
      | .pinRead .miso v => some v
      | _ => none) = [false, false, false, false, false, false, false, true] := by decide +kernel
/-- The hardware exchange gives the same result on the same samples (R193). -/
theorem test_hw_T1 : (hwExchange .default 0xA5 { answering 0xC3 with
    hwx := { settings := some { spiMode := 0, hz := 8000000, msbFirst := true }, pending := none, budget := none } }).map
      Prod.fst = some 0xC3 := by decide +kernel

/-! ### The wire rows -/

/-- R61: a READ frame of the wire delivers the byte. -/
theorem test_wire_read : newFrames (sw .fram { p1 with mem := [(0x1234, 0x5A)] }) (.wireRead .w2 0x1234) =
    some [[(0x03, 0xFF), (0x12, 0xFF), (0x34, 0xFF), (0x00, 0x5A)]] := by decide +kernel
/-- R62: WREN sets the latch, and a WRITE frame then commits. -/
theorem test_wire_wren : after (exec .wireWren State.reset) (fun t => t.bus.chip.wel) = some true := by decide +kernel
theorem test_wire_write : after (exec (.wireWrite .w2 0x0010 [0xDE, 0xAD]) (sw .fram { p1 with wel := true }))
    (fun t => t.bus.chip.mem) = some [(0x10, 0xDE), (0x11, 0xAD)] := by decide +kernel

/-- The inputs of a block: one frame of another master. -/
def presenting (bytes : List Byte) (s : State) : State := { s with inbox := [{ agent := .second, enc := .frame bytes }] }

/-- R64, last clause of the exchange: an unused opcode is answered with undriven bytes, in conduct `strict` too. -/
theorem test_no_format_runs : after (step (presenting [0xAB, 0x01] (sw .fram p1))) (fun t => t.bus.frames) =
    some [[(0xAB, 0xFF), (0x01, 0xFF)]] := by decide +kernel
/-- R64: WREN with a byte too many does not set the latch; a READ of two bytes reads on at the next address. -/
theorem test_no_format_device :
    after (step (presenting [0x06, 0x00] (sw .fram p1))) (fun t => t.bus.chip.wel) = some false ∧
    after (step (presenting [0x03, 0x00, 0x10, 0, 0] (sw .fram { p1 with mem := [(0x10, 0xDE), (0x11, 0xAD)] })))
      (fun t => t.bus.frames) = some [[(0x03, 0xFF), (0x00, 0xFF), (0x10, 0xFF), (0, 0xDE), (0, 0xAD)]] := by
  decide +kernel

/-- R56: an unknown device is an oracle that sees the wires, which carry the address: two READ8 leave two histories. -/
theorem test_oracle_sees_address : after (exec (.read8 0) (sw .arbitrary p1)) (fun t => t.bus.seen) ≠
    after (exec (.read8 1) (sw .arbitrary p1)) (fun t => t.bus.seen) := by decide +kernel
/-- R188: the wires of WRITEENABLE.T, the pulses of 0x06 in one CS pair. -/
theorem test_wires : after (exec .writeEnableT (sw .arbitrary p1)) (fun t => t.bus.seen) = some
    ([.cs false] ++ [false, false, false, false, false, true, true, false].flatMap (fun d =>
      [.sck false, .mosi d, .sck true]) ++ [.cs true]) := by decide +kernel

/-- `s` with `rst` presented. -/
def resetting (s : State) : State := { s with inbox := [{ agent := .primary, enc := .rst }] }

/-- R39, R230: `rst` on an initialised block with another width clears INIT, restores ADDR_W and releases the pins; the
device's latch and memory stay, and the history of the wires goes on. -/
theorem test_rst :
    after (step (resetting { sw .fram p1 with addrW := 3 })) (fun t => (t.addrW, t.init, wire t.bus.pins.cs)) =
      some (2, false, none) ∧
    after (step (resetting (sw .fram { p1 with wel := true, mem := [(5, 7)] })))
      (fun t => (t.bus.chip.wel, memRead t.bus.chip.mem 5)) = some (true, 7) ∧
    after (step (resetting (sw .fram p1))) (fun t => t.bus.seen) = some [.released] := by decide
/-- R232, D8: `rst` has no move while WRITE waits for data; the operation is still there, and so is `rst`. -/
theorem test_rst_busy : after (exec (.write 0 1) (resetting (sw .fram p1)))
    (fun s => after (step s) (fun t => (t.busy, t.init, t.seq, t.inbox.length))) =
    some (some (true, true, .data 0, 1)) := by decide +kernel
/-- Both clauses' hypotheses: an idle block and a busy one with `rst` at the head of the inputs. -/
theorem test_witness_ConstructionValues_rst : (resetting (sw .fram p1)).busy = false ∧
    (resetting (sw .fram p1)).inbox = { agent := .primary, enc := .rst } :: [] ∧
    { resetting (sw .fram p1) with busy := true }.busy = true ∧
    { resetting (sw .fram p1) with busy := true }.inbox = { agent := .primary, enc := .rst } :: [] := ⟨rfl, rfl, rfl, rfl⟩

/-! ### The step, and the host's word -/

/-- BEGIN as the first instruction after reset. -/
theorem test_step_begin : after (step (State.reset.withFetchWord 5 0)) (fun t => t.init) = some true := by decide +kernel
theorem test_step_wire : after (step (State.reset.withFetchWord 8 0x06)) (fun t => t.bus.chip.wel) = some true := by
  decide +kernel
theorem test_step_refused : refused (step (State.reset.withFetchWord 5 8)) =
    some (.notInitialised .getStatus) := by decide +kernel
theorem test_reset_wf : Memory.wf State.reset.bus.chip.mem = true := by decide +kernel

/-! ### Memory -/

/-- Writing what an unlisted address reads as removes the entry. -/
theorem test_mem_remove : memWrite [(1, 5), (2, 6)] 1 memDefault = [(2, 6)] := by decide +kernel
theorem test_mem_wf_refuses : Memory.wf [(2, 6), (1, 5)] = false ∧ Memory.wf [(1, memDefault)] = false := by decide +kernel

/-! ### Witnesses: a state and operands that meet the hypotheses of each statement -/

/-- Software and hardware mode, initialised, and an uninitialised block that goes on. -/
theorem test_admitted : Admitted (sw .fram p1) ∧ Admitted (hw .fram p1 none) ∧ Admitted (free State.reset) := by decide

/-- The conditions the statements about RefFRAM share. -/
abbrev FramReady (s : State) : Prop :=
  Admitted s ∧ BusReady s ∧ s.bus.wiring = .fram ∧ s.params.opc.Distinct ∧ Memory.wf s.bus.chip.mem = true ∧
    widthOf s.addrW = some s.bus.chip.params.aw

/-- P1's device with its latch set, in hardware mode with a bounded peripheral, and with a stream. -/
def hwAccepting : State := { hw .fram { p1 with wel := true } (some 5) with wdat := [0xDE, 0xAD] }
/-- The same in software mode. -/
def swAccepting : State := { sw .fram { p1 with wel := true } with wdat := [0xDE, 0xAD] }

/-- Both engines last for any number of exchanges; a bounded peripheral lasts for exactly its budget. -/
theorem test_lasts_sw : ∀ n, engineLasts n (sw .fram p1) = true := fun _ => rfl
theorem test_lasts_hw : ∀ n, engineLasts n (hw .fram p1 none) = true := fun _ => rfl
theorem test_lasts_edge : engineLasts 5 (hw .fram p1 (some 5)) = true ∧ engineLasts 6 (hw .fram p1 (some 5)) = false := by
  decide

theorem test_witness_DecodeEncodeRoundTrip : Opcodes.default.Distinct ∧ (Instr.wireRead .w3 0xFFFFFF).wellFormed = true ∧
    widthMatches .w3 (.wireRead .w3 0xFFFFFF) = true ∧ (Instr.wireWrite .w1 0xFF [0]).wellFormed = true ∧
    widthMatches .w1 (.wireWrite .w1 0xFF [0]) = true := by decide
theorem test_witness_FrameHasOneMeaning :
    decode .default 0 .w2 (.frame [0x02, 0xFF, 0xFF]) = .ok (.wireWrite .w2 0xFFFF []) := by decide
/-- Every row of R97's table has a word, `cmd_en` set and clear. -/
theorem test_witness_CommandWordTable_rows :
    ∀ k : BitVec 4, cmdOp (0#1 ++ k) = k ∧ cmdEn (0#1 ++ k) = false ∧ cmdOp (1#1 ++ k) = k ∧ cmdEn (1#1 ++ k) = true := by
  decide
/-- Both sides of code 10, and code 3. -/
theorem test_witness_CommandWordTable : (cmdOp 0b11001).toNat < 10 ∧ 10 ≤ (cmdOp 0b01010).toNat ∧
    (cmdOp 0b10101).toNat ≠ 3 ∧ cmdOp 0b00101 = cmdOp 0b10101 ∧
    decodeCommand { word := 0b10011, addr := 0, data := 0, count := 0 } ≠
      decodeCommand { word := 0b00011, addr := 0, data := 0, count := 0 } := by decide
/-- The first and the last byte of a three-byte field; the smallest and largest width registers around 1, 2, 3. -/
theorem test_witness_AddressFieldBytes : 2 < AddrWidth.w3.bytes ∧ widthOf 1 = some .w1 ∧ widthOf 3 = some .w3 ∧
    widthOf 0 = none ∧ widthOf 4 = none := by decide
theorem test_witness_InvAtReset : Memory.wf p1.mem = true ∧ Memory.wf [(0, 1), (65535, 0xFF)] = true := by decide

/-- The word the host presents. -/
def word (w : BitVec 5) : Encoded := commandOf w 0 0 0

theorem test_witness_StepRunsDecoded :
    ∃ (s : State) (e : Entry) (rest : List Entry) (i : Instr),
      s.busy = false ∧ s.inbox = e :: rest ∧ decodeInput s e.enc = .ok i :=
  ⟨State.reset.withFetchWord 5 0, { agent := .primary, enc := word 0 }, [], .begin, rfl, rfl, by decide⟩
theorem test_witness_IdleBlockWaits : State.reset.busy = false ∧ State.reset.inbox = [] := by decide
theorem test_witness_ReservedCommandWord :
    ∃ (s : State) (c : Command), s.busy = false ∧ s.inbox = [{ agent := .primary, enc := .command c }] ∧
      10 ≤ (cmdOp c.word).toNat ∧ s.params.conduct = .strict ∧ (free s).params.conduct = .hardware :=
  ⟨State.reset.withFetchWord 5 10, { word := 10, addr := 0, data := 0, count := 0 }, rfl, rfl, by decide, rfl, rfl⟩

theorem test_witness_StepKeepsInv : BlockInv State.reset ∧ BlockInv (sw .fram p1) ∧ BlockInv (hw .fram p1 none) ∧
    ∃ t, step State.reset = .next t := by
  refine ⟨?_, ?_, ?_, _, rfl⟩ <;> unfold BlockInv <;> decide
/-- A step that runs an operation, and one of a block in the middle of one. -/
theorem test_witness_steps : (∃ t, step (State.reset.withFetchWord 5 0) = .next t) ∧
    ∃ (s t : State), s.busy = true ∧ step s = .next t :=
  ⟨⟨_, rfl⟩, { State.reset with busy := true }, _, rfl, rfl⟩
theorem test_witness_OnlySetAddrLenWritesAddrW : (∃ t, exec (.setAddrLen 3) State.reset = .next t) ∧
    ∃ t, exec .getAddrLen State.reset = .next t := ⟨⟨_, rfl⟩, _, rfl⟩
theorem test_witness_InitSetByBeginOnly : (∃ t, exec .begin State.reset = .next t) ∧
    ∃ t, exec .writeEnableT (sw .fram p1) = .next t := ⟨⟨_, rfl⟩, _, rfl⟩
/-- Blocks in the middle of a frame, with the opcode sent, and with the opcode to do. -/
theorem test_witness_OpcodeInv : (OpcodeInv State.reset ∧ State.reset.busy = false) ∧
    ∃ s1 s2 : State, OpcodeInv s1 ∧ s1.busy = true ∧ (∃ t, step s1 = .next t) ∧ OpcodeInv s2 ∧ s2.busy = true ∧
      ∃ t f, step s2 = .next t ∧ t.bus.frames = s2.bus.frames ++ [f] := by
  refine ⟨⟨(fun h => nomatch h), rfl⟩, { hw .fram p1 (some 0) with busy := true, todo := [opcBeat 0x06] },
    { sw .loopback p1 with busy := true, todo := [], bus := { (sw .loopback p1).bus with frame := [(0x06, 0x06)] } },
    fun _ => .inr ⟨rfl, 0x06, [], rfl, by decide⟩, rfl, ⟨_, rfl⟩, fun _ => .inl ⟨(0x06, 0x06), rfl, by decide⟩, rfl,
    _, [(0x06, 0x06)], rfl, by decide +kernel⟩
theorem test_witness_OnlyBeginChangesDirections : Instr.wireRdid ≠ .begin ∧
    ∃ t, exec .wireRdid State.reset = .next t := ⟨by decide, _, rfl⟩
/-- A host operation that completes one frame from a state without frames. -/
theorem test_witness_OnlyKnownOpcodesEmitted : isWire .writeEnableT = false ∧
    newFrames (sw .loopback p1) .writeEnableT = some ((sw .loopback p1).bus.frames ++ [[(0x06, 0x06)]]) := by
  decide +kernel
theorem test_witness_NotInitialisedTakesPrecedence : pinOpOf (.read8 0) = some .read8 ∧ State.reset.busy = false ∧
    State.reset.init = false ∧ State.reset.params.conduct = .strict := by decide
theorem test_witness_OverlapWhileBusy :
    ∃ (s : State) (c : Command), s.busy = true ∧ s.params.conduct = .strict ∧
      (free s).busy = true ∧ (free s).params.conduct = .hardware ∧ isWire .getStatus = false ∧
      s.inbox = [{ agent := .second, enc := .command c }] ∧
      (presenting [0x06] s).busy = true ∧ (presenting [0x06] s).params.conduct = .strict ∧
      (presenting [0x06] (free s)).busy = true ∧ (presenting [0x06] (free s)).params.conduct = .hardware ∧
      { s with inbox := [{ agent := .primary, enc := .command c }] }.busy = true :=
  ⟨{ State.reset with
      busy := true, inbox := [{ agent := .second, enc := .command { word := 0, addr := 0, data := 0, count := 0 } }] },
    { word := 0, addr := 0, data := 0, count := 0 }, rfl, rfl, rfl, rfl, rfl, rfl, rfl, rfl, rfl, rfl, rfl⟩
/-- The widths next to the legal ones. -/
theorem test_witness_MalformedWidthFaults :
    (Admitted { sw .fram p1 with addrW := 4 } ∧ { sw .fram p1 with addrW := 4 }.params.conduct = .strict ∧
      widthOf { sw .fram p1 with addrW := 4 }.addrW = none ∧ engineLasts 1 { sw .fram p1 with addrW := 4 } = true) ∧
    (Admitted { hw .fram p1 (some 1) with addrW := 0 } ∧ widthOf { hw .fram p1 (some 1) with addrW := 0 }.addrW = none ∧
      engineLasts 1 { hw .fram p1 (some 1) with addrW := 0 } = true) := by decide
/-- In both modes, at the widths next to the legal ones; WRITE of a whole stream. -/
theorem test_witness_MalformedWidthHardwareCompletes :
    ((free { swAccepting with addrW := 0 }).busy = false ∧
      (free { swAccepting with addrW := 0 }).params.conduct = .hardware ∧
      (∀ n, engineLasts n (free { swAccepting with addrW := 0 }) = true) ∧
      widthOf (free { swAccepting with addrW := 0 }).addrW = none ∧
      (2 : Half).toNat ≤ (free { swAccepting with addrW := 0 }).wdat.length) ∧
    ((free { hw .fram p1 none with addrW := 4 }).busy = false ∧
      (free { hw .fram p1 none with addrW := 4 }).params.conduct = .hardware ∧
      (∀ n, engineLasts n (free { hw .fram p1 none with addrW := 4 }) = true) ∧
      widthOf (free { hw .fram p1 none with addrW := 4 }).addrW = none) :=
  ⟨⟨rfl, rfl, fun _ => rfl, rfl, by decide⟩, rfl, rfl, fun _ => rfl, rfl⟩

/-- A run from construction with one input, BEGIN, and a run of no step. -/
theorem test_witness_GetAddrLenReturnsWidth :
    (∀ e ∈ [({ agent := .primary, enc := word 0 } : Entry)], ∀ m, decodeInput State.reset e.enc ≠ .ok (.setAddrLen m)) ∧
    (runSteps 1 { State.reset with inbox := [{ agent := .primary, enc := word 0 }], wdat := [] }).map
      (fun s => (s.busy, s.init)) = some (false, true) ∧ runSteps 0 State.reset = some State.reset := by
  refine ⟨fun e he m => ?_, by decide +kernel, rfl⟩
  simp only [List.mem_singleton] at he
  subst he
  exact fun h => nomatch h

/-- GETADDRLEN, SETADDRLEN and BEGIN: an idle block, initialised or not, with any width. -/
theorem test_witness_idle : (cmdOp 0b10001).toNat = 1 ∧ State.reset.busy = false ∧ (sw .fram p1).busy = false ∧
    engineLasts 5 State.reset = true ∧ engineLasts 5 (hw .fram p1 (some 5)) = true ∧
    State.reset.params.opc.Distinct ∧ wire State.reset.bus.pins.cs ≠ some false ∧
    wire (sw .fram p1).bus.pins.cs ≠ some false := by decide
/-- The operations whose format reads no width, at a width that is none. -/
theorem test_witness_fixed_formats : Admitted { hw .fram p1 (some 5) with addrW := 7 } ∧
    engineLasts 1 { hw .fram p1 (some 5) with addrW := 7 } = true ∧
    engineLasts 2 { hw .fram p1 (some 5) with addrW := 7 } = true ∧
    engineLasts 5 { hw .fram p1 (some 5) with addrW := 7 } = true := by decide
/-- The addressed operations at the least and the greatest width, in both modes. -/
theorem test_witness_addressed :
    (Admitted { sw .fram p1 with addrW := 1 } ∧ widthOf { sw .fram p1 with addrW := 1 }.addrW = some .w1 ∧
      engineLasts (2 + AddrWidth.w1.bytes) { sw .fram p1 with addrW := 1 } = true) ∧
    (Admitted { hw .fram p1 (some 5) with addrW := 3 } ∧ widthOf { hw .fram p1 (some 5) with addrW := 3 }.addrW = some .w3 ∧
      engineLasts (2 + AddrWidth.w3.bytes) { hw .fram p1 (some 5) with addrW := 3 } = true) := by decide
/-- WRITE of no byte and of two, with the stream full; a stream of one byte for WRITE of one. -/
theorem test_witness_WriteEmitsFrame :
    (Admitted (sw .fram p1) ∧ widthOf (sw .fram p1).addrW = some .w2 ∧ (0 : Half).toNat ≤ (sw .fram p1).wdat.length ∧
      engineLasts (1 + AddrWidth.w2.bytes + (0 : Half).toNat) (sw .fram p1) = true) ∧
    (Admitted hwAccepting ∧ widthOf hwAccepting.addrW = some .w2 ∧ (2 : Half).toNat ≤ hwAccepting.wdat.length ∧
      engineLasts (1 + AddrWidth.w2.bytes + (2 : Half).toNat) hwAccepting = true) := by decide
theorem test_witness_WriteOfOneIsWrite8 : Admitted swAccepting ∧ widthOf swAccepting.addrW = some .w2 ∧
    engineLasts (2 + AddrWidth.w2.bytes) swAccepting = true ∧ swAccepting.wdat = 0xDE :: [0xAD] := by decide
/-- Two addresses of one byte at width 1. -/
theorem test_witness_AddressesAlias :
    Admitted { sw .fram p1 with addrW := 1 } ∧ widthOf { sw .fram p1 with addrW := 1 }.addrW = some .w1 ∧
    engineLasts (2 + AddrWidth.w1.bytes) { sw .fram p1 with addrW := 1 } = true ∧
    (0x1234 : Addr).toNat % 2 ^ (8 * AddrWidth.w1.bytes) = (0xFF34 : Addr).toNat % 2 ^ (8 * AddrWidth.w1.bytes) ∧
    (0 : Half).toNat ≤ { sw .fram p1 with addrW := 1 }.wdat.length ∧
    engineLasts (1 + AddrWidth.w1.bytes + (0 : Half).toNat) { sw .fram p1 with addrW := 1 } = true := by decide
/-- A host operation with its bytes: the statements over `opBytes`. -/
theorem test_witness_opBytes :
    (opBytes (sw .fram p1) (.read8 0x1234) = some [0x03, 0x12, 0x34, 0x00] ∧ Admitted (sw .fram p1) ∧
      BusReady (sw .fram p1) ∧ (sw .fram p1).bus.wiring = .fram ∧ streamFull (sw .fram p1) (.read8 0x1234) = true ∧
      engineLasts 4 (sw .fram p1) = true) ∧
    (opBytes hwAccepting (.write 0x1234 2) = some [0x02, 0x12, 0x34, 0xDE, 0xAD] ∧ Admitted hwAccepting ∧
      BusReady hwAccepting ∧ hwAccepting.bus.wiring = .fram ∧ streamFull hwAccepting (.write 0x1234 2) = true ∧
      engineLasts 5 hwAccepting = true) := by decide
/-- BEGIN whose peripheral completes no exchange of its probe, or all but the last. -/
theorem test_witness_HangInExchange_begin :
    (constructHw 3 .fram p1 (some 0)).busy = false ∧ (constructHw 3 .fram p1 (some 0)).params.mode = .hw ∧
    (constructHw 3 .fram p1 (some 0)).bus.hwx.budget = some 0 ∧ (constructHw 3 .fram p1 (some 4)).bus.hwx.budget = some 4 ∧
    4 < (probeBytes (constructHw 3 .fram p1 (some 4)).params).length := by decide
/-- No exchange, or all but the last, completes. -/
theorem test_witness_HangInExchange :
    (opBytes (hw .fram p1 (some 0)) (.read8 0) = some [0x03, 0, 0, 0] ∧ Admitted (hw .fram p1 (some 0)) ∧
      streamFull (hw .fram p1 (some 0)) (.read8 0) = true ∧ (hw .fram p1 (some 0)).params.mode = .hw ∧
      (hw .fram p1 (some 0)).bus.hwx.budget = some 0 ∧ 0 < ([0x03, 0, 0, 0] : List Byte).length) ∧
    (opBytes (hw .fram p1 (some 3)) (.read8 0) = some [0x03, 0, 0, 0] ∧ Admitted (hw .fram p1 (some 3)) ∧
      streamFull (hw .fram p1 (some 3)) (.read8 0) = true ∧ (hw .fram p1 (some 3)).params.mode = .hw ∧
      (hw .fram p1 (some 3)).bus.hwx.budget = some 3 ∧ 3 < ([0x03, 0, 0, 0] : List Byte).length) := by decide
theorem test_witness_HangIsPermanent :
    ∃ s : State, s.busy = true ∧ s.params.mode = .hw ∧ s.bus.hwx.budget = some 0 ∧
      s.todo = .byte .opc 0x06 false :: [] ∧ ∀ e ∈ s.inbox, e.agent = .primary ∧ ∃ c, e.enc = .command c :=
  ⟨{ hw .fram p1 (some 0) with busy := true, todo := [.byte .opc 0x06 false] }, rfl, rfl, rfl, rfl, by
    intro e h; cases h⟩
theorem test_witness_WriteWaitsForData : Admitted { sw .fram p1 with wdat := [1] } ∧
    widthOf { sw .fram p1 with wdat := [1] }.addrW = some .w2 ∧
    { sw .fram p1 with wdat := [1] }.wdat.length < (2 : Half).toNat ∧
    engineLasts (1 + AddrWidth.w2.bytes + (2 : Half).toNat) { sw .fram p1 with wdat := [1] } = true := by decide
/-- Two parameter sets for one bus, inside a frame. -/
theorem test_witness_StrategiesEquivalent :
    ∃ (p q : Params) (b : Bus), p.mode = .sw ∧ q.mode = .hw ∧ p.opc = q.opc ∧ pinsConfigured p b = true ∧
      pinsConfigured q b = true ∧ b.pins.cs.latch = false ∧ b.hwx.budget ≠ some 0 :=
  ⟨(sw .fram p1).params, (hw .fram p1 none).params,
    { answering 0xC3 with
      hwx := { settings := some { spiMode := 0, hz := 8000000, msbFirst := true }, pending := none, budget := none } },
    by decide⟩
theorem test_witness_StrategiesEquivalent_oracle : (sw .arbitrary p1).bus.wiring = .arbitrary ∧
    (sw .arbitrary p1).bus.pins.sck.dir = .out ∧ (sw .arbitrary p1).bus.pins.mosi.dir = .out := ⟨rfl, rfl, rfl⟩
/-- BEGIN at RefFRAM, from reset and again. -/
theorem test_witness_HostOperationsRefineFrames_begin :
    (State.reset.busy = false ∧ State.reset.bus.wiring = .fram ∧ wire State.reset.bus.pins.cs ≠ some false ∧
      engineLasts 5 State.reset = true) ∧
    ((hw .fram p1 (some 5)).busy = false ∧ (hw .fram p1 (some 5)).bus.wiring = .fram ∧
      wire (hw .fram p1 (some 5)).bus.pins.cs ≠ some false ∧ engineLasts 5 (hw .fram p1 (some 5)) = true) := by decide
/-- A frame of no format, and an opcode that is none of the seven. -/
theorem test_witness_AnyFrameActsOnDevice : (presenting [0xAB] State.reset).busy = false ∧
    (presenting [0xAB] State.reset).inbox = { agent := .second, enc := .frame [0xAB] } :: [] ∧
    State.reset.bus.wiring = .fram ∧ (0xAB : Byte) ∉ Opcodes.default.toList ∧
    State.reset.bus.chip.params.undriven = some 0xFF := by decide
theorem test_witness_LoopbackEchoes : (sw .loopback p1).bus.wiring = .loopback ∧
    pinsConfigured (sw .loopback p1).params (sw .loopback p1).bus = true ∧ (sw .loopback p1).bus.hwx.budget ≠ some 0 ∧
    BusReady (sw .loopback p1) ∧ Admitted (sw .loopback p1) ∧ widthOf (sw .loopback p1).addrW = some .w2 ∧
    engineLasts (5 + AddrWidth.w2.bytes) (sw .loopback p1) = true := by decide
theorem test_witness_CanonicalMemoryIsExtensional : Memory.wf [(1, 2)] = true ∧
    ∀ a, memRead [(1, 2)] a = memRead [(1, 2)] a := ⟨by decide, fun _ => rfl⟩
theorem test_witness_WireFramesLeaveBlockAlone : isWire .wireRdid = true ∧ State.reset.busy = false ∧
    State.reset.bus.wiring = .fram ∧ State.reset.params.opc.Distinct ∧
    addrFits State.reset.bus.chip.params.aw 0xFFFF = true ∧ Memory.wf State.reset.bus.chip.mem = true := by decide
theorem test_witness_NonStoringOperationsKeepMemory : isWire .getStatus = false ∧ (sw .fram p1).busy = false ∧
    BusReady (sw .fram p1) ∧ (sw .fram p1).params.opc.Distinct ∧ ∃ t, exec .getStatus (sw .fram p1) = .next t :=
  ⟨rfl, rfl, by decide, by decide, _, rfl⟩
theorem test_witness_WaitingWriteCommitsNothing :
    BusReady (sw .fram p1) ∧ (sw .fram p1).busy = false ∧
      ∃ t, exec (.write 0 1) (sw .fram p1) = .next t ∧ t.busy = true :=
  ⟨by decide, rfl, _, rfl, by decide +kernel⟩
/-- A device that accepts a write: its latch set, or none required. -/
theorem test_witness_Write8StoresOneByte : FramReady hwAccepting ∧
    engineLasts (2 + hwAccepting.bus.chip.params.aw.bytes) hwAccepting = true := by decide
/-- WRITE of both bytes of the stream, and of none. -/
theorem test_witness_WriteStoresBlock : FramReady hwAccepting ∧ (2 : Half).toNat ≤ hwAccepting.wdat.length ∧
    engineLasts (1 + hwAccepting.bus.chip.params.aw.bytes + (2 : Half).toNat) hwAccepting = true ∧
    (0 : Half).toNat ≤ hwAccepting.wdat.length := by decide
theorem test_witness_SetStatusStores : FramReady hwAccepting ∧ engineLasts 2 hwAccepting = true := by decide
/-- A device whose latch is set, and one that requires none. -/
theorem test_witness_Write8Read8RoundTrip :
    (FramReady swAccepting ∧ (∀ n, engineLasts n swAccepting = true) ∧ chipAccepts swAccepting.bus.chip = true) ∧
    (FramReady (hw .fram (fram .w2 65536 false) none) ∧
      (∀ n, engineLasts n (hw .fram (fram .w2 65536 false) none) = true) ∧
      chipAccepts (hw .fram (fram .w2 65536 false) none).bus.chip = true) :=
  ⟨⟨by decide, fun _ => rfl, by decide⟩, by decide, fun _ => rfl, by decide⟩
/-- A block that ends at the top of the device and of the field. -/
theorem test_witness_WriteRead8BlockRoundTrip :
    FramReady swAccepting ∧ (∀ n, engineLasts n swAccepting = true) ∧ chipAccepts swAccepting.bus.chip = true ∧
    (2 : Half).toNat ≤ swAccepting.wdat.length ∧
    (0xFFFE : Addr).toNat + (2 : Half).toNat ≤ 2 ^ (8 * swAccepting.bus.chip.params.aw.bytes) ∧
    (0xFFFE : Addr).toNat + (2 : Half).toNat ≤ swAccepting.bus.chip.params.memBytes :=
  ⟨by decide, fun _ => rfl, by decide, by decide, by decide, by decide⟩
theorem test_witness_WriteEnableMakesWriteLand :
    FramReady (sw .fram p1) ∧ (∀ n, engineLasts n (sw .fram p1) = true) ∧
    (sw .fram p1).bus.chip.params.requireWel = true ∧ (sw .fram p1).bus.chip.wel = false :=
  ⟨by decide, fun _ => rfl, rfl, rfl⟩
theorem test_witness_StalledWriteResumes : Admitted swAccepting ∧ widthOf swAccepting.addrW = some .w2 ∧
    (∀ n, engineLasts n swAccepting = true) ∧ swAccepting.inbox = [] ∧ swAccepting.wdat = [0xDE, 0xAD] ∧
    ([0xDE, 0xAD] : List Byte).length < (3 : Half).toNat ∧
    (3 : Half).toNat ≤ ([0xDE, 0xAD] : List Byte).length + ([0xBE] : List Byte).length :=
  ⟨by decide, rfl, fun _ => rfl, rfl, rfl, by decide, by decide⟩
end Sys2Proof.Tests
end

/-! ## Proofs of the family 00_scope: the traces only grow -/

namespace Sys2Proof.Machine

/-- From the bus `b` to a later bus `b'` pin events are only appended, and at most one completed frame is (R10). -/
structure TracesGrow (b b' : Bus) : Prop where
  trace : ∃ es, b'.trace = b.trace ++ es
  frames : b'.frames = b.frames ∨ ∃ f, b'.frames = b.frames ++ [f]

theorem TracesGrow.of_eq {b b' : Bus} (ht : b'.trace = b.trace) (hf : b'.frames = b.frames) : TracesGrow b b' :=
  ⟨⟨[], by rw [ht, List.append_nil]⟩, .inl hf⟩

/-- Growth after a stretch that appends pin events and completes no frame: "at most one frame" is not transitive, but this
much of it is. -/
theorem TracesGrow.after {b c d : Bus} {es : List Event} (ht : c.trace = b.trace ++ es) (hf : c.frames = b.frames)
    (h : TracesGrow c d) : TracesGrow b d := by
  obtain ⟨es', he⟩ := h.trace
  exact ⟨⟨es ++ es', by rw [he, ht, List.append_assoc]⟩, hf ▸ h.frames⟩

theorem csDeassert_grows (o : Opcodes) (b : Bus) : TracesGrow b (csDeassert o b) := by
  obtain ⟨hcs, -, hframes⟩ := csDeassert_out o b
  exact ⟨⟨_, hcs.trace⟩, .inr ⟨_, hframes⟩⟩

theorem deviceFrame_grows (o : Opcodes) (bytes : List Byte) (b : Bus) : TracesGrow b (deviceFrame o bytes b) := by
  have hout := deviceFrame_out o bytes b
  obtain ⟨f, hf, -⟩ := hout.frames
  exact ⟨⟨[], by rw [hout.trace, List.append_nil]⟩, .inr ⟨f, hf⟩⟩

theorem busDisturb_grows (vs : List Bool) (b : Bus) : TracesGrow b (busDisturb vs b) :=
  .of_eq (busDisturb_trace vs b) (busDisturb_frames vs b)

/-- The rest of a frame completes that one frame when CS rises, or none while it waits. -/
theorem beatsEnd_grows {beats : List Beat} {s t : State} (h : BeatsEnd beats s t) : TracesGrow s.bus t.bus := by
  cases h with
  | finished s' progress e =>
    obtain ⟨es, hes⟩ := progress.trace
    rw [e, (finishOp_out s').bus]
    exact .after hes progress.frames (csDeassert_grows _ _)
  | waiting s' ph todo progress e _ =>
    rw [e, waitAt_bus]
    exact ⟨progress.trace, .inl progress.frames⟩

/-- A frame that starts from the bus `b`, once CS has fallen, has `b`'s completed frames. -/
theorem beatsEnd_grows_of_csAssert {beats : List Beat} {s t : State} {o : Opcodes} {b : Bus}
    (hs : s.bus = csAssert o b) (h : BeatsEnd beats s t) : TracesGrow b t.bus := by
  obtain ⟨hcs, -, hframes⟩ := csAssert_out o b
  exact .after hcs.trace hframes (hs ▸ beatsEnd_grows h)

theorem execEnd_grows {i : Instr} {s t : State} (h : ExecEnd i s t) : TracesGrow s.bus t.bus := by
  cases h with
  | same _ e => rw [e]; exact .of_eq rfl rfl
  | disturbed _ _ vs e => rw [e]; exact busDisturb_grows vs s.bus
  | get _ _ e => rw [e]; exact .of_eq rfl rfl
  | set _ _ _ e => rw [e]; exact .of_eq rfl rfl
  | begin _ _ e =>
    have hcfg := configurePins_out s.params s.bus
    exact .after hcfg.trace hcfg.frames (beatsEnd_grows_of_csAssert rfl e)
  | pin _ _ _ _ _ _ _ _ _ e => exact beatsEnd_grows_of_csAssert rfl e
  | wire _ _ e => rw [e]; exact deviceFrame_grows _ _ s.bus

theorem stepEnd_grows {s t : State} (h : StepEnd s t) : TracesGrow s.bus t.bus := by
  cases h with
  | tick _ e => rw [e]; exact .of_eq rfl rfl
  | go _ s1 h1 e =>
    obtain rfl | ⟨inbox, vs, rfl⟩ := h1
    · exact beatsEnd_grows e
    · exact .after (es := []) (by simp) (busDisturb_frames vs s.bus) (beatsEnd_grows e)
  | run _ _ inbox e => exact execEnd_grows (s := { s with inbox := inbox }) e
  | skip _ _ e => rw [e]; exact .of_eq rfl rfl
  | frame _ _ bytes e => rw [e]; exact deviceFrame_grows _ bytes s.bus
  | reset _ _ e => rw [e]; exact .of_eq (busReset_trace s.bus) (busReset_frames s.bus)

/-- Settles O16, case by case over what a step can do. -/
theorem tracesOnlyGrow : Obligations.TracesOnlyGrow := by
  intro s t h
  obtain ⟨htrace, hframes⟩ := stepEnd_grows (step_end h)
  exact ⟨htrace, hframes⟩

end Sys2Proof.Machine

/-! ## Proofs of the family 10_state: the block's invariant -/

namespace Sys2Proof.Machine

/-! ### The two halves of the invariant -/

/-- `BlockInv` of an idle block (R21, R28, R41). -/
structure IdleInv (s : State) : Prop where
  seq : s.seq = .idle
  op : s.op = none
  todo : s.todo = []
  got : s.got = []
  configured : s.init = true → pinsConfigured s.params s.bus = true
  high : s.init = true → s.bus.pins.cs.latch = true
  wf : Memory.wf s.bus.chip.mem = true

/-- `BlockInv` of a block inside a frame (R28, R183), but for the phase it stands in and what is left to do. -/
structure FrameInv (s : State) : Prop where
  busy : s.busy = true
  op : s.op.isSome = true
  low : s.bus.pins.cs.latch = false
  configured : s.init = true ∨ s.op = some .begin → pinsConfigured s.params s.bus = true
  wf : Memory.wf s.bus.chip.mem = true

theorem blockInv_iff_idleInv {s : State} (hb : s.busy = false) : BlockInv s ↔ IdleInv s := by
  constructor
  · rintro ⟨hseq, hidle, -, hconf, hhigh, -, hwf⟩
    obtain ⟨hop, htodo, hgot⟩ := hidle hb
    exact ⟨hseq.1 hb, hop, htodo, hgot, fun hi => hconf (.inl hi), hhigh hb, hwf⟩
  · intro h
    refine ⟨by simp [hb, h.seq], fun _ => ⟨h.op, h.todo, h.got⟩, by simp [hb], ?_, fun _ => h.high, ?_, h.wf⟩
    · simpa [h.op] using h.configured
    · rw [h.todo]; rfl

theorem blockInv_iff_frameInv {s : State} (hb : s.busy = true) :
    BlockInv s ↔ FrameInv s ∧ s.seq ≠ .idle ∧ phasesOk s.todo = true := by
  constructor
  · rintro ⟨hseq, -, hbusy, hconf, -, hphases, hwf⟩
    obtain ⟨hop, hlow⟩ := hbusy hb
    exact ⟨⟨hb, hop, hlow, hconf, hwf⟩, fun hs => by simp [hseq.2 hs] at hb, hphases⟩
  · rintro ⟨h, hseq, hphases⟩
    exact ⟨by simp [hb, hseq], by simp [hb], fun _ => ⟨h.op, h.low⟩, h.configured, by simp [hb], hphases, h.wf⟩

/-- Whether the pins are configured depends on the directions and on the peripheral's settings alone (R28, R31). -/
theorem pinsConfigured_congr (p : Params) {b b' : Bus} (hcs : b'.pins.cs.dir = b.pins.cs.dir)
    (hsck : b'.pins.sck.dir = b.pins.sck.dir) (hmosi : b'.pins.mosi.dir = b.pins.mosi.dir)
    (hmiso : b'.pins.miso.dir = b.pins.miso.dir) (hset : b'.hwx.settings = b.hwx.settings) :
    pinsConfigured p b' = pinsConfigured p b := by
  simp only [pinsConfigured, hcs, hsck, hmosi, hmiso, hset]

theorem pinsConfigured_of_pins (p : Params) {b b' : Bus} (hpins : b'.pins = b.pins) (hhwx : b'.hwx = b.hwx) :
    pinsConfigured p b' = pinsConfigured p b :=
  pinsConfigured_congr p (by rw [hpins]) (by rw [hpins]) (by rw [hpins]) (by rw [hpins]) (by rw [hhwx])

/-- Chip-select moves a latch only. -/
theorem CsOut.pinsConfigured {v : Bool} {b b' : Bus} (h : CsOut v b b') (p : Params) :
    pinsConfigured p b' = pinsConfigured p b :=
  pinsConfigured_congr p (by rw [h.pins]) (by rw [h.pins]) (by rw [h.pins]) (by rw [h.pins]) (by rw [h.hwx])

/-! ### What an idle block does at once -/

/-- An idle block that keeps its pins and its peripheral, and takes no more than a new memory in canonical form. -/
theorem IdleInv.blockInv_of_pins {s t : State} (h : IdleInv s) (hrest : AtRest t) (hparams : t.params = s.params)
    (hinit : t.init = s.init) (hpins : t.bus.pins = s.bus.pins) (hhwx : t.bus.hwx = s.bus.hwx)
    (hwf : Memory.wf t.bus.chip.mem = true) : BlockInv t := by
  obtain ⟨hbusy, hseq, hop, htodo, hgot⟩ := hrest
  refine (blockInv_iff_idleInv hbusy).2 ⟨hseq, hop, htodo, hgot, fun hi => ?_, fun hi => ?_, hwf⟩
  · rw [hparams, pinsConfigured_of_pins s.params hpins hhwx]
    exact h.configured (hinit ▸ hi)
  · rw [hpins]; exact h.high (hinit ▸ hi)

/-- A block in its reset column is idle and uninitialised (R39, R230). -/
theorem resetBlock_idleInv {s : State} (hwf : Memory.wf s.bus.chip.mem = true) : IdleInv (resetBlock s) :=
  ⟨rfl, rfl, rfl, rfl, (nomatch ·), (nomatch ·), hwf⟩

/-! ### A frame keeps it -/

/-- Exchanges inside a frame stay inside it. -/
theorem FrameInv.progress {s s' : State} (h : FrameInv s) (p : Progress s s') : FrameInv s' := by
  refine ⟨p.busy.trans h.busy, p.op ▸ h.op, p.cs ▸ h.low, fun hi => ?_, p.wf h.wf⟩
  rw [p.init, p.op] at hi
  rw [p.params, pinsConfigured_congr s.params (b := s.bus) (by rw [p.cs]) p.sckDir p.mosiDir (by rw [p.miso])
    p.settings]
  exact h.configured hi

/-- The end of an operation: CS is high again, and an initialised block has its pins configured, whether it was so
before or its BEGIN ends here (R41, R112). -/
theorem FrameInv.finished {s : State} (h : FrameInv s) : IdleInv (finishOp s) := by
  obtain ⟨cs, -, -⟩ := csDeassert_out s.params.opc s.bus
  have out := finishOp_out s
  obtain ⟨-, hseq, hop, htodo, hgot⟩ := out.rest
  refine ⟨hseq, hop, htodo, hgot, fun hi => ?_, fun _ => by rw [out.bus, cs.pins], by rw [out.bus]; exact cs.wf h.wf⟩
  have hinit : s.init = true ∨ s.op = some .begin := by
    have e : BeatsEnd [] s (finishOp s) := .finished s (.refl s) rfl
    obtain hkept | ⟨hbegin, -⟩ := beatsEnd_init e
    · exact .inl (hkept ▸ hi)
    · exact .inr hbegin
  rw [out.params, out.bus, cs.pinsConfigured]
  exact h.configured hinit

/-- The rest of a frame, finished or waiting, leaves the invariant. -/
theorem beatsEnd_blockInv {beats : List Beat} {s t : State} (h : FrameInv s) (hphases : phasesOk beats = true)
    (e : BeatsEnd beats s t) : BlockInv t := by
  cases e with
  | finished s' p e => rw [e]; exact (blockInv_iff_idleInv rfl).2 (h.progress p).finished
  | waiting s' ph todo p e ok =>
    obtain ⟨hph, htodo⟩ := ok hphases
    obtain ⟨hbusy, hop, hlow, hconf, hwf⟩ := h.progress p
    rw [e]
    exact (blockInv_iff_frameInv (s := waitAt ph todo s') hbusy).2 ⟨⟨hbusy, hop, hlow, hconf, hwf⟩, hph, htodo⟩

/-- CS falls for an operation of an idle block (R183). -/
theorem framed_frameInv {k : OpKind} (hk : k ≠ .begin) (l : OpLatches) {s : State} (h : IdleInv s) :
    FrameInv (framed k l s) := by
  obtain ⟨cs, -, -⟩ := csAssert_out s.params.opc s.bus
  refine ⟨rfl, rfl, by simp [framed, cs.pins], fun hi => ?_, cs.wf h.wf⟩
  have hinit : s.init = true := hi.resolve_right fun hop => hk (Option.some.inj hop)
  exact (cs.pinsConfigured s.params).trans (h.configured hinit)

/-- BEGIN has configured the pins before CS falls for its probe (R112). -/
theorem beginFramed_frameInv {s : State} (hwf : Memory.wf s.bus.chip.mem = true) : FrameInv (beginFramed s) := by
  have cfg := configurePins_out s.params s.bus
  obtain ⟨cs, -, -⟩ := csAssert_out s.params.opc (configurePins s.params s.bus)
  exact ⟨rfl, rfl, by simp [beginFramed, cs.pins], fun _ => (cs.pinsConfigured s.params).trans cfg.configured,
    cs.wf (cfg.wf hwf)⟩

/-! ### Every step keeps it -/

/-- The state in which a busy block goes on: with the next input taken and the device disturbed, or as it was. -/
theorem goOn_same {s s1 : State} (h : s1 = s ∨ ∃ r vs, s1 = { s with inbox := r, bus := busDisturb vs s.bus }) :
    ∃ inbox bus, SameButDevice s.bus bus ∧ s1 = { s with inbox := inbox, bus := bus } := by
  obtain rfl | ⟨inbox, vs, rfl⟩ := h
  · exact ⟨s1.inbox, s1.bus, .refl s1.bus, rfl⟩
  · exact ⟨inbox, busDisturb vs s.bus, busDisturb_same vs s.bus, rfl⟩

theorem execEnd_blockInv {i : Instr} {s t : State} (hb : s.busy = false) (h : IdleInv s) (e : ExecEnd i s t) :
    BlockInv t := by
  cases e with
  | same busy _ => simp [hb] at busy
  | disturbed busy _ _ _ => simp [hb] at busy
  | get _ _ e =>
    rw [e]; exact h.blockInv_of_pins ⟨rfl, rfl, rfl, rfl, rfl⟩ rfl rfl rfl rfl h.wf
  | set _ _ _ e =>
    rw [e]; exact h.blockInv_of_pins ⟨rfl, rfl, rfl, rfl, rfl⟩ rfl rfl rfl rfl h.wf
  | begin _ _ e => exact beatsEnd_blockInv (beginFramed_frameInv h.wf) rfl e
  | pin _ k l frame hk _ hphases _ _ e => exact beatsEnd_blockInv (framed_frameInv hk l h) (hphases _) e
  | wire _ _ e =>
    have out := deviceFrame_out s.params.opc (frameBytes s.params.opc s.params.dummy i) s.bus
    rw [e]
    exact h.blockInv_of_pins ⟨hb, h.seq, h.op, h.todo, h.got⟩ rfl rfl out.pins out.hwx (out.wf h.wf)

theorem stepEnd_blockInv {s t : State} (h : BlockInv s) (e : StepEnd s t) : BlockInv t := by
  cases e with
  | tick hb e =>
    have hi := (blockInv_iff_idleInv hb).1 h
    rw [e]
    exact hi.blockInv_of_pins ⟨hb, hi.seq, hi.op, hi.todo, hi.got⟩ rfl rfl rfl rfl hi.wf
  | go hb s1 h1 e =>
    obtain ⟨hf, -, hphases⟩ := (blockInv_iff_frameInv hb).1 h
    obtain ⟨inbox, bus, same, rfl⟩ := goOn_same h1
    have hf1 : FrameInv { s with inbox := inbox, bus := bus } :=
      ⟨hb, hf.op, same.pins ▸ hf.low,
        fun hi => (pinsConfigured_of_pins s.params same.pins same.hwx).trans (hf.configured hi), same.wf hf.wf⟩
    exact beatsEnd_blockInv hf1 hphases e
  | run hb i inbox e =>
    obtain ⟨hseq, hop, htodo, hgot, hconf, hhigh, hwf⟩ := (blockInv_iff_idleInv hb).1 h
    exact execEnd_blockInv (s := { s with inbox := inbox }) hb ⟨hseq, hop, htodo, hgot, hconf, hhigh, hwf⟩ e
  | skip hb inbox e => rw [e]; exact h
  | frame hb inbox bytes e =>
    have hi := (blockInv_iff_idleInv hb).1 h
    have out := deviceFrame_out s.params.opc bytes s.bus
    rw [e]
    exact hi.blockInv_of_pins ⟨hb, hi.seq, hi.op, hi.todo, hi.got⟩ rfl rfl out.pins out.hwx (out.wf hi.wf)
  | reset hb inbox e =>
    rw [e]; exact (blockInv_iff_idleInv rfl).2 (resetBlock_idleInv ((blockInv_iff_idleInv hb).1 h).wf)

/-- Settles O11, case by case over what a step can do: an idle block's half of the invariant, and a busy block's. -/
theorem stepKeepsInv : Obligations.StepKeepsInv := by
  intro s t h e
  exact stepEnd_blockInv h (step_end e)

end Sys2Proof.Machine

/-! ## Proofs of the family 10_state: reset, and what the step runs -/

namespace Sys2Proof.Machine

theorem construct_blockInv (p : Params) (w : Wiring) (c : Chip) (budget : Option Nat) (hwf : Memory.wf c.mem = true) :
    BlockInv (construct p w c budget) :=
  (blockInv_iff_idleInv rfl).2 ⟨rfl, rfl, rfl, rfl, (nomatch ·), (nomatch ·), hwf⟩

theorem construct_opcodeInv (p : Params) (w : Wiring) (c : Chip) (budget : Option Nat) :
    OpcodeInv (construct p w c budget) := (nomatch ·)

/-- Settles O7: a constructed block is idle and uninitialised. -/
theorem invAtReset : Obligations.InvAtReset :=
  ⟨construct_blockInv _ _ _ _ rfl, construct_opcodeInv _ _ _ _,
    fun p w c budget => ⟨construct_opcodeInv p w c budget, construct_blockInv p w c budget⟩⟩

/-- What an idle block fetches, where an input is presented. -/
theorem fetch_idle_cons {s : State} {e : Entry} {rest : List Entry} (hb : s.busy = false) (hin : s.inbox = e :: rest) :
    fetch s = fetchIdle e { s with inbox := rest } := by
  unfold fetch; rw [hb, hin]

theorem fetchIdle_of_decode {s : State} {e : Entry} {i : Instr} (h : decodeInput s e.enc = .ok i) :
    fetchIdle e s = .run i s := by
  simp only [fetchIdle, h]

/-- Settles O8: the fetch of an idle block is the decoded instruction. -/
theorem stepRunsDecoded : Obligations.StepRunsDecoded := by
  intro s e rest i hb hin hdec
  have hfetch : fetch s = .run i { s with inbox := rest } :=
    (fetch_idle_cons hb hin).trans (fetchIdle_of_decode hdec)
  simp only [step, hfetch]

/-- Settles O9: there is nothing to fetch. -/
theorem idleBlockWaits : Obligations.IdleBlockWaits := by
  intro s hb hin
  have hfetch : fetch s = .idle := by simp only [fetch, hb, hin]
  simp only [step, hfetch, idleTick]

/-! ## Proofs of the family 10_state: what an operation and a resumed step leave as they are -/

/-- A busy block's step is the rest of its operation's frame, on the bus as it was or with the device disturbed. -/
theorem step_busy_end {s t : State} (hb : s.busy = true) (h : step s = .next t) :
    ∃ inbox bus, SameButDevice s.bus bus ∧ BeatsEnd s.todo { s with inbox := inbox, bus := bus } t := by
  cases step_end h with
  | go _ s1 h1 e =>
    obtain ⟨inbox, bus, same, rfl⟩ := goOn_same h1
    exact ⟨inbox, bus, same, e⟩
  | tick idle _ => simp [hb] at idle
  | run idle _ _ _ => simp [hb] at idle
  | skip idle _ _ => simp [hb] at idle
  | frame idle _ _ _ => simp [hb] at idle
  | reset idle _ _ => simp [hb] at idle

/-! ### Parameters and wiring -/

/-- What is fixed at construction (R22, R38, R111). -/
structure ParamsKept (s t : State) : Prop where
  params : t.params = s.params
  wiring : t.bus.wiring = s.bus.wiring
  chip : t.bus.chip.params = s.bus.chip.params

theorem ParamsKept.beatsEnd {beats : List Beat} {s s' t : State} (h : ParamsKept s s') (e : BeatsEnd beats s' t) :
    ParamsKept s t := by
  obtain ⟨hparams, hwiring, hchip⟩ := beatsEnd_params e
  exact ⟨hparams.trans h.params, hwiring.trans h.wiring, hchip.trans h.chip⟩

theorem framed_paramsKept (k : OpKind) (l : OpLatches) (s : State) : ParamsKept s (framed k l s) := by
  obtain ⟨cs, -, -⟩ := csAssert_out s.params.opc s.bus
  exact ⟨rfl, cs.wiring, cs.params⟩

theorem beginFramed_paramsKept (s : State) : ParamsKept s (beginFramed s) := by
  have cfg := configurePins_out s.params s.bus
  obtain ⟨cs, -, -⟩ := csAssert_out s.params.opc (configurePins s.params s.bus)
  exact ⟨rfl, cs.wiring.trans cfg.wiring, cs.params.trans cfg.params⟩

theorem execEnd_paramsKept {i : Instr} {s t : State} (e : ExecEnd i s t) : ParamsKept s t := by
  cases e with
  | same _ e => rw [e]; exact ⟨rfl, rfl, rfl⟩
  | disturbed _ _ vs e => rw [e]; exact ⟨rfl, busDisturb_wiring vs s.bus, busDisturb_params vs s.bus⟩
  | get _ _ e => rw [e]; exact ⟨rfl, rfl, rfl⟩
  | set _ _ _ e => rw [e]; exact ⟨rfl, rfl, rfl⟩
  | begin _ _ e => exact (beginFramed_paramsKept s).beatsEnd e
  | pin _ k l _ _ _ _ _ _ e => exact (framed_paramsKept k l s).beatsEnd e
  | wire _ _ e =>
    have out := deviceFrame_out s.params.opc (frameBytes s.params.opc s.params.dummy i) s.bus
    rw [e]; exact ⟨rfl, out.wiring, out.params⟩

theorem stepEnd_paramsKept {s t : State} (e : StepEnd s t) : ParamsKept s t := by
  cases e with
  | tick _ e => rw [e]; exact ⟨rfl, rfl, rfl⟩
  | go _ s1 h1 e =>
    obtain ⟨inbox, bus, same, rfl⟩ := goOn_same h1
    have kept : ParamsKept s { s with inbox := inbox, bus := bus } := ⟨rfl, same.wiring, same.params⟩
    exact kept.beatsEnd e
  | run _ _ inbox e =>
    obtain ⟨hparams, hwiring, hchip⟩ := execEnd_paramsKept e
    exact ⟨hparams, hwiring, hchip⟩
  | skip _ _ e => rw [e]; exact ⟨rfl, rfl, rfl⟩
  | frame _ _ bytes e =>
    have out := deviceFrame_out s.params.opc bytes s.bus
    rw [e]; exact ⟨rfl, out.wiring, out.params⟩
  | reset _ _ e => rw [e]; exact ⟨rfl, rfl, rfl⟩

/-- Settles O12, case by case over what a step can do. -/
theorem stepKeepsParameters : Obligations.StepKeepsParameters := by
  intro s t h
  obtain ⟨hparams, hwiring, hchip⟩ := stepEnd_paramsKept (step_end h)
  exact ⟨hparams, hwiring, hchip⟩

/-! ### ADDR_W -/

theorem execEnd_addrW {i : Instr} {s t : State} (e : ExecEnd i s t) : t.addrW = s.addrW ∨ i = .setAddrLen t.addrW := by
  cases e with
  | same _ e => rw [e]; exact .inl rfl
  | disturbed _ _ _ e => rw [e]; exact .inl rfl
  | get _ _ e => rw [e]; exact .inl rfl
  | set _ n hi e => rw [e]; exact .inr hi
  | begin _ _ e => exact .inl (beatsEnd_addrW e :)
  | pin _ _ _ _ _ _ _ _ _ e => exact .inl (beatsEnd_addrW e :)
  | wire _ _ e => rw [e]; exact .inl rfl

/-- Settles O13: a frame does not write the register. -/
theorem onlySetAddrLenWritesAddrW : Obligations.OnlySetAddrLenWritesAddrW := by
  refine ⟨fun i s t h => execEnd_addrW (exec_end h), fun s t hb h => ?_⟩
  obtain ⟨inbox, bus, -, e⟩ := step_busy_end hb h
  exact (beatsEnd_addrW e :)

/-! ### INIT -/

theorem execEnd_init {i : Instr} {s t : State} (e : ExecEnd i s t) :
    t.init = s.init ∨ (i = .begin ∧ t.init = true) := by
  cases e with
  | same _ e => rw [e]; exact .inl rfl
  | disturbed _ _ _ e => rw [e]; exact .inl rfl
  | get _ _ e => rw [e]; exact .inl rfl
  | set _ _ _ e => rw [e]; exact .inl rfl
  | begin _ hi e => exact (beatsEnd_init e).imp id fun ⟨_, hinit⟩ => ⟨hi, hinit⟩
  | pin _ k l _ hk _ _ _ _ e => exact .inl ((beatsEnd_init e).resolve_right fun ⟨hop, _⟩ => hk (Option.some.inj hop))
  | wire _ _ e => rw [e]; exact .inl rfl

/-- Settles O14: only the response of BEGIN writes the flag. -/
theorem initSetByBeginOnly : Obligations.InitSetByBeginOnly := by
  refine ⟨fun i s t h => execEnd_init (exec_end h), fun s t hb h => ?_⟩
  obtain ⟨inbox, bus, -, e⟩ := step_busy_end hb h
  exact (beatsEnd_init e :)

/-! ### Pin directions -/

/-- Every pin has the direction it had (R8, R40). -/
structure DirsKept (b b' : Bus) : Prop where
  cs : b'.pins.cs.dir = b.pins.cs.dir
  sck : b'.pins.sck.dir = b.pins.sck.dir
  mosi : b'.pins.mosi.dir = b.pins.mosi.dir
  miso : b'.pins.miso.dir = b.pins.miso.dir

theorem DirsKept.of_pins {b b' : Bus} (h : b'.pins = b.pins) : DirsKept b b' :=
  ⟨by rw [h], by rw [h], by rw [h], by rw [h]⟩

theorem DirsKept.trans {a b c : Bus} (h : DirsKept a b) (k : DirsKept b c) : DirsKept a c :=
  ⟨k.cs.trans h.cs, k.sck.trans h.sck, k.mosi.trans h.mosi, k.miso.trans h.miso⟩

theorem beatsEnd_dirsKept {beats : List Beat} {s t : State} (e : BeatsEnd beats s t) : DirsKept s.bus t.bus := by
  obtain ⟨hcs, hsck, hmosi, hmiso, -⟩ := beatsEnd_dirs e
  exact ⟨hcs, hsck, hmosi, by rw [hmiso]⟩

theorem framed_dirsKept (k : OpKind) (l : OpLatches) (s : State) : DirsKept s.bus (framed k l s).bus := by
  obtain ⟨hcs, hsck, hmosi, hmiso, -⟩ := framed_dirs k l s
  exact ⟨hcs, hsck, hmosi, by rw [hmiso]⟩

theorem execEnd_dirsKept {i : Instr} {s t : State} (hi : i ≠ .begin) (e : ExecEnd i s t) : DirsKept s.bus t.bus := by
  cases e with
  | same _ e => rw [e]; exact .of_pins rfl
  | disturbed _ _ vs e => rw [e]; exact .of_pins (busDisturb_pins vs s.bus)
  | get _ _ e => rw [e]; exact .of_pins rfl
  | set _ _ _ e => rw [e]; exact .of_pins rfl
  | begin _ hbegin _ => exact absurd hbegin hi
  | pin _ k l _ _ _ _ _ _ e => exact (framed_dirsKept k l s).trans (beatsEnd_dirsKept e)
  | wire _ _ e => rw [e]; exact .of_pins (deviceFrame_out _ _ s.bus).pins

/-- Settles O15: chip-select and the exchanges move latches only. -/
theorem onlyBeginChangesDirections : Obligations.OnlyBeginChangesDirections := by
  refine ⟨fun i s t hi h => ?_, fun s t hb h => ?_⟩
  · obtain ⟨hcs, hsck, hmosi, hmiso⟩ := execEnd_dirsKept hi (exec_end h)
    exact ⟨hcs, hsck, hmosi, hmiso⟩
  · obtain ⟨inbox, bus, same, e⟩ := step_busy_end hb h
    obtain ⟨hcs, hsck, hmosi, hmiso⟩ := (DirsKept.of_pins same.pins).trans (beatsEnd_dirsKept e)
    exact ⟨hcs, hsck, hmosi, hmiso⟩

/-! ## Proofs of the family 10_state: a busy block accepts nothing -/

theorem atAcceptance_busy {s : State} (hb : s.busy = true) (pinOp : Option OpKind) (run : State → Outcome) :
    atAcceptance pinOp s run = refuseOr s .overlap .next := by
  unfold atAcceptance; rw [if_pos hb]

theorem presentFrame_busy {s : State} (hb : s.busy = true) (bytes : List Byte) :
    presentFrame bytes s =
      refuseOr s .overlap fun s0 => .next { s0 with bus := busDisturb (frameBits bytes) s0.bus } := by
  unfold presentFrame; rw [if_pos hb]

theorem refuseOr_strict {s : State} (hc : s.params.conduct = .strict) (r : Refusal) (go : State → Outcome) :
    refuseOr s r go = .refused r := by
  simp only [refuseOr, hc]

theorem refuseOr_hardware {s : State} (hc : s.params.conduct = .hardware) (r : Refusal) (go : State → Outcome) :
    refuseOr s r go = go s := by
  simp only [refuseOr, hc]

/-- Every host operation is decided at acceptance. -/
theorem exec_host_busy {i : Instr} {s : State} (hi : isWire i = false) (hb : s.busy = true) :
    exec i s = refuseOr s .overlap .next := by
  cases i <;> cases hi <;>
    simp only [exec, execBegin, execGetAddrLen, execSetAddrLen, execWriteEnableT, execWriteEnableF, execWrite8,
      execWrite, execRead8, execGetDeviceId, execGetStatus, execSetStatus, runPinOp, atAcceptance_busy hb]

/-- Every row of the wire is a frame presented over the block's own. -/
theorem exec_wire_busy {i : Instr} {s : State} (hi : isWire i = true) (hb : s.busy = true) :
    exec i s = refuseOr s .overlap fun s0 => .next { s0 with bus := busDisturb (frameBits (bytesOf s i)) s0.bus } := by
  cases i <;> cases hi <;> exact presentFrame_busy hb _

theorem exec_busy_strict (i : Instr) {s : State} (hb : s.busy = true) (hc : s.params.conduct = .strict) :
    exec i s = .refused .overlap := by
  cases hi : isWire i with
  | false => rw [exec_host_busy hi hb, refuseOr_strict hc]
  | true => rw [exec_wire_busy hi hb, refuseOr_strict hc]

/-- The step of a busy block to which an input is presented. -/
theorem fetch_busy_cons {s : State} {e : Entry} {rest : List Entry} (hb : s.busy = true) (hin : s.inbox = e :: rest) :
    fetch s = fetchBusy e rest s := by
  simp only [fetch, hb, hin]

theorem step_of_goOn {s s1 : State} (h : fetch s = .goOn s1) : step s = resume s1 := by simp only [step, h]

theorem step_of_stop {s : State} {r : Refusal} (h : fetch s = .stop r) : step s = .refused r := by simp only [step, h]

/-- What is presented to a block stays there over the rest of its frame. -/
theorem beatsEnd_inbox {beats : List Beat} {s t : State} (e : BeatsEnd beats s t) : t.inbox = s.inbox := by
  cases e with
  | finished s' p e => rw [e, (finishOp_out s').inbox, p.inbox]
  | waiting s' _ _ p e _ => rw [e, waitAt_inbox, p.inbox]

/-- A command of the host waits in both conducts, anyone's in conduct `hardware` (R26). -/
theorem fetchBusy_command (s : State) (g : Agent) (c : Command) (rest : List Entry)
    (hwait : g = .primary ∨ s.params.conduct = .hardware) :
    fetchBusy { agent := g, enc := .command c } rest s = .goOn s := by
  cases hc : s.params.conduct with
  | hardware => simp only [fetchBusy, hc]
  | strict =>
    obtain rfl : g = .primary := hwait.resolve_right (by simp [hc])
    simp only [fetchBusy, hc]

/-- Settles O19: acceptance for `exec`, and for the step what is fetched while an operation goes on. -/
theorem overlapWhileBusy : Obligations.OverlapWhileBusy := by
  refine ⟨fun i s hb hc => exec_busy_strict i hb hc,
    fun i s hb hc hi => (exec_host_busy hi hb).trans (refuseOr_hardware hc _ _), fun s c rest hb hc hin => ?_,
    fun s g bytes rest hb hin => ⟨fun hc => ?_, fun hc => ?_⟩, fun s g c rest hb hwait hin => ?_⟩
  · exact step_of_stop ((fetch_busy_cons hb hin).trans (by simp only [fetchBusy, hc]))
  · exact step_of_stop ((fetch_busy_cons hb hin).trans (by simp only [fetchBusy, hc]))
  · exact step_of_goOn ((fetch_busy_cons hb hin).trans (by simp only [fetchBusy, hc]))
  · have hstep : step s = resume s :=
      step_of_goOn ((fetch_busy_cons hb hin).trans (fetchBusy_command s g c rest hwait))
    exact ⟨hstep, fun t h => beatsEnd_inbox (resume_end (hstep ▸ h))⟩

/-! ## Proofs of the family 10_state: SETADDRLEN and GETADDRLEN -/

theorem exec_setAddrLen_idle (n : Byte) {s : State} (hb : s.busy = false) :
    exec (.setAddrLen n) s = .next (complete { accept none { s.lat with data := n } s with addrW := n }) := by
  simp only [exec, execSetAddrLen, atAcceptance, hb]; rfl

theorem exec_getAddrLen_idle {s : State} (hb : s.busy = false) :
    exec .getAddrLen s =
      .next (complete { accept none s.lat s with resp := { anyResponse s.frees with data := s.addrW } }) := by
  simp only [exec, execGetAddrLen, atAcceptance, hb]; rfl

/-- Settles O23: the register is written and read without a check. -/
theorem setAddrLenStoresAnyValue : Obligations.SetAddrLenStoresAnyValue := by
  intro n s hb
  exact ⟨_, _, exec_setAddrLen_idle n hb, rfl, ⟨rfl, rfl, rfl, rfl, rfl⟩, rfl, ⟨rfl, rfl, rfl, rfl⟩, rfl, rfl, rfl,
    exec_getAddrLen_idle rfl, rfl⟩

end Sys2Proof.Machine

/-! ## Proofs of the family 10_state: what an operation does to the attached device -/

namespace Sys2Proof.Machine

/-! ### Where RefFRAM is not what is attached -/

/-- The wiring stays, and where it is not RefFRAM's nothing touches RefFRAM (R56, R194). -/
structure ChipUnused (b b' : Bus) : Prop where
  wiring : b'.wiring = b.wiring
  chip : b.wiring ≠ .fram → b'.chip = b.chip

theorem ChipUnused.refl (b : Bus) : ChipUnused b b := ⟨rfl, fun _ => rfl⟩

theorem ChipUnused.trans {a b c : Bus} (h : ChipUnused a b) (k : ChipUnused b c) : ChipUnused a c :=
  ⟨k.wiring.trans h.wiring, fun hw => (k.chip (h.wiring ▸ hw)).trans (h.chip hw)⟩

/-- A loop each of whose turns leaves RefFRAM out. `bus` is where the loop's state holds the bus. -/
theorem ChipUnused.foldl {α : Type} (bus : α → Bus) (f : α → Nat → α) (h : ∀ a i, ChipUnused (bus a) (bus (f a i)))
    (l : List Nat) (a : α) : ChipUnused (bus a) (bus (l.foldl f a)) := by
  induction l generalizing a with
  | nil => exact .refl _
  | cons i l ih => exact (h a i).trans (ih (f a i))

theorem busFall_chipUnused (b : Bus) : ChipUnused b (busFall b) :=
  ⟨busFall_wiring b, fun hw => by unfold busFall; split <;> simp_all⟩

theorem busRaise_chipUnused (o : Opcodes) (b : Bus) : ChipUnused b (busRaise o b) :=
  ⟨busRaise_wiring o b, fun hw => by unfold busRaise; split <;> simp_all⟩

theorem busClock_chipUnused (o : Opcodes) (d : Bool) (b : Bus) : ChipUnused b (busClock o d b) :=
  ⟨busClock_wiring o d b, fun hw => by unfold busClock; split <;> simp_all⟩

theorem busDisturb_chipUnused (vs : List Bool) (b : Bus) : ChipUnused b (busDisturb vs b) :=
  ⟨busDisturb_wiring vs b, fun hw => by unfold busDisturb; dsimp only; split <;> simp_all⟩

theorem wireEdge_chipUnused (o : Opcodes) (p : Pin) (old v : Bool) (b : Bus) : ChipUnused b (wireEdge o p old v b) := by
  cases p with
  | cs =>
    simp only [wireEdge]; split
    · exact busFall_chipUnused b
    · split
      · exact busRaise_chipUnused o b
      · exact .refl b
  | sck =>
    simp only [wireEdge]; split
    · split
      · exact busClock_chipUnused o _ b
      · exact busDisturb_chipUnused _ b
    · exact .refl b
  | mosi => exact .refl b
  | miso => exact .refl b

theorem log_setPin_chipUnused (e : Event) (p : Pin) (x : PinState) (b : Bus) : ChipUnused b (log e (setPin p x b)) :=
  ⟨setPin_wiring p x b, fun _ => setPin_chip p x b⟩

theorem see_chipUnused (es : List WireEvent) (b : Bus) : ChipUnused b (see es b) := ⟨rfl, fun _ => rfl⟩

theorem pinWrite_chipUnused (o : Opcodes) (p : Pin) (v : Bool) (b : Bus) : ChipUnused b (pinWrite o p v b) := by
  have moved := log_setPin_chipUnused (.pinWrite p v) p { pinOf p b with latch := v } b
  unfold pinWrite; dsimp only; split
  · exact (moved.trans (see_chipUnused _ _)).trans (wireEdge_chipUnused o p _ v _)
  · exact moved.trans (busDisturb_chipUnused [v] _)

theorem swBit_chipUnused (o : Opcodes) (b : Bus) (i : Nat) : ChipUnused b (swBit o b i) := by
  have low := pinWrite_chipUnused o .sck false { b with engine := { b.engine with bitCnt := BitVec.ofNat 3 i } }
  have data := low.trans (pinWrite_chipUnused o .mosi (b.engine.shTx.getLsbD i) _)
  have high := data.trans (pinWrite_chipUnused o .sck true _)
  exact ⟨by simp [swBit], fun hw => by simpa [swBit] using high.chip hw⟩

theorem xferSW_chipUnused (o : Opcodes) (tx : Byte) (b : Bus) : ChipUnused b (xferSW o tx b).2 := by
  have turns := ChipUnused.foldl id (swBit o) (swBit_chipUnused o) bitOrder
    { b with engine := { shTx := tx, shRx := 0, bitCnt := 7 } }
  exact ⟨turns.wiring, turns.chip⟩

theorem hwBit_chipUnused (o : Opcodes) (tx : Byte) (acc : Byte × Bus) (i : Nat) :
    ChipUnused acc.2 (hwBit o tx acc i).2 := by
  have clock := busClock_chipUnused o (tx.getLsbD i) (see (pulse (tx.getLsbD i)) acc.2)
  exact ⟨(hwBit_same o tx acc i).wiring, fun hw => (misoLevel_chip _ _).trans (clock.chip hw)⟩

theorem hwBitUnknown_chipUnused (acc : Byte × Bus) (i : Nat) : ChipUnused acc.2 (hwBitUnknown acc i).2 :=
  ⟨rfl, fun _ => rfl⟩

theorem hwWire_chipUnused (o : Opcodes) (tx : Byte) (b : Bus) : ChipUnused b (hwWire o tx b).2 := by
  unfold hwWire; split
  · have turns := ChipUnused.foldl Prod.snd (hwBit o tx) (hwBit_chipUnused o tx) bitOrder (0, b)
    exact turns
  · have turns := ChipUnused.foldl Prod.snd hwBitUnknown hwBitUnknown_chipUnused bitOrder
      (0, busDisturb (byteBits tx) b)
    exact (busDisturb_chipUnused _ b).trans turns

theorem hwExchange_chipUnused {o : Opcodes} {tx rx : Byte} {b b' : Bus} (h : hwExchange o tx b = some (rx, b')) :
    ChipUnused b b' := by
  unfold hwExchange at h
  split at h
  · cases h
  · cases h
    have turns := hwWire_chipUnused o tx { b with hwx := hwxDone b.hwx }
    exact ⟨turns.wiring, turns.chip⟩

theorem xferByMode_chipUnused {p : Params} {tx rx : Byte} {b b' : Bus} (h : xferByMode p tx b = some (rx, b')) :
    ChipUnused b b' := by
  unfold xferByMode at h
  split at h
  · exact hwExchange_chipUnused h
  · cases h; exact xferSW_chipUnused p.opc tx b

theorem xfer_chipUnused {p : Params} {tx rx : Byte} {b b' : Bus} (h : xfer p tx b = some (rx, b')) :
    ChipUnused b b' := by
  unfold xfer at h
  split at h
  · cases h
  · cases h
    have exchange := xferByMode_chipUnused ‹_›
    exact ⟨exchange.wiring, exchange.chip⟩

theorem csAssert_chipUnused (o : Opcodes) (b : Bus) : ChipUnused b (csAssert o b) := by
  have write := pinWrite_chipUnused o .cs false b
  exact ⟨write.wiring, write.chip⟩

theorem csDeassert_chipUnused (o : Opcodes) (b : Bus) : ChipUnused b (csDeassert o b) := by
  have write := pinWrite_chipUnused o .cs true b
  exact ⟨write.wiring, write.chip⟩

/-- The rest of a frame, finished or waiting. -/
theorem runBeats_chipUnused {beats : List Beat} {s t : State} (h : runBeats beats s = .next t) :
    ChipUnused s.bus t.bus := by
  induction beats generalizing s with
  | nil =>
    cases h
    rw [(finishOp_out s).bus]
    exact csDeassert_chipUnused s.params.opc s.bus
  | cons beat beats ih =>
    cases beat with
    | byte ph tx keep =>
      simp only [runBeats] at h
      split at h
      · cases h; exact ⟨rfl, fun _ => rfl⟩
      · exact (xfer_chipUnused ‹_›).trans (ih h)
    | stream i =>
      simp only [runBeats] at h
      split at h
      · cases h; exact .refl s.bus
      · split at h
        · cases h; exact ⟨rfl, fun _ => rfl⟩
        · exact (xfer_chipUnused ‹_›).trans (ih h)
    | malformed w => cases h

/-! ### BEGIN's pin configuration, from a CS that is not driven low -/

/-- No edge of CS reaches the device then (R112, D15). -/
theorem csConfigure_chip (o : Opcodes) {b : Bus} (h : wire b.pins.cs ≠ some false) :
    (csConfigure o b).chip = b.chip := by
  unfold csConfigure; dsimp only; split
  · exact absurd ‹_› h
  · simp
  · simp

theorem configurePins_chip (p : Params) {b : Bus} (h : wire b.pins.cs ≠ some false) :
    (configurePins p b).chip = b.chip := by
  unfold configurePins; dsimp only; split
  · simp [hwInit, csConfigure_chip p.opc h]
  · simp [pinMode, csConfigure_chip p.opc h]

/-- A CS at rest is driven high. -/
theorem wire_cs_of_ready {p : Params} {b : Bus} (hc : pinsConfigured p b = true) (hl : b.pins.cs.latch = true) :
    wire b.pins.cs ≠ some false := by
  simp only [pinsConfigured, Bool.and_eq_true, decide_eq_true_eq] at hc
  simp [wire_out _ hc.1, hl]

/-! ### A frame at RefFRAM, finished or waiting -/

/-- RefFRAM is selected on configured pins, between two bytes (R57). -/
structure AtByte (p : Params) (b : Bus) : Prop where
  framed : Framed p b
  wiring : b.wiring = .fram
  bits : b.chip.bitn % 8 = 0

/-- An exchange is one byte, after which the next one can come. -/
theorem AtByte.xfer {p : Params} {tx rx : Byte} {b b' : Bus} (h : AtByte p b) (hx : xfer p tx b = some (rx, b')) :
    AtByte p b' ∧ b'.chip = (chipByte p.opc tx b.chip).2 := by
  obtain ⟨out, -⟩ := xfer_out p tx rx b b' hx
  obtain ⟨-, hchip⟩ := xfer_fram p tx rx b b' h.framed h.wiring h.bits hx
  exact ⟨⟨h.framed.after out, out.wiring.trans h.wiring, by rw [hchip, chipByte_bitn]⟩, hchip⟩

/-- CS falls on a bus at rest: a frame begins at RefFRAM. -/
theorem AtByte.csAssert {p : Params} {b : Bus} (hc : pinsConfigured p b = true) (hl : b.pins.cs.latch = true)
    (hw : b.wiring = .fram) : AtByte p (csAssert p.opc b) ∧ (csAssert p.opc b).chip = chipSelect b.chip := by
  obtain ⟨framed, wiring, hchip, -, -⟩ := csAssert_ready p b hc hl hw
  exact ⟨⟨framed, wiring, by rw [hchip]; rfl⟩, hchip⟩

/-- From a state inside a frame at RefFRAM to a later one inside it, after the bytes `txs`. -/
structure FramProgress (txs : List Byte) (s s' : State) : Prop where
  params : s'.params = s.params
  atByte : AtByte s'.params s'.bus
  chip : s'.bus.chip = (chipBytes s.params.opc txs s.bus.chip).2

theorem FramProgress.refl {s : State} (h : AtByte s.params s.bus) : FramProgress [] s s := ⟨rfl, h, rfl⟩

theorem FramProgress.cons {tx rx : Byte} {txs : List Byte} {s s1 s' : State} (h : AtByte s.params s.bus)
    (hx : xfer s.params tx s.bus = some (rx, s1.bus)) (hparams : s1.params = s.params) (p : FramProgress txs s1 s') :
    FramProgress (tx :: txs) s s' := by
  obtain ⟨-, hchip⟩ := h.xfer hx
  exact ⟨p.params.trans hparams, p.atByte, by rw [p.chip, hparams, hchip]; rfl⟩

/-- What the rest of a frame ends in at RefFRAM: all its bytes were exchanged, or the first ones. -/
inductive FramEnd (beats : List Beat) (s t : State) : Prop where
  | finished (s' : State) (txs : List Byte) (p : FramProgress txs s s') (e : t = finishOp s')
      (first : ∀ op rest, beats = opcBeat op :: rest → ∃ more, txs = op :: more)
  | waiting (s' : State) (txs : List Byte) (p : FramProgress txs s s') (e : t.bus.chip = s'.bus.chip)

theorem FramEnd.cons {beat : Beat} {beats : List Beat} {tx rx : Byte} {s s1 t : State} (h : AtByte s.params s.bus)
    (hx : xfer s.params tx s.bus = some (rx, s1.bus)) (hparams : s1.params = s.params)
    (hbeat : ∀ op, beat = opcBeat op → tx = op) (e : FramEnd beats s1 t) : FramEnd (beat :: beats) s t := by
  cases e with
  | finished s' txs p e _ =>
    refine .finished s' (tx :: txs) (p.cons h hx hparams) e fun op rest hb => ⟨txs, ?_⟩
    rw [hbeat op (List.cons.inj hb).1]
  | waiting s' txs p e => exact .waiting s' (tx :: txs) (p.cons h hx hparams) e

theorem runBeats_framEnd {beats : List Beat} {s t : State} (h : AtByte s.params s.bus)
    (hr : runBeats beats s = .next t) : FramEnd beats s t := by
  induction beats generalizing s with
  | nil =>
    cases hr
    exact .finished s [] (.refl h) rfl fun _ _ hb => nomatch hb
  | cons beat beats ih =>
    cases beat with
    | byte ph tx keep =>
      simp only [runBeats] at hr
      split at hr
      · cases hr; exact .waiting s [] (.refl h) rfl
      · next rx b hx =>
        exact .cons (s1 := beatDone ph keep rx b s) h hx rfl (fun op hb => by cases hb; rfl) (ih (h.xfer hx).1 hr)
    | stream i =>
      simp only [runBeats] at hr
      split at hr
      · cases hr; exact .waiting s [] (.refl h) rfl
      · next tx more hwdat =>
        split at hr
        · cases hr; exact .waiting s [] (.refl h) rfl
        · next rx b hx =>
          exact .cons (s1 := beatDone (.data i) false rx b { s with wdat := more }) h hx rfl (fun op hb => nomatch hb)
            (ih (h.xfer hx).1 hr)
    | malformed w => cases hr

/-- CS rises at the end of an operation: RefFRAM takes the frame. -/
theorem finishOp_chip {s : State} (hf : Framed s.params s.bus) (hw : s.bus.wiring = .fram) :
    (finishOp s).bus.chip = chipDeselect s.params.opc s.bus.chip := by
  rw [(finishOp_out s).bus, (csDeassert_framed s.params s.bus hf hw).1]

/-! ### Memory, status register and latch over a frame -/

/-- A frame whose opcode is not WRITE leaves the memory (R60, R70). -/
theorem chipFrame_mem (o : Opcodes) (op : Byte) (rest : List Byte) (c : Chip) (h : op ≠ o.write) :
    (chipFrame o (op :: rest) c).mem = c.mem := by
  obtain ⟨hopc, -⟩ := chipBytes_count o rest (chipOpened o op c) (by simp)
  have kept := (chipOpened_steady o op c).trans (chipBytes_steady o rest (chipOpened o op c))
  rw [chipFrame_cons, chipDeselect_mem, chipMemAfter_of_ne _ _ (by rw [hopc, chipOpened_opc]; exact h)]
  exact kept.mem

/-- A frame from a bus `b` at rest whose opcode is not WRITE leaves the memory, finished or waiting, whatever is
attached. -/
theorem runBeats_mem {op : Byte} {rest : List Beat} {s t : State} {b : Bus} (hbus : s.bus = csAssert s.params.opc b)
    (hc : pinsConfigured s.params b = true) (hl : b.pins.cs.latch = true) (hop : op ≠ s.params.opc.write)
    (h : runBeats (opcBeat op :: rest) s = .next t) : t.bus.chip.mem = b.chip.mem := by
  by_cases hw : b.wiring = .fram
  · obtain ⟨atByte, hchip⟩ := AtByte.csAssert hc hl hw
    rw [← hbus] at atByte hchip
    cases runBeats_framEnd atByte h with
    | finished s' txs p e first =>
      obtain ⟨more, rfl⟩ := first op rest rfl
      rw [e, finishOp_chip p.atByte.framed p.atByte.wiring, p.params, p.chip, hchip]
      exact chipFrame_mem s.params.opc op more b.chip hop
    | waiting s' txs p e => rw [e, p.chip, (chipBytes_steady _ _ _).mem, hchip, chipSelect_mem]
  · have unused := (hbus ▸ csAssert_chipUnused s.params.opc b).trans (runBeats_chipUnused h)
    rw [unused.chip hw]

/-! ### BEGIN's probe -/

theorem engineLasts_congr {n : Nat} {s t : State} (hparams : t.params = s.params)
    (hbudget : t.bus.hwx.budget = s.bus.hwx.budget) : engineLasts n t = engineLasts n s := by
  simp only [engineLasts, hparams, hbudget]

theorem beginFramed_engineLasts (n : Nat) (s : State) : engineLasts n (beginFramed s) = engineLasts n s := by
  have cfg := configurePins_out s.params s.bus
  obtain ⟨cs, -, -⟩ := csAssert_out s.params.opc (configurePins s.params s.bus)
  exact engineLasts_congr rfl ((congrArg Hwx.budget cs.hwx).trans cfg.budget)

theorem beginFramed_chipUnused (s : State) (h : wire s.bus.pins.cs ≠ some false) :
    ChipUnused s.bus (beginFramed s).bus :=
  .trans ⟨(configurePins_out s.params s.bus).wiring, fun _ => configurePins_chip s.params h⟩
    (csAssert_chipUnused s.params.opc (configurePins s.params s.bus))

/-- BEGIN's pin configuration and CS falling begin a frame at RefFRAM, where CS was not driven low. -/
theorem beginFramed_atByte {s : State} (hw : s.bus.wiring = .fram) (h : wire s.bus.pins.cs ≠ some false) :
    AtByte s.params (beginFramed s).bus ∧ (beginFramed s).bus.chip = chipSelect s.bus.chip := by
  have cfg := configurePins_out s.params s.bus
  obtain ⟨atByte, hchip⟩ := AtByte.csAssert cfg.configured (by rw [cfg.cs]) (cfg.wiring.trans hw)
  exact ⟨atByte, hchip.trans (by rw [configurePins_chip s.params h])⟩

/-- BEGIN completes, and RefFRAM takes its probe as one frame (R112). -/
theorem execBegin_fram {s : State} (hb : s.busy = false) (hl : engineLasts 5 s = true) (hw : s.bus.wiring = .fram)
    (h : wire s.bus.pins.cs ≠ some false) :
    ∃ t, exec .begin s = .next t ∧ t.bus.chip = chipFrame s.params.opc (probeBytes s.params) s.bus.chip := by
  obtain ⟨atByte, hchip⟩ := beginFramed_atByte hw h
  obtain ⟨s', hr, hparams, framed, wiring, hchip', -, -⟩ := runBeats_fram (frameFID s.params) (beginFramed s)
    (probeBytes s.params) rfl ((beginFramed_engineLasts 5 s).trans hl) atByte.framed atByte.wiring atByte.bits
  refine ⟨finishOp s', (execBegin_idle s hb).trans hr, ?_⟩
  rw [finishOp_chip framed wiring, hparams, hchip', hchip]
  rfl

/-- BEGIN completes, and leaves RefFRAM out where it is not attached. -/
theorem execBegin_chipUnused {s : State} (hb : s.busy = false) (hl : engineLasts 5 s = true)
    (h : wire s.bus.pins.cs ≠ some false) : ∃ t, exec .begin s = .next t ∧ ChipUnused s.bus t.bus := by
  obtain ⟨-, s', hr, -, -⟩ := runBeats_sent (frameFID s.params) (beginFramed s) (probeBytes s.params) rfl
    ((beginFramed_engineLasts 5 s).trans hl)
  exact ⟨finishOp s', (execBegin_idle s hb).trans hr, (beginFramed_chipUnused s h).trans (runBeats_chipUnused hr)⟩

/-- Settles O48: the probe is one RDID frame, which stores nothing and is neither WREN nor WRDI. -/
theorem beginChangesNoChipState : Obligations.BeginChangesNoChipState := by
  intro s hb hl hdistinct hcs
  by_cases hw : s.bus.wiring = .fram
  · obtain ⟨t, ht, hchip⟩ := execBegin_fram hb hl hw hcs
    have apart := opcodes_apart hdistinct
    obtain ⟨hmem, hsr⟩ := chipFrame_keeps s.params.opc s.params.opc.rdid (probeBytes s.params).tail s.bus.chip
      apart.rdid_write apart.rdid_wrsr
    have hwel := chipFrame_wel s.params.opc s.params.opc.rdid (probeBytes s.params).tail s.bus.chip
      apart.rdid_write apart.rdid_wrsr (List.cons_ne_nil _ _)
    exact ⟨t, ht, hchip ▸ hmem, hchip ▸ hsr, hchip ▸ hwel⟩
  · obtain ⟨t, ht, unused⟩ := execBegin_chipUnused hb hl hcs
    rw [← unused.chip hw]
    exact ⟨t, ht, rfl, rfl, rfl⟩

/-! ### Operations that store nothing -/

/-- The opcode of a host operation is WRITE's only in WRITE8 and WRITE (R96). -/
theorem opcodeOf_ne_write {o : Opcodes} (h : o.Distinct) {k : OpKind} (h8 : k ≠ .write8) (hw : k ≠ .write) :
    opcodeOf o k ≠ o.write := by
  have apart := opcodes_apart h
  cases k with
  | begin => exact apart.rdid_write
  | writeEnableT => exact apart.wren_write
  | writeEnableF => exact apart.wrdi_write
  | write8 => exact absurd rfl h8
  | write => exact absurd rfl hw
  | read8 => exact apart.read_write
  | getDeviceId => exact apart.rdid_write
  | getStatus => exact apart.rdsr_write
  | setStatus => exact apart.wrsr_write

theorem eq_write8_of_pinOpOf {i : Instr} (h : pinOpOf i = some .write8) : ∃ a v, i = .write8 a v := by
  cases i <;> cases h
  exact ⟨_, _, rfl⟩

theorem eq_write_of_pinOpOf {i : Instr} (h : pinOpOf i = some .write) : ∃ a n, i = .write a n := by
  cases i <;> cases h
  exact ⟨_, _, rfl⟩

theorem execBegin_mem {s t : State} (hb : s.busy = false) (hready : BusReady s) (hdistinct : s.params.opc.Distinct)
    (h : exec .begin s = .next t) : t.bus.chip.mem = s.bus.chip.mem := by
  have cfg := configurePins_out s.params s.bus
  have hrun : runBeats (frameFID s.params) (beginFramed s) = .next t := (execBegin_idle s hb).symm.trans h
  rw [← configurePins_chip s.params (wire_cs_of_ready hready.1 hready.2)]
  exact runBeats_mem (s := beginFramed s) rfl cfg.configured (by rw [cfg.cs]) (opcodes_apart hdistinct).rdid_write hrun

theorem runPinOp_mem {k : OpKind} {l : OpLatches} {frame : State → List Beat} {s t : State} {op : Byte}
    {rest : List Beat} (hb : s.busy = false) (hready : BusReady s) (hop : op ≠ s.params.opc.write)
    (hframe : frame (accept (some k) l s) = opcBeat op :: rest) (h : runPinOp k l frame s = .next t) :
    t.bus.chip.mem = s.bus.chip.mem := by
  obtain ⟨busy, -⟩ | ⟨-, hrun⟩ := atAcceptance_end h
  · simp [hb] at busy
  · rw [hframe] at hrun
    exact runBeats_mem (s := framed k l s) rfl hready.1 hready.2 hop hrun

/-- Settles O49, case by case over what `exec` can do: no frame has the opcode WRITE. -/
theorem nonStoringOperationsKeepMemory : Obligations.NonStoringOperationsKeepMemory := by
  intro i s t hhost h8 hw hb hready hdistinct h x
  have hmem : t.bus.chip.mem = s.bus.chip.mem := by
    cases exec_end h with
    | same _ e => rw [e]
    | disturbed busy _ _ _ => simp [hb] at busy
    | get _ _ e => rw [e]; rfl
    | set _ _ _ e => rw [e]; rfl
    | begin _ hi _ => exact execBegin_mem hb hready hdistinct (hi ▸ h)
    | pin _ k l frame _ hi _ hh r _ =>
      obtain ⟨rest, hframe⟩ := hh (accept (some k) l s) rfl rfl
      have hk8 : k ≠ .write8 := by
        rintro rfl
        obtain ⟨a, v, rfl⟩ := eq_write8_of_pinOpOf hi
        exact h8 a v rfl
      have hkw : k ≠ .write := by
        rintro rfl
        obtain ⟨a, n, rfl⟩ := eq_write_of_pinOpOf hi
        exact hw a n rfl
      exact runPinOp_mem hb hready (opcodeOf_ne_write hdistinct hk8 hkw) hframe r
    | wire _ hi _ => simp [hhost] at hi
  rw [hmem]

end Sys2Proof.Machine

/-! ## Proofs of the family 20_memory: the device's memory as a list -/

namespace Sys2Proof.Machine

/-! ### The canonical form -/

/-- A canonical memory with a first entry: its value, and a tail that lists no address up to it. -/
theorem wf_cons {a : Nat} {v : Byte} {m : Memory} (h : Memory.wf ((a, v) :: m) = true) :
    v ≠ memDefault ∧ memHeadAbove a m = true ∧ Memory.wf m = true := by
  simp only [Memory.wf, Bool.and_eq_true, decide_eq_true_eq] at h
  obtain ⟨⟨hv, habove⟩, hwf⟩ := h
  exact ⟨hv, habove, hwf⟩

theorem memRead_cons_self (a : Nat) (v : Byte) (m : Memory) : memRead ((a, v) :: m) a = v := if_pos rfl

theorem memRead_cons_of_ne {a c : Nat} (v : Byte) (m : Memory) (h : a ≠ c) : memRead ((a, v) :: m) c = memRead m c :=
  if_neg h

/-- Below its first entry a canonical memory reads as the default. -/
theorem memRead_lt_head {a c : Nat} {v : Byte} {m : Memory} (h : Memory.wf ((a, v) :: m) = true) (hc : c < a) :
    memRead ((a, v) :: m) c = memDefault :=
  memRead_below _ c c h (decide_eq_true hc) (Nat.le_refl c)

/-- Of two canonical memories that read the same, neither starts below the other. -/
theorem head_not_lt {a b : Nat} {v x : Byte} {m n : Memory} (hm : Memory.wf ((a, v) :: m) = true)
    (hn : Memory.wf ((b, x) :: n) = true) (h : ∀ c, memRead ((a, v) :: m) c = memRead ((b, x) :: n) c) : ¬ a < b := by
  intro hlt
  have hread := h a
  rw [memRead_cons_self, memRead_lt_head hn hlt] at hread
  exact (wf_cons hm).1 hread

/-- Tails of canonical memories with one head read the same where the whole memories do. -/
theorem memRead_tail_eq {a : Nat} {v x : Byte} {m n : Memory} (hm : Memory.wf ((a, v) :: m) = true)
    (hn : Memory.wf ((a, x) :: n) = true) (h : ∀ c, memRead ((a, v) :: m) c = memRead ((a, x) :: n) c) (c : Nat) :
    memRead m c = memRead n c := by
  obtain ⟨-, hma, hmwf⟩ := wf_cons hm
  obtain ⟨-, hna, hnwf⟩ := wf_cons hn
  by_cases hc : a = c
  · rw [memRead_below m c a hmwf hma hc.ge, memRead_below n c a hnwf hna hc.ge]
  · rw [← memRead_cons_of_ne v m hc, ← memRead_cons_of_ne x n hc, h c]

/-- Settles O42, by induction on the lists: their first entries are the same. -/
theorem canonicalMemoryIsExtensional : Obligations.CanonicalMemoryIsExtensional := by
  intro m
  induction m with
  | nil =>
    rintro (_ | ⟨⟨b, x⟩, n⟩) - hn h
    · rfl
    · exact absurd ((h b).trans (memRead_cons_self b x n)).symm (wf_cons hn).1
  | cons cell m ih =>
    obtain ⟨a, v⟩ := cell
    rintro (_ | ⟨⟨b, x⟩, n⟩) hm hn h
    · exact absurd ((memRead_cons_self a v m).symm.trans (h a)) (wf_cons hm).1
    · obtain rfl : a = b :=
        Nat.le_antisymm (Nat.le_of_not_lt (head_not_lt hn hm fun c => (h c).symm))
          (Nat.le_of_not_lt (head_not_lt hm hn h))
      obtain rfl : v = x := by simpa only [memRead_cons_self] using h a
      rw [ih n (wf_cons hm).2.2 (wf_cons hn).2.2 (memRead_tail_eq hm hn h)]

/-! ### A block of bytes -/

theorem memWriteAll_cons (m : Memory) (c : Host.Cell) (cells : List Host.Cell) :
    memWriteAll m (c :: cells) = memWriteAll (memWrite m c.1 c.2) cells := rfl

/-- A list of writes to pairwise different addresses leaves its byte at each of them. -/
theorem memRead_memWriteAll_mem {cells : List Host.Cell} {m : Memory} (hw : Memory.wf m = true)
    (hdiff : (cells.map Prod.fst).Nodup) {c : Host.Cell} (hc : c ∈ cells) :
    memRead (memWriteAll m cells) c.1 = c.2 := by
  induction cells generalizing m with
  | nil => cases hc
  | cons d cells ih =>
    obtain ⟨hd, hdiff⟩ := List.nodup_cons.1 hdiff
    have hw' := memWrite_wf m d.1 d.2 hw
    rw [memWriteAll_cons]
    obtain rfl | hc := List.mem_cons.1 hc
    · rw [memRead_memWriteAll_other cells _ c.1 hw' fun e he heq => hd (heq ▸ List.mem_map_of_mem he)]
      exact memRead_memWrite_same m c.1 c.2 hw
    · exact ih hw' hdiff hc

theorem blockCells_mem {memBytes a i : Nat} {data : List Byte} {v : Byte} (h : data[i]? = some v) :
    ((a + i) % memBytes, v) ∈ blockCells memBytes a data := by
  have hmem : (v, i) ∈ data.zipIdx := List.mem_zipIdx_iff_getElem?.2 h
  exact List.mem_map_of_mem (f := fun x : Byte × Nat => ((a + x.2) % memBytes, x.1)) hmem

/-- A block that does not reach past the end of the device goes to pairwise different addresses. -/
theorem blockCells_nodup {memBytes a : Nat} {data : List Byte} (h : a + data.length ≤ memBytes) :
    ((blockCells memBytes a data).map Prod.fst).Nodup := by
  have haddr : (blockCells memBytes a data).map Prod.fst =
      (List.range' 0 data.length).map fun i => (a + i) % memBytes := by
    rw [← List.zipIdx_map_snd 0 data, List.map_map, blockCells, List.map_map]
    rfl
  rw [haddr]
  refine List.Nodup.map_on (fun i hi j hj heq => ?_) List.nodup_range'
  have hi : i < data.length := by simpa using hi
  have hj : j < data.length := by simpa using hj
  rw [Nat.mod_eq_of_lt (by omega), Nat.mod_eq_of_lt (by omega)] at heq
  omega

/-- WRITE8's block is one cell. -/
theorem blockCells_singleton (memBytes a : Nat) (v : Byte) : blockCells memBytes a [v] = [(a % memBytes, v)] := rfl

end Sys2Proof.Machine

/-! ## Proofs of the family 20_memory: frames presented to the device alone -/

namespace Sys2Proof.Machine

/-- Settles O43, by what a presented frame leaves as it is. -/
theorem wireFramesLeaveBlockAlone : Obligations.WireFramesLeaveBlockAlone := by
  intro i s hi hb
  have out := deviceFrame_out s.params.opc (frameBytes s.params.opc s.params.dummy i) s.bus
  obtain ⟨f, hframes, hsent⟩ := out.frames
  exact ⟨f, _, exec_wire hi hb, rfl, out.pins, out.engine, out.hwx, out.wiring, out.params, out.trace, hframes, hsent⟩

/-! ### The seven formats at RefFRAM -/

/-- From `b` to `b'` RefFRAM took one frame of the bytes `txs`, which is on the byte-level trace with its answers. -/
structure FrameAtFram (o : Opcodes) (txs : List Byte) (b b' : Bus) : Prop where
  chip : b'.chip = chipFrame o txs b.chip
  frames : b'.frames = b.frames ++ [(chipBytes o txs (chipSelect b.chip)).1]

theorem deviceFrame_atFram (o : Opcodes) (txs : List Byte) {b : Bus} (hw : b.wiring = .fram) :
    FrameAtFram o txs b (deviceFrame o txs b) := by
  rw [deviceFrame_fram o txs b hw]
  exact ⟨rfl, rfl⟩

/-- A row of the wire encoding at RefFRAM is its frame, byte by byte. -/
theorem exec_wire_fram {s : State} (i : Instr) (txs : List Byte) (hi : isWire i = true)
    (hbytes : frameBytes s.params.opc s.params.dummy i = txs) (hb : s.busy = false) (hw : s.bus.wiring = .fram) :
    ∃ t, exec i s = .next t ∧ FrameAtFram s.params.opc txs s.bus t.bus :=
  ⟨_, exec_wire hi hb, hbytes ▸ deviceFrame_atFram _ _ hw⟩

/-- Settles O44, by the frames WREN and WRDI. -/
theorem wireWriteEnableLatch : Obligations.WireWriteEnableLatch := by
  intro s hb hw hdistinct
  have apart := opcodes_apart hdistinct
  constructor
  · obtain ⟨t, ht, taken⟩ := exec_wire_fram .wireWren [s.params.opc.wren] rfl rfl hb hw
    refine ⟨t, ht, ?_⟩
    rw [taken.chip]
    exact ⟨chipFrame_wren _ _ hdistinct, chipFrame_keeps _ _ [] _ apart.wren_write apart.wren_wrsr⟩
  · obtain ⟨t, ht, taken⟩ := exec_wire_fram .wireWrdi [s.params.opc.wrdi] rfl rfl hb hw
    refine ⟨t, ht, ?_⟩
    rw [taken.chip]
    exact ⟨chipFrame_wrdi _ _ hdistinct, chipFrame_keeps _ _ [] _ apart.wrdi_write apart.wrdi_wrsr⟩

/-- A frame of more than its opcode, which is neither WRITE's nor WRSR's, leaves memory, status register and latch. -/
theorem chipFrame_keeps_all (o : Opcodes) {op : Byte} {rest : List Byte} (c : Chip) (hwrite : op ≠ o.write)
    (hwrsr : op ≠ o.wrsr) (hrest : rest ≠ []) :
    (chipFrame o (op :: rest) c).mem = c.mem ∧ (chipFrame o (op :: rest) c).sr = c.sr ∧
      (chipFrame o (op :: rest) c).wel = c.wel := by
  obtain ⟨hmem, hsr⟩ := chipFrame_keeps o op rest c hwrite hwrsr
  exact ⟨hmem, hsr, chipFrame_wel o op rest c hwrite hwrsr hrest⟩

/-- Settles O45, by the frames RDSR and WRSR. -/
theorem wireStatusRegister : Obligations.WireStatusRegister := by
  intro s v hb hw hdistinct
  have apart := opcodes_apart hdistinct
  constructor
  · obtain ⟨t, ht, taken⟩ := exec_wire_fram .wireRdsr [s.params.opc.rdsr, s.params.dummy] rfl rfl hb hw
    refine ⟨_, t, ht, taken.frames.trans (by rw [chipBytes_rdsr]), ?_⟩
    rw [taken.chip]
    exact chipFrame_keeps_all _ _ apart.rdsr_write apart.rdsr_wrsr (List.cons_ne_nil _ _)
  · obtain ⟨t, ht, taken⟩ := exec_wire_fram (.wireWrsr v) [s.params.opc.wrsr, v] rfl rfl hb hw
    refine ⟨t, ht, ?_⟩
    rw [taken.chip]
    exact chipFrame_wrsr _ v _ hdistinct

/-- Settles O46, by the frames READ and RDID. -/
theorem wireReads : Obligations.WireReads := by
  intro s a hb hw hdistinct
  have apart := opcodes_apart hdistinct
  constructor
  · intro hfits
    obtain ⟨t, ht, taken⟩ := exec_wire_fram (.wireRead s.bus.chip.params.aw a)
      (s.params.opc.read :: addrField s.bus.chip.params.aw a ++ [s.params.dummy]) rfl rfl hb hw
    refine ⟨_, t, ht, taken.frames, ?_, ?_⟩
    · rw [chipBytes_read _ _ _ _ hdistinct (addrField_length _ a), beValue_addrField _ a hfits]
    · rw [taken.chip]
      exact chipFrame_keeps_all _ _ apart.read_write apart.read_wrsr (by simp)
  · obtain ⟨t, ht, taken⟩ := exec_wire_fram .wireRdid
      [s.params.opc.rdid, s.params.dummy, s.params.dummy, s.params.dummy, s.params.dummy] rfl rfl hb hw
    refine ⟨_, t, ht, taken.frames.trans (by rw [chipBytes_rdid _ _ _ hdistinct]), ?_⟩
    rw [taken.chip]
    exact chipFrame_keeps_all _ _ apart.rdid_write apart.rdid_wrsr (List.cons_ne_nil _ _)

/-- What a device's choice to commit a list of writes or not leaves at every address outside the list. -/
theorem memRead_commit_other {m : Memory} {cells : List Host.Cell} {x : Nat} (accepts : Bool) (hw : Memory.wf m = true)
    (hx : ∀ c ∈ cells, c.1 ≠ x) : memRead (if accepts then memWriteAll m cells else m) x = memRead m x := by
  split
  · exact memRead_memWriteAll_other cells m x hw hx
  · rfl

/-- Settles O47, by the frame WRITE. -/
theorem wireWriteCommits : Obligations.WireWriteCommits := by
  intro s a data hb hw hdistinct hfits hwf
  obtain ⟨t, ht, taken⟩ := exec_wire_fram (.wireWrite s.bus.chip.params.aw a data)
    (s.params.opc.write :: addrField s.bus.chip.params.aw a ++ data) rfl rfl hb hw
  obtain ⟨hmem, hsr, -⟩ := chipFrame_write s.params.opc _ data s.bus.chip hdistinct (addrField_length _ a)
  rw [beValue_addrField _ a hfits] at hmem
  refine ⟨t, ht, ?_⟩
  rw [taken.chip]
  exact ⟨hmem, fun x hx => by rw [hmem]; exact memRead_commit_other _ hwf hx, hsr⟩

end Sys2Proof.Machine

/-! ## Proofs of the family 20_memory: any frame at an idle block -/

namespace Sys2Proof.Machine

/-! ### The decoder gives the frame's own instruction -/

theorem extractLsb'_append_bytes (x y z : Byte) :
    (x ++ y ++ z : Addr24).extractLsb' 16 8 = x ∧ (x ++ y ++ z : Addr24).extractLsb' 8 8 = y ∧
      (x ++ y ++ z : Addr24).extractLsb' 0 8 = z := by
  refine ⟨?_, ?_, BitVec.extractLsb'_append_eq_right⟩
  · rw [BitVec.extractLsb'_append_eq_of_le (by decide)]; exact BitVec.extractLsb'_append_eq_left
  · rw [BitVec.extractLsb'_append_eq_of_le (by decide)]; exact BitVec.extractLsb'_append_eq_right

/-- The address field read from the head of a frame is what the frame has there. -/
theorem takeAddr_eq_some {w : AddrWidth} {bytes tail : List Byte} {a : Addr24} (h : takeAddr w bytes = some (a, tail)) :
    bytes = addrField w a ++ tail := by
  unfold takeAddr at h
  split at h
  · next b0 _ =>
    cases h
    obtain ⟨-, -, h0⟩ := extractLsb'_append_bytes 0 0 b0
    simp only [addrField, h0, List.cons_append, List.nil_append]
  · next b1 b0 _ =>
    cases h
    obtain ⟨-, h1, h0⟩ := extractLsb'_append_bytes 0 b1 b0
    simp only [addrField, h1, h0, List.cons_append, List.nil_append]
  · next b2 b1 b0 _ =>
    cases h
    obtain ⟨h2, h1, h0⟩ := extractLsb'_append_bytes b2 b1 b0
    simp only [addrField, h2, h1, h0, List.cons_append, List.nil_append]
  · cases h

theorem decodeF0_eq_some {i j : Instr} {rest : List Byte} (h : decodeF0 i rest = some j) : j = i ∧ rest = [] := by
  unfold decodeF0 at h
  split at h <;> cases h
  exact ⟨rfl, rfl⟩

theorem decodeF1W_eq_some {i : Byte → Instr} {j : Instr} {rest : List Byte} (h : decodeF1W i rest = some j) :
    ∃ v, j = i v ∧ rest = [v] := by
  unfold decodeF1W at h
  split at h <;> cases h
  exact ⟨_, rfl, rfl⟩

theorem decodeDummies_eq_some {dummy : Byte} {n : Nat} {i j : Instr} {rest : List Byte}
    (h : decodeDummies dummy n i rest = some j) : j = i ∧ rest = List.replicate n dummy := by
  unfold decodeDummies at h
  split at h <;> cases h
  exact ⟨rfl, ‹_›⟩

theorem decodeFAR_eq_some {dummy : Byte} {w : AddrWidth} {j : Instr} {rest : List Byte}
    (h : decodeFAR dummy w rest = some j) : ∃ a, j = .wireRead w a ∧ rest = addrField w a ++ [dummy] := by
  unfold decodeFAR at h
  split at h
  · next a tail htake =>
    obtain ⟨rfl, rfl⟩ := decodeDummies_eq_some h
    exact ⟨a, rfl, takeAddr_eq_some htake⟩
  · cases h

theorem decodeFAW_eq_some {w : AddrWidth} {j : Instr} {rest : List Byte} (h : decodeFAW w rest = some j) :
    ∃ a data, j = .wireWrite w a data ∧ rest = addrField w a ++ data := by
  unfold decodeFAW at h
  split at h
  · next a data htake =>
    split at h <;> cases h
    exact ⟨a, data, rfl, takeAddr_eq_some htake⟩
  · cases h

/-- What follows an opcode, opcode by opcode (R85). -/
theorem decodeAfter_eq_some {o : Opcodes} {dummy op : Byte} {w : AddrWidth} {rest : List Byte} {i : Instr}
    (h : decodeAfter o dummy w op rest = some i) : isWire i = true ∧ frameBytes o dummy i = op :: rest := by
  unfold decodeAfter at h
  split at h
  · obtain ⟨rfl, rfl⟩ := decodeF0_eq_some h; subst op; exact ⟨rfl, rfl⟩
  split at h
  · obtain ⟨rfl, rfl⟩ := decodeF0_eq_some h; subst op; exact ⟨rfl, rfl⟩
  split at h
  · obtain ⟨rfl, rfl⟩ := decodeDummies_eq_some h; subst op; exact ⟨rfl, rfl⟩
  split at h
  · obtain ⟨v, rfl, rfl⟩ := decodeF1W_eq_some h; subst op; exact ⟨rfl, rfl⟩
  split at h
  · obtain ⟨a, rfl, rfl⟩ := decodeFAR_eq_some h; subst op; exact ⟨rfl, rfl⟩
  split at h
  · obtain ⟨a, data, rfl, rfl⟩ := decodeFAW_eq_some h; subst op; exact ⟨rfl, rfl⟩
  split at h
  · obtain ⟨rfl, rfl⟩ := decodeDummies_eq_some h; subst op; exact ⟨rfl, rfl⟩
  · cases h

/-- A frame is one of the wire instructions, with its own bytes, or of no format. -/
theorem decodeFrame_cases (o : Opcodes) (dummy : Byte) (w : AddrWidth) (bytes : List Byte) :
    (∃ i, decodeFrame o dummy w bytes = .ok i ∧ isWire i = true ∧ frameBytes o dummy i = bytes) ∨
      decodeFrame o dummy w bytes = .error (.noFormat bytes) := by
  unfold decodeFrame
  split
  · exact .inr rfl
  · split
    · exact .inl ⟨_, rfl, decodeAfter_eq_some ‹_›⟩
    · exact .inr rfl

theorem decodeInput_frame (s : State) (bytes : List Byte) :
    (∃ i, decodeInput s (.frame bytes) = .ok i ∧ isWire i = true ∧ frameBytes s.params.opc s.params.dummy i = bytes) ∨
      decodeInput s (.frame bytes) = .error (.noFormat bytes) :=
  decodeFrame_cases s.params.opc s.params.dummy s.bus.chip.params.aw bytes

/-- A frame at an idle block acts on what is attached, whether it has a format or none. -/
theorem step_frame_idle {s : State} {g : Agent} {bytes : List Byte} {rest : List Entry} (hb : s.busy = false)
    (hin : s.inbox = { agent := g, enc := .frame bytes } :: rest) :
    step s = .next { s with inbox := rest, bus := deviceFrame s.params.opc bytes s.bus } := by
  rcases decodeInput_frame { s with inbox := rest } bytes with ⟨i, hdec, hwire, hbytes⟩ | hdec
  · rw [stepRunsDecoded s _ rest i hb hin hdec, exec_wire (s := { s with inbox := rest }) hwire hb, hbytes]
  · simp only [step, fetch_idle_cons hb hin, fetchIdle, hdec, fetchRejected]

/-! ### RefFRAM and an opcode it does not know -/

/-- A frame with none of the seven opcodes commits nothing and moves no latch (R64). -/
theorem chipFrame_unknown {o : Opcodes} {op : Byte} (rest : List Byte) (c : Chip) (h : op ∉ o.toList) :
    (chipFrame o (op :: rest) c).mem = c.mem ∧ (chipFrame o (op :: rest) c).sr = c.sr ∧
      (chipFrame o (op :: rest) c).wel = c.wel := by
  simp only [Opcodes.toList, List.mem_cons, List.not_mem_nil, or_false, not_or] at h
  obtain ⟨hwren, hwrdi, -, hwrsr, -, hwrite, -⟩ := h
  obtain ⟨hopc, -⟩ := chipBytes_count o rest (chipOpened o op c) (by simp)
  have kept := (chipOpened_steady o op c).trans (chipBytes_steady o rest (chipOpened o op c))
  obtain ⟨hmem, hsr⟩ := chipFrame_keeps o op rest c hwrite hwrsr
  refine ⟨hmem, hsr, ?_⟩
  rw [chipFrame_cons, chipDeselect_wel, chipWelAfter, hopc, chipOpened_opc]
  simp only [hwren, hwrdi, hwrite, hwrsr, and_false, or_self, false_and, if_false, kept.wel]

theorem chipUndriven_of_some {c : Chip} {v : Byte} (h : c.params.undriven = some v) : chipUndriven c = v := by
  simp only [chipUndriven, h]

/-- With an opcode it does not know RefFRAM drives nothing in any byte (R64). -/
theorem chipAnswer_unknown {o : Opcodes} {c : Chip} (h : c.opc ∉ o.toList) : chipAnswer o c = chipUndriven c := by
  simp only [Opcodes.toList, List.mem_cons, List.not_mem_nil, or_false, not_or] at h
  obtain ⟨-, -, hrdsr, hwrsr, hread, hwrite, hrdid⟩ := h
  simp only [chipAnswer, hrdsr, hwrsr, hread, hwrite, hrdid, if_false, or_self, false_and, ite_self]

theorem chipBytes_unknown {o : Opcodes} {c : Chip} {v : Byte} (txs : List Byte) (hr : c.rxn ≠ 0)
    (hop : c.opc ∉ o.toList) (hv : c.params.undriven = some v) : ∀ x ∈ (chipBytes o txs c).1, x.2 = v := by
  induction txs generalizing c with
  | nil => exact fun x hx => nomatch hx
  | cons tx txs ih =>
    obtain ⟨hopc, hrxn⟩ := chipByte_count o tx c hr
    have htail := ih (c := (chipByte o tx c).2) (by omega) (hopc ▸ hop) (by rw [chipByte_params]; exact hv)
    rintro x (_ | ⟨_, hx⟩)
    · exact (chipAnswer_unknown hop).trans (chipUndriven_of_some hv)
    · exact htail x hx

/-- Every answer to such a frame is the undriven byte, the one to the opcode included. -/
theorem chipFrame_unknown_answers {o : Opcodes} {op v : Byte} {c : Chip} (rest : List Byte) (hop : op ∉ o.toList)
    (hv : c.params.undriven = some v) : ∀ x ∈ (chipBytes o (op :: rest) (chipSelect c)).1, x.2 = v := by
  have hopened := chipBytes_unknown (c := chipOpened o op c) rest (by simp) (by simpa using hop)
    (by rw [(chipOpened_steady o op c).params]; exact hv)
  rw [chipBytes_cons]
  rintro x (_ | ⟨_, hx⟩)
  · exact chipUndriven_of_some hv
  · exact hopened x hx

/-- Settles O60. -/
theorem anyFrameActsOnDevice : Obligations.AnyFrameActsOnDevice := by
  refine ⟨fun s g bytes rest hb hin => step_frame_idle hb hin, fun o op rest b hw hop => ?_⟩
  obtain ⟨hchip, hframes⟩ := deviceFrame_atFram o (op :: rest) hw
  obtain ⟨hmem, hsr, hwel⟩ := chipFrame_unknown rest b.chip hop
  rw [hchip]
  exact ⟨hmem, hsr, hwel, fun v hv => ⟨_, hframes, chipFrame_unknown_answers rest hop hv⟩⟩

end Sys2Proof.Machine

/-! ## Proofs of the family 20_memory: addresses that differ above the width -/

namespace Sys2Proof.Machine

/-- A host operation with a frame completes: one frame of its bytes, and the rest of the block as it was. -/
theorem exec_hostFrame_completed {i : Instr} {s : State} {txs : List Byte} (h : opBytes s i = some txs)
    (ha : Admitted s) (hst : streamFull s i = true) (hl : engineLasts txs.length s = true) :
    ∃ f t, exec i s = .next t ∧ f.map Prod.fst = txs ∧ Completed s t f := by
  obtain ⟨k, l, frame, hexec, hk, htxs, hlen, hne, -⟩ := exec_hostFrame i s txs h hst
  obtain ⟨f, t, hrun, hsent, hcompleted, -, -, -⟩ :=
    runPinOp_completed k l frame s txs ha hk htxs hne (by rw [hlen]; exact hl)
  exact ⟨f, t, hexec.trans hrun, hsent, hcompleted⟩

/-! ### What the addressed operations send -/

theorem opBytes_write8 {s : State} {w : AddrWidth} (hw : widthOf s.addrW = some w) (a : Addr) (v : Byte) :
    opBytes s (.write8 a v) = some (s.params.opc.write :: addrBytes w a ++ [v]) := by
  simp only [opBytes, hw, Option.map_some]

theorem opBytes_write {s : State} {w : AddrWidth} (hw : widthOf s.addrW = some w) (a : Addr) (count : Half) :
    opBytes s (.write a count) = some (s.params.opc.write :: addrBytes w a ++ s.wdat.take count.toNat) := by
  simp only [opBytes, hw, Option.map_some]

theorem opBytes_read8 {s : State} {w : AddrWidth} (hw : widthOf s.addrW = some w) (a : Addr) :
    opBytes s (.read8 a) = some (s.params.opc.read :: addrBytes w a ++ [s.params.dummy]) := by
  simp only [opBytes, hw, Option.map_some]

theorem addressed_length (op : Byte) (w : AddrWidth) (a : Addr) (data : List Byte) :
    (op :: addrBytes w a ++ data).length = 1 + w.bytes + data.length := by
  simp only [List.cons_append, List.length_cons, List.length_append, addrBytes_length]
  omega

/-- An engine that lasts for an addressed frame of one data byte. -/
theorem engineLasts_addressed {s : State} {w : AddrWidth} (h : engineLasts (2 + w.bytes) s = true) (op : Byte)
    (a : Addr) (v : Byte) : engineLasts (op :: addrBytes w a ++ [v]).length s = true := by
  rw [addressed_length, List.length_singleton, Nat.add_right_comm]
  exact h

/-- An engine that lasts for WRITE's frame, with the bytes of the stream. -/
theorem engineLasts_write {s : State} {w : AddrWidth} {count : Half} (hcount : count.toNat ≤ s.wdat.length)
    (h : engineLasts (1 + w.bytes + count.toNat) s = true) (op : Byte) (a : Addr) :
    engineLasts (op :: addrBytes w a ++ s.wdat.take count.toNat).length s = true := by
  rw [addressed_length, List.length_take_of_le hcount]
  exact h

/-- The bytes sent for an address depend on the address modulo `2^(8 w)` alone (R66, R140). -/
theorem addrBytes_congr {w : AddrWidth} {a a' : Addr}
    (h : a.toNat % 2 ^ (8 * w.bytes) = a'.toNat % 2 ^ (8 * w.bytes)) : addrBytes w a = addrBytes w a' := by
  cases w <;>
    simp only [AddrWidth.bytes, addrBytes, List.cons.injEq, and_true, ← BitVec.toNat_inj, BitVec.extractLsb'_toNat,
      Nat.shiftRight_eq_div_pow] at h ⊢ <;>
    omega

/-! ### The operand latches after the frame is set out -/

/-- The end of an operation reads the address latch only where `ADDR_W` is outside 1, 2, 3 (R141). -/
theorem finishOp_lat {s : State} {w : AddrWidth} (hw : widthOf s.addrW = some w) (l : OpLatches) :
    finishOp { s with lat := l } = finishOp s := by
  cases hop : s.op with
  | none => simp [finishOp, respondOp, hop, complete]
  | some k => cases k <;> simp [finishOp, respondOp, hop, respond, complete, readResult, hw, result]

/-- The exchanges of a frame do not read the operand latches, and a frame that ends leaves no trace of them. -/
theorem runBeats_lat {beats : List Beat} {s t : State} {w : AddrWidth} (l : OpLatches) (hw : widthOf s.addrW = some w)
    (hb : s.busy = true) (h : runBeats beats s = .next t) (ht : t.busy = false) :
    runBeats beats { s with lat := l } = .next t := by
  induction beats generalizing s with
  | nil => rw [← h]; exact congrArg Host.Outcome.next (finishOp_lat hw l)
  | cons beat beats ih =>
    cases beat with
    | malformed w => cases h
    | byte ph tx keep =>
      simp only [runBeats] at h ⊢
      cases hx : xfer s.params tx s.bus with
      | none => rw [hx] at h; cases h; simp [hb] at ht
      | some r =>
        rw [hx] at h
        exact ih (s := beatDone ph keep r.1 r.2 s) hw hb h
    | stream i =>
      simp only [runBeats] at h ⊢
      cases hwdat : s.wdat with
      | nil => rw [hwdat] at h; cases h; simp [hb] at ht
      | cons tx more =>
        rw [hwdat] at h
        simp only at h ⊢
        cases hx : xfer s.params tx s.bus with
        | none => rw [hx] at h; cases h; simp [hb] at ht
        | some r =>
          rw [hx] at h
          exact ih (s := beatDone (.data i) false r.1 r.2 { s with wdat := more }) hw hb h

/-- Two operations of one kind whose operands give one frame are one operation. -/
theorem exec_eq_of_frame_eq {i i' : Instr} {k : OpKind} {l l' : OpLatches} {frame : State → List Beat} {s : State}
    {w : AddrWidth} {txs : List Byte} (hi : exec i s = runPinOp k l frame s) (hi' : exec i' s = runPinOp k l' frame s)
    (hframe : frame (accept (some k) l' s) = frame (accept (some k) l s)) (hw : widthOf s.addrW = some w)
    (htxs : opBytes s i = some txs) (ha : Admitted s) (hst : streamFull s i = true)
    (hl : engineLasts txs.length s = true) : ∃ t, exec i s = .next t ∧ exec i' s = .next t := by
  obtain ⟨f, t, ht, -, ⟨hidle, -⟩, -⟩ := exec_hostFrame_completed htxs ha hst hl
  refine ⟨t, ht, ?_⟩
  rw [hi, runPinOp_admitted k l frame s ha] at ht
  rw [hi', runPinOp_admitted k l' frame s ha, hframe]
  exact runBeats_lat (s := framed k l s) l' hw rfl ht hidle

/-- Settles O33: the two operations send one frame. -/
theorem addressesAlias : Obligations.AddressesAlias := by
  intro s a a' v w ha hw hl hmod
  have hbytes := addrBytes_congr hmod
  refine ⟨?_, fun count hcount hlasts => ?_, ?_⟩
  · have hframe : frameFAW8 (accept (some .write8) { s.lat with addr := a', data := v } s) =
        frameFAW8 (accept (some .write8) { s.lat with addr := a, data := v } s) := by
      simp only [frameFAW8, addrBeats, accept_params, accept_addrW, accept_lat, hw, hbytes]
    obtain ⟨t, h, h'⟩ := exec_eq_of_frame_eq (i := .write8 a v) (i' := .write8 a' v) rfl rfl hframe hw
      (opBytes_write8 hw a v) ha rfl (engineLasts_addressed hl _ a v)
    exact ⟨t, t, h, h', rfl⟩
  · have hframe : frameFAW (accept (some .write) { s.lat with addr := a', count := count } s) =
        frameFAW (accept (some .write) { s.lat with addr := a, count := count } s) := by
      simp only [frameFAW, addrBeats, accept_params, accept_addrW, accept_lat, hw, hbytes]
    obtain ⟨t, h, h'⟩ := exec_eq_of_frame_eq (i := .write a count) (i' := .write a' count) rfl rfl hframe hw
      (opBytes_write hw a count) ha (decide_eq_true hcount) (engineLasts_write hcount hlasts _ a)
    exact ⟨t, t, h, h', rfl, rfl⟩
  · have hframe : frameFAR (accept (some .read8) { s.lat with addr := a' } s) =
        frameFAR (accept (some .read8) { s.lat with addr := a } s) := by
      simp only [frameFAR, addrBeats, accept_params, accept_addrW, accept_lat, hw, hbytes]
    obtain ⟨t, h, h'⟩ := exec_eq_of_frame_eq (i := .read8 a) (i' := .read8 a') rfl rfl hframe hw
      (opBytes_read8 hw a) ha rfl (engineLasts_addressed hl _ a _)
    exact ⟨t, t, h, h', rfl, rfl⟩

end Sys2Proof.Machine

/-! ## Proofs of the family 20_memory: host operations at RefFRAM -/

namespace Sys2Proof.Machine

/-! ### A host operation is one frame at RefFRAM -/

/-- From `s` to `t` a host operation completed, and RefFRAM took its bytes `txs` as one frame. -/
structure OperationAtFram (txs : List Byte) (s t : State) : Prop where
  completed : Completed s t (chipBytes s.params.opc txs (chipSelect s.bus.chip)).1
  chip : t.bus.chip = chipFrame s.params.opc txs s.bus.chip
  budget : s.bus.hwx.budget = none → t.bus.hwx.budget = none
  seen : t.bus.seen = s.bus.seen ++ frameSeen txs

/-- Every host operation with a frame, from a bus at rest (R57, R187, R188). -/
theorem exec_hostFrame_fram {i : Instr} {s : State} {txs : List Byte} (h : opBytes s i = some txs) (ha : Admitted s)
    (hr : BusReady s) (hw : s.bus.wiring = .fram) (hst : streamFull s i = true) (hl : engineLasts txs.length s = true) :
    ∃ t, exec i s = .next t ∧ OperationAtFram txs s t := by
  obtain ⟨k, l, frame, hexec, hk, htxs, hlen, hne, -⟩ := exec_hostFrame i s txs h hst
  obtain ⟨t, hrun, hcompleted, hchip, -, -, hbudget, hseen⟩ :=
    runPinOp_fram k l frame s txs ha hr hw hk htxs hne (by rw [hlen]; exact hl)
  exact ⟨t, hexec.trans hrun, hcompleted, hchip, hbudget, hseen⟩

/-! ### BEGIN -/

/-- The end of an operation completes its open frame (R184). -/
theorem finishOp_frames (s : State) : (finishOp s).bus.frames = s.bus.frames ++ [s.bus.frame] := by
  obtain ⟨-, -, hframes⟩ := csDeassert_out s.params.opc s.bus
  rw [(finishOp_out s).bus, hframes]

/-- The frame that exchanges at RefFRAM complete: what was open, and the pairs RefFRAM makes of the bytes. -/
theorem runBeats_fram_frames {beats : List Beat} {s t : State} {txs : List Byte} (h : txsOf beats s.wdat = some txs)
    (hl : engineLasts beats.length s = true) (hat : AtByte s.params s.bus) (hrun : runBeats beats s = .next t) :
    t.bus.frames = s.bus.frames ++ [s.bus.frame ++ (chipBytes s.params.opc txs s.bus.chip).1] := by
  obtain ⟨f, s1, hrun1, -, sent⟩ := runBeats_sent beats s txs h hl
  obtain ⟨s2, hrun2, -, -, -, -, hframe, -⟩ := runBeats_fram beats s txs h hl hat.framed hat.wiring hat.bits
  have h1 : t.bus.frames = s1.bus.frames ++ [s1.bus.frame] := by
    obtain rfl : t = finishOp s1 := by simpa [hrun] using hrun1
    exact finishOp_frames s1
  have h2 : t.bus.frames = s2.bus.frames ++ [s2.bus.frame] := by
    obtain rfl : t = finishOp s2 := by simpa [hrun] using hrun2
    exact finishOp_frames s2
  obtain ⟨hframes, -⟩ := List.append_inj' (h1.symm.trans h2) rfl
  rw [h2, ← hframes, sent.progress.frames, hframe]

theorem beginFramed_frames (s : State) :
    (beginFramed s).bus.frames = s.bus.frames ∧ (beginFramed s).bus.frame = [] := by
  obtain ⟨-, hframe, hframes⟩ := csAssert_out s.params.opc (configurePins s.params s.bus)
  exact ⟨hframes.trans (configurePins_out s.params s.bus).frames, hframe⟩

/-- BEGIN completes, and its probe is one frame at RefFRAM, from a CS that is not driven low (R112). -/
theorem execBegin_atFram {s : State} (hb : s.busy = false) (hl : engineLasts 5 s = true) (hw : s.bus.wiring = .fram)
    (hcs : wire s.bus.pins.cs ≠ some false) :
    ∃ t, exec .begin s = .next t ∧ t.busy = false ∧
      FrameAtFram s.params.opc (probeBytes s.params) s.bus t.bus := by
  obtain ⟨hat, hselect⟩ := beginFramed_atByte hw hcs
  have hl' := (beginFramed_engineLasts 5 s).trans hl
  obtain ⟨t, ht, hchip⟩ := execBegin_fram hb hl hw hcs
  have hrun := (execBegin_idle s hb).symm.trans ht
  obtain ⟨f, s', hfinish, -, -⟩ := runBeats_sent (frameFID s.params) (beginFramed s) (probeBytes s.params) rfl hl'
  obtain rfl : t = finishOp s' := by simpa [hrun] using hfinish
  refine ⟨_, ht, rfl, hchip, ?_⟩
  obtain ⟨hframes, hframe⟩ := beginFramed_frames s
  have hadded := runBeats_fram_frames (s := beginFramed s) (beats := frameFID s.params) (txs := probeBytes s.params)
    rfl hl' hat hrun
  rwa [hframes, hframe, hselect, List.nil_append] at hadded

/-- Settles O54: both sides are the frame of the bytes at RefFRAM. -/
theorem hostOperationsRefineFrames : Obligations.HostOperationsRefineFrames := by
  refine ⟨fun s hb hw hcs hl => ?_, fun i s txs h ha hr hw hst hl => ?_⟩
  · obtain ⟨t, ht, hidle, hchip, hframes⟩ := execBegin_atFram hb hl hw hcs
    obtain ⟨hchip', hframes'⟩ := deviceFrame_atFram s.params.opc (probeBytes s.params) hw
    exact ⟨t, ht, hidle, hchip.trans hchip'.symm, hframes.trans hframes'.symm⟩
  · obtain ⟨t, ht, op⟩ := exec_hostFrame_fram h ha hr hw hst hl
    obtain ⟨⟨hidle, -⟩, -, -, -, -, hframes, -⟩ := op.completed
    obtain ⟨hchip', hframes'⟩ := deviceFrame_atFram s.params.opc txs hw
    exact ⟨t, ht, hidle, op.chip.trans hchip'.symm, hframes.trans hframes'.symm, op.seen⟩

/-! ### A WRITE that waits -/

/-- The rest of a frame that waits has committed nothing, whatever is attached (R60). -/
theorem runBeats_waiting_steady {beats : List Beat} {s t : State} {b : Bus} (hbus : s.bus = csAssert s.params.opc b)
    (hc : pinsConfigured s.params b = true) (hl : b.pins.cs.latch = true) (h : runBeats beats s = .next t)
    (ht : t.busy = true) : Steady b.chip t.bus.chip := by
  by_cases hw : b.wiring = .fram
  · obtain ⟨hat, hchip⟩ := AtByte.csAssert hc hl hw
    rw [← hbus] at hat hchip
    cases runBeats_framEnd hat h with
    | finished s' txs p e first => rw [e] at ht; cases ht
    | waiting s' txs p e =>
      rw [e, p.chip, hchip]
      exact (chipSelect_steady b.chip).trans (chipBytes_steady _ txs _)
  · have unused := (hbus ▸ csAssert_chipUnused s.params.opc b).trans (runBeats_chipUnused h)
    rw [unused.chip hw]
    exact ⟨rfl, rfl, rfl, rfl⟩

/-- Settles O53: CS has not risen. -/
theorem waitingWriteCommitsNothing : Obligations.WaitingWriteCommitsNothing := by
  intro s t a count hr hb h ht
  obtain ⟨busy, -⟩ | ⟨-, hrun⟩ := atAcceptance_end (show runPinOp .write _ frameFAW s = .next t from h)
  · simp [hb] at busy
  · have kept := runBeats_waiting_steady
      (s := framed .write { s.lat with addr := a, count := count } s) rfl hr.1 hr.2 hrun ht
    exact ⟨kept.mem, kept.sr, kept.wel⟩

/-! ### A block that is ready at RefFRAM, and stays so -/

/-- A block ready to run operations on a RefFRAM of its own address width. -/
structure ReadyAtFram (s : State) : Prop where
  admitted : Admitted s
  bus : BusReady s
  wiring : s.bus.wiring = .fram
  distinct : s.params.opc.Distinct
  wf : Memory.wf s.bus.chip.mem = true
  width : widthOf s.addrW = some s.bus.chip.params.aw

theorem chipFrame_params (o : Opcodes) (txs : List Byte) (c : Chip) : (chipFrame o txs c).params = c.params :=
  (chipBytes_steady o txs (chipSelect c)).params

theorem chipFrame_wf (o : Opcodes) (txs : List Byte) {c : Chip} (h : Memory.wf c.mem = true) :
    Memory.wf (chipFrame o txs c).mem = true :=
  chipMemAfter_wf o _ (by rw [(chipBytes_steady o txs (chipSelect c)).mem]; exact h)

/-- An operation leaves the block ready for the next one. -/
theorem ReadyAtFram.after {txs : List Byte} {s t : State} (h : ReadyAtFram s) (op : OperationAtFram txs s t) :
    ReadyAtFram t := by
  obtain ⟨⟨hidle, -⟩, -, ⟨hparams, -, hwiring, hchipParams⟩,
    ⟨haddrW, hinit, hsettings, hcs, hsck, hmosi, hmiso⟩, ⟨hhigh, -⟩, -, -⟩ := op.completed
  refine ⟨⟨hidle, ?_⟩, ⟨?_, hhigh⟩, hwiring.trans h.wiring, ?_, ?_, ?_⟩
  · rw [hinit, hparams]; exact h.admitted.2
  · rw [hparams, pinsConfigured_congr _ hcs hsck hmosi (congrArg PinState.dir hmiso) hsettings]; exact h.bus.1
  · rw [hparams]; exact h.distinct
  · rw [op.chip]; exact chipFrame_wf _ _ h.wf
  · rw [haddrW, hchipParams]; exact h.width

/-- An engine that lasts for ever is the software engine, or a peripheral without a bound. -/
theorem engineLasts_forever_iff {s : State} :
    (∀ n, engineLasts n s = true) ↔ s.params.mode = .sw ∨ s.bus.hwx.budget = none := by
  cases hm : s.params.mode with
  | sw => simp [engineLasts, hm]
  | hw =>
    cases hb : s.bus.hwx.budget with
    | none => simp [engineLasts, hm, hb]
    | some k =>
      simp only [engineLasts, hm, hb, decide_eq_true_eq, reduceCtorEq, or_self, iff_false, not_forall]
      exact ⟨k + 1, by omega⟩

theorem OperationAtFram.chipParams {txs : List Byte} {s t : State} (op : OperationAtFram txs s t) :
    t.bus.chip.params = s.bus.chip.params := by
  rw [op.chip, chipFrame_params]

theorem OperationAtFram.lasts {txs : List Byte} {s t : State} (op : OperationAtFram txs s t)
    (h : ∀ n, engineLasts n s = true) : ∀ n, engineLasts n t = true := by
  obtain ⟨-, -, ⟨hparams, -⟩, -⟩ := op.completed
  rw [engineLasts_forever_iff, hparams]
  exact (engineLasts_forever_iff.1 h).imp_right op.budget

end Sys2Proof.Machine

/-! ## Proofs of the family 20_memory: what WRITE8, WRITE, READ8 and SETSTATUS do to RefFRAM's memory -/

namespace Sys2Proof.Machine

/-! ### Storing -/

/-- WRITE stores its block at the truncated address (R53, R59, R60, R66). -/
theorem exec_write_fram {s : State} (a : Addr) {count : Half} (h : ReadyAtFram s) (hcount : count.toNat ≤ s.wdat.length)
    (hl : engineLasts (1 + s.bus.chip.params.aw.bytes + count.toNat) s = true) :
    ∃ txs t, exec (.write a count) s = .next t ∧ OperationAtFram txs s t ∧
      t.bus.chip.mem = (if chipAccepts s.bus.chip then memWriteAll s.bus.chip.mem
        (blockCells s.bus.chip.params.memBytes (a.toNat % 2 ^ (8 * s.bus.chip.params.aw.bytes))
          (s.wdat.take count.toNat)) else s.bus.chip.mem) ∧ t.bus.chip.sr = s.bus.chip.sr := by
  obtain ⟨t, ht, op⟩ := exec_hostFrame_fram (opBytes_write h.width a count) h.admitted h.bus h.wiring
    (decide_eq_true hcount) (engineLasts_write hcount hl _ a)
  obtain ⟨hmem, hsr, -⟩ := chipFrame_write s.params.opc (addrBytes s.bus.chip.params.aw a) (s.wdat.take count.toNat)
    s.bus.chip h.distinct (addrBytes_length _ a)
  rw [← op.chip] at hmem hsr
  exact ⟨_, t, ht, op, by rw [hmem, beValue_addrBytes], hsr⟩

/-- WRITE8 stores its byte at the address the device reaches (R66), and the device's latch is spent (R64). -/
theorem exec_write8_fram {s : State} (a : Addr) (v : Byte) (h : ReadyAtFram s)
    (hl : engineLasts (2 + s.bus.chip.params.aw.bytes) s = true) :
    ∃ txs t, exec (.write8 a v) s = .next t ∧ OperationAtFram txs s t ∧
      t.bus.chip.mem = (if chipAccepts s.bus.chip then memWrite s.bus.chip.mem
        (deviceAddr s.bus.chip.params.aw s.bus.chip.params.memBytes a.toNat) v else s.bus.chip.mem) ∧
      t.bus.chip.sr = s.bus.chip.sr ∧
      t.bus.chip.wel = (if s.bus.chip.params.requireWel then false else s.bus.chip.wel) := by
  obtain ⟨t, ht, op⟩ := exec_hostFrame_fram (opBytes_write8 h.width a v) h.admitted h.bus h.wiring rfl
    (engineLasts_addressed hl _ a v)
  obtain ⟨hmem, hsr, hwel⟩ := chipFrame_write s.params.opc (addrBytes s.bus.chip.params.aw a) [v] s.bus.chip h.distinct
    (addrBytes_length _ a)
  rw [← op.chip] at hmem hsr hwel
  refine ⟨_, t, ht, op, ?_, hsr, hwel⟩
  rw [hmem, beValue_addrBytes]
  rfl

/-- Settles O50, by the one cell of WRITE8's frame. -/
theorem write8StoresOneByte : Obligations.Write8StoresOneByte := by
  intro s a v ha hr hw hdistinct hwf hwidth hl
  obtain ⟨-, t, ht, -, hmem, hsr, -⟩ := exec_write8_fram a v ⟨ha, hr, hw, hdistinct, hwf, hwidth⟩ hl
  refine ⟨t, ht, ?_, fun x hx => ?_, hsr⟩
  · rw [hmem, apply_ite (memRead · _), memRead_memWrite_same _ _ v hwf]
  · rw [hmem, apply_ite (memRead · x), memRead_memWrite_other _ _ x v hwf hx, ite_self]

/-- Settles O51, by the cells of WRITE's frame. -/
theorem writeStoresBlock : Obligations.WriteStoresBlock := by
  intro s a count ha hr hw hdistinct hwf hwidth hcount hl
  obtain ⟨-, t, ht, -, hmem, hsr⟩ := exec_write_fram a ⟨ha, hr, hw, hdistinct, hwf, hwidth⟩ hcount hl
  exact ⟨t, ht, hmem, fun x hx => by rw [hmem]; exact memRead_commit_other _ hwf hx, hsr⟩

/-- Settles O52, by the frame WRSR. -/
theorem setStatusStores : Obligations.SetStatusStores := by
  intro s v ha hr hw hdistinct hl
  obtain ⟨t, ht, op⟩ := exec_hostFrame_fram (i := .setStatus v) rfl ha hr hw rfl hl
  obtain ⟨hsr, hmem, -⟩ := chipFrame_wrsr s.params.opc v s.bus.chip hdistinct
  rw [← op.chip] at hsr hmem
  exact ⟨t, ht, hsr, hmem⟩

/-! ### Reading back -/

/-- READ8 keeps the answer to the last byte of its frame (R84, R146). -/
theorem keptOf_frameFAR {s : State} {w : AddrWidth} {rxs : List Byte} {r : Byte} (hw : widthOf s.addrW = some w)
    (hlast : rxs.getLast? = some r) (hlen : rxs.length = 2 + w.bytes) : keptOf (frameFAR s) rxs = [r] := by
  obtain ⟨init, rfl⟩ := List.getLast?_eq_some_iff.1 hlast
  obtain _ | ⟨first, init⟩ := init
  · simp only [List.nil_append, List.length_singleton] at hlen; omega
  have hinit : init.length = (addrBytes w s.lat.addr).length := by
    simp only [List.cons_append, List.length_cons, List.length_append, List.length_nil] at hlen
    rw [addrBytes_length]; omega
  simp only [frameFAR, addrBeats_of_width hw, opcBeat, List.cons_append, keptOf, Bool.false_eq_true, if_false,
    keptOf_addrPhases, List.drop_left' hinit, dummyBeat, if_true]

theorem responseOf_read8 {s : State} {w : AddrWidth} {rxs : List Byte} {r : Byte} (hw : widthOf s.addrW = some w)
    (hlast : rxs.getLast? = some r) (hlen : rxs.length = 2 + w.bytes) :
    (responseOf .read8 s (keptOf (frameFAR s) rxs)).data = r := by
  simp only [responseOf, respond, readResult, hw, result, keptOf_frameFAR hw hlast hlen, List.getD_cons_zero]

/-- The frame of READ8 sends the READ opcode, the address bytes and one dummy. -/
theorem txsOf_accepted_read8 {s : State} {w : AddrWidth} (hw : widthOf s.addrW = some w) (a : Addr) :
    txsOf (frameFAR (accept (some .read8) { s.lat with addr := a } s)) s.wdat =
      some (s.params.opc.read :: addrBytes w a ++ [s.params.dummy]) :=
  txsOf_frameFAR (s := accept (some .read8) { s.lat with addr := a } s) hw s.wdat

theorem frameFAR_length {s : State} {w : AddrWidth} (hw : widthOf s.addrW = some w) :
    (frameFAR s).length = 2 + w.bytes := by
  simp only [frameFAR, addrBeats_of_width hw, List.cons_append, List.length_cons, List.length_append, addrPhases_length,
    addrBytes_length, List.length_nil]
  omega

/-- The answers of a READ frame: as many as its bytes, the last one the byte at the address. -/
theorem read_answers {o : Opcodes} (d : Byte) (a : Addr) (c : Chip) (h : o.Distinct) :
    ((chipBytes o (o.read :: addrBytes c.params.aw a ++ [d]) (chipSelect c)).1.map Prod.snd).getLast? =
        some (memRead c.mem (deviceAddr c.params.aw c.params.memBytes a.toNat)) ∧
      ((chipBytes o (o.read :: addrBytes c.params.aw a ++ [d]) (chipSelect c)).1.map Prod.snd).length =
        2 + c.params.aw.bytes := by
  constructor
  · rw [List.getLast?_map, chipBytes_read o d _ c h (addrBytes_length _ a), beValue_addrBytes]
    rfl
  · rw [List.length_map, ← List.length_map (f := Prod.fst), chipBytes_fst, addressed_length, List.length_singleton]
    omega

/-- READ8 returns the byte at the address the device reaches (R61, R66, R146). -/
theorem exec_read8_fram {s : State} (a : Addr) (h : ReadyAtFram s)
    (hl : engineLasts (2 + s.bus.chip.params.aw.bytes) s = true) :
    ∃ t, exec (.read8 a) s = .next t ∧
      t.resp.data = memRead s.bus.chip.mem (deviceAddr s.bus.chip.params.aw s.bus.chip.params.memBytes a.toNat) := by
  have hw : widthOf (accept (some .read8) { s.lat with addr := a } s).addrW = some s.bus.chip.params.aw := h.width
  obtain ⟨t, ht, -, -, -, hresp, -⟩ := runPinOp_fram .read8 { s.lat with addr := a } frameFAR s _ h.admitted h.bus
    h.wiring (by decide) (txsOf_accepted_read8 h.width a) (List.cons_ne_nil _ _) (by rw [frameFAR_length hw]; exact hl)
  obtain ⟨hlast, hlen⟩ := read_answers s.params.dummy a s.bus.chip h.distinct
  exact ⟨t, ht, by rw [hresp]; exact responseOf_read8 hw hlast hlen⟩

/-! ### The headlines -/

/-- Settles O55: READ8 reads where WRITE8 stored. -/
theorem write8Read8RoundTrip : Obligations.Write8Read8RoundTrip := by
  intro s a v ha hr hw hdistinct hwf hwidth hl haccepts
  have ready : ReadyAtFram s := ⟨ha, hr, hw, hdistinct, hwf, hwidth⟩
  obtain ⟨txs, t, ht, op, hmem, -⟩ := exec_write8_fram a v ready (hl _)
  obtain ⟨u, hu, hdata⟩ := exec_read8_fram a (ready.after op) (op.lasts hl _)
  refine ⟨t, u, ht, hu, ?_⟩
  rw [hdata, op.chipParams, hmem, if_pos haccepts, memRead_memWrite_same _ _ v hwf]

/-- An address of a block inside the address field is not truncated (R59, R66, R147). -/
theorem deviceAddr_add {w : AddrWidth} {memBytes n i : Nat} {a : Addr} (hi : i < n)
    (hfield : a.toNat + n ≤ 2 ^ (8 * w.bytes)) :
    deviceAddr w memBytes (a + BitVec.ofNat 32 i).toNat = (a.toNat + i) % memBytes := by
  have hw : 2 ^ (8 * w.bytes) ≤ 2 ^ 24 := by cases w <;> decide
  have hsum : (a + BitVec.ofNat 32 i).toNat = a.toNat + i := by
    rw [BitVec.toNat_add, BitVec.toNat_ofNat, Nat.add_mod_mod, Nat.mod_eq_of_lt (by omega)]
  rw [deviceAddr, hsum, Nat.mod_eq_of_lt (b := 2 ^ _) (by omega)]

/-- Settles O56: the cells of the block are pairwise different, and READ8 reads one of them. -/
theorem writeRead8BlockRoundTrip : Obligations.WriteRead8BlockRoundTrip := by
  intro s a count ha hr hw hdistinct hwf hwidth hl haccepts hcount hfield hdevice
  have ready : ReadyAtFram s := ⟨ha, hr, hw, hdistinct, hwf, hwidth⟩
  obtain ⟨txs, t, ht, op, hmem, -⟩ := exec_write_fram a ready hcount (hl _)
  refine ⟨t, ht, fun i hi => ?_⟩
  obtain ⟨u, hu, hdata⟩ := exec_read8_fram (a + BitVec.ofNat 32 i) (ready.after op) (op.lasts hl _)
  have hbyte : (s.wdat.take count.toNat)[i]? = some s.wdat[i] := by
    rw [List.getElem?_take_of_lt hi, List.getElem?_eq_getElem]
  have hcell := blockCells_mem (memBytes := s.bus.chip.params.memBytes) (a := a.toNat) hbyte
  refine ⟨u, hu, ?_⟩
  rw [hdata, op.chipParams, hmem, if_pos haccepts, deviceAddr_add hi hfield, Nat.mod_eq_of_lt (by omega),
    memRead_memWriteAll_mem hwf (blockCells_nodup (by rw [List.length_take_of_le hcount]; exact hdevice)) hcell,
    List.getElem?_eq_getElem]

/-- Settles O57: WREN sets the latch that the WRITE spends; without it the WRITE commits nothing. -/
theorem writeEnableMakesWriteLand : Obligations.WriteEnableMakesWriteLand := by
  intro s a v ha hr hw hdistinct hwf hwidth hl hrequire hwel
  have ready : ReadyAtFram s := ⟨ha, hr, hw, hdistinct, hwf, hwidth⟩
  constructor
  · obtain ⟨t, ht, op⟩ := exec_hostFrame_fram (i := .writeEnableT) rfl ha hr hw rfl (hl _)
    obtain ⟨txs, u, hu, op', hmem, -, hwel'⟩ := exec_write8_fram a v (ready.after op) (op.lasts hl _)
    obtain ⟨x, hx, hdata⟩ := exec_read8_fram a ((ready.after op).after op') (op'.lasts (op.lasts hl) _)
    have haccepts : chipAccepts t.bus.chip = true := by
      rw [chipAccepts, op.chip, chipFrame_wren _ _ hdistinct, Bool.true_or]
    refine ⟨t, u, x, ht, hu, hx, ?_, ?_⟩
    · rw [hdata, op'.chipParams, hmem, if_pos haccepts, memRead_memWrite_same _ _ v (ready.after op).wf]
    · rw [hwel', op.chipParams, hrequire, if_pos rfl]
  · have hprotected : chipAccepts s.bus.chip = false := by simp [chipAccepts, hrequire, hwel]
    obtain ⟨txs, t, ht, op, hmem, -⟩ := exec_write8_fram a v ready (hl _)
    obtain ⟨u, hu, hdata⟩ := exec_read8_fram a (ready.after op) (op.lasts hl _)
    refine ⟨t, u, ht, hu, ?_⟩
    rw [hdata, op.chipParams, hmem, hprotected, if_neg Bool.false_ne_true]

end Sys2Proof.Machine

/-! ## Proofs of the family 20_memory: the two strategies exchange the same bytes -/

namespace Sys2Proof.Machine

/-! ### What an exchange depends on -/

/-- Two buses that are one as far as the attached device and the oracle go: what is attached, whether it is selected,
the history of the wires and the number of the next sample. -/
structure SameWires (b c : Bus) : Prop where
  wiring : c.wiring = b.wiring
  cs : c.pins.cs = b.pins.cs
  chip : c.chip = b.chip
  seen : c.seen = b.seen
  draws : c.draws = b.draws

theorem SameWires.symm {b c : Bus} (h : SameWires b c) : SameWires c b :=
  ⟨h.wiring.symm, h.cs.symm, h.chip.symm, h.seen.symm, h.draws.symm⟩

theorem SameWires.trans {a b c : Bus} (h : SameWires a b) (k : SameWires b c) : SameWires a c :=
  ⟨k.wiring.trans h.wiring, k.cs.trans h.cs, k.chip.trans h.chip, k.seen.trans h.seen, k.draws.trans h.draws⟩

theorem selected_congr {b c : Bus} (h : c.pins.cs = b.pins.cs) : selected c = selected b := by
  simp only [selected, h]

/-- What a rising edge does to the device depends on the device and on whether it is attached and selected. -/
theorem busClock_chip_congr {b c : Bus} (o : Opcodes) (d : Bool) (hwiring : c.wiring = b.wiring)
    (hcs : c.pins.cs = b.pins.cs) (hchip : c.chip = b.chip) : (busClock o d c).chip = (busClock o d b).chip := by
  unfold busClock
  rw [hwiring, selected_congr hcs]
  split
  · split
    · exact congrArg (chipRise o d) hchip
    · exact hchip
  · exact hchip
  · exact hchip

/-- One clock pulse. -/
theorem SameWires.clocked {b c : Bus} (h : SameWires b c) (o : Opcodes) (d : Bool) :
    SameWires (busClock o d (see (pulse d) b)) (busClock o d (see (pulse d) c)) :=
  ⟨by simp [h.wiring], by simp [h.cs], busClock_chip_congr o d h.wiring h.cs h.chip, by simp [h.seen],
    by simp [h.draws]⟩

/-- A sample depends on the wires alone. -/
theorem SameWires.sampled {b c : Bus} (h : SameWires b c) (d : Option Bool) :
    (misoLevel d c).1 = (misoLevel d b).1 ∧ SameWires (misoLevel d b).2 (misoLevel d c).2 := by
  have hdraw : (drawSample c).1 = (drawSample b).1 ∧ SameWires (drawSample b).2 (drawSample c).2 :=
    ⟨by simp only [drawSample, h.seen, h.draws],
      ⟨h.wiring, h.cs, h.chip, h.seen, congrArg (· + 1) h.draws⟩⟩
  unfold misoLevel
  rw [h.wiring, selected_congr h.cs, h.chip]
  split
  · exact hdraw
  · split
    · exact ⟨rfl, h⟩
    · exact hdraw
  · split
    · exact ⟨rfl, h⟩
    · exact hdraw

/-! ### One turn -/

/-- The three pin writes of a software turn are one pulse of the peripheral (R187, R188). -/
theorem swWrites_sameWires (o : Opcodes) (d : Bool) {b : Bus} (h : SwReady b) :
    SameWires (busClock o d (see (pulse d) b))
      (pinWrite o .sck true (pinWrite o .mosi d (pinWrite o .sck false b))) := by
  refine ⟨by simp, by simp, ?_, ?_, by simp⟩
  · rw [swWrites_chip o d b h]
    exact busClock_chip_congr o d rfl rfl rfl
  · rw [pinWrite_seen o .sck true _ (by simpa [pinOf] using h.sck) (fun _ => by simpa using h.mosi),
      pinWrite_seen o .mosi _ _ (by simpa [pinOf] using h.mosi) (fun h => nomatch h),
      pinWrite_seen o .sck false _ (by simpa [pinOf] using h.sck) (fun _ => by simpa using h.mosi)]
    simp [levelOf, pulse]

/-- Reading MISO as an input, with MOSI driven to `d` (R182). -/
theorem pinRead_sample {b : Bus} {d : Bool} (hmiso : b.pins.miso.dir = .inp) (hmosi : wire b.pins.mosi = some d) :
    (pinRead b).1 = (misoLevel (some d) b).1 ∧ SameWires (misoLevel (some d) b).2 (pinRead b).2 := by
  simp only [pinRead, hmiso, hmosi]
  exact ⟨trivial, rfl, rfl, rfl, rfl, rfl⟩

/-- A software turn is its three pin writes, the sample after them, and the sample shifted in (R188). -/
theorem swBit_eq (o : Opcodes) (b : Bus) (i : Nat) :
    ∃ b3, b3 = pinWrite o .sck true (pinWrite o .mosi (b.engine.shTx.getLsbD i)
        (pinWrite o .sck false { b with engine := { b.engine with bitCnt := BitVec.ofNat 3 i } })) ∧
      (swBit o b i).engine.shRx = shiftIn b.engine.shRx (pinRead b3).1 ∧
      SameWires (pinRead b3).2 (swBit o b i) :=
  ⟨_, rfl, by simp [swBit], by simp [swBit], by simp [swBit], by simp [swBit], by simp [swBit], by simp [swBit]⟩

/-- A turn of the software engine and a pulse of the peripheral are one, on wires that are one. -/
theorem swBit_hwBit (o : Opcodes) {b c : Bus} (i : Nat) (h : SwReady b) (hs : SameWires b c) :
    (hwBit o b.engine.shTx (b.engine.shRx, c) i).1 = (swBit o b i).engine.shRx ∧
      SameWires (swBit o b i) (hwBit o b.engine.shTx (b.engine.shRx, c) i).2 := by
  obtain ⟨b3, hb3, hrx, hafter⟩ := swBit_eq o b i
  have hwrites : SameWires (busClock o (b.engine.shTx.getLsbD i) (see (pulse (b.engine.shTx.getLsbD i)) c)) b3 := by
    have hcount : SameWires c { b with engine := { b.engine with bitCnt := BitVec.ofNat 3 i } } :=
      hs.symm.trans ⟨rfl, rfl, rfl, rfl, rfl⟩
    rw [hb3]
    exact (hcount.clocked o _).trans (swWrites_sameWires o _ ⟨h.cs, h.sck, h.mosi, h.miso⟩)
  obtain ⟨hread, hreads⟩ := pinRead_sample (b := b3) (d := b.engine.shTx.getLsbD i)
    (by simp [hb3, h.miso]) (by simp [hb3, wire, h.mosi])
  obtain ⟨hsample, hsamples⟩ := hwrites.sampled (some (b.engine.shTx.getLsbD i))
  refine ⟨?_, ((hsamples.trans hreads).trans hafter).symm⟩
  rw [hrx, hread, hsample]
  rfl

/-- The same over any number of turns. -/
theorem swBits_hwBits (o : Opcodes) {tx : Byte} (l : List Nat) {b c : Bus} (h : SwReady b) (ht : b.engine.shTx = tx)
    (hs : SameWires b c) :
    (l.foldl (hwBit o tx) (b.engine.shRx, c)).1 = (l.foldl (swBit o) b).engine.shRx ∧
      SameWires (l.foldl (swBit o) b) (l.foldl (hwBit o tx) (b.engine.shRx, c)).2 := by
  induction l generalizing b c with
  | nil => exact ⟨rfl, hs⟩
  | cons i l ih =>
    obtain ⟨r, out⟩ := swBit_out o b i
    obtain ⟨hrx, hwires⟩ := swBit_hwBit o i h hs
    rw [ht] at hrx hwires
    have hrest := ih (swBit_ready o b i h) (out.shTx.trans ht) hwires
    rw [List.foldl_cons, List.foldl_cons]
    rwa [← hrx, Prod.mk.eta] at hrest

/-! ### The exchange -/

/-- A software exchange: its eight turns, the engine's registers lost after them. -/
theorem xfer_sw_turns {p : Params} (hm : p.mode = .sw) (tx : Byte) (b : Bus) :
    ∃ b', xfer p tx b = some ((xferSW p.opc tx b).1, b') ∧ b'.chip = (xferSW p.opc tx b).2.chip := by
  simp only [xfer, xferByMode, hm]
  exact ⟨_, rfl, rfl⟩

/-- A hardware exchange of a configured peripheral that completes: its eight pulses. -/
theorem xfer_hw_pulses {q : Params} (tx : Byte) {b : Bus} (hm : q.mode = .hw) (hc : pinsConfigured q b = true)
    (hb : b.hwx.budget ≠ some 0) :
    ∃ b', xfer q tx b = some ((bitOrder.foldl (hwBit q.opc tx) (0, { b with hwx := hwxDone b.hwx })).1, b') ∧
      b'.chip = (bitOrder.foldl (hwBit q.opc tx) (0, { b with hwx := hwxDone b.hwx })).2.chip := by
  simp only [pinsConfigured, hm, Bool.and_eq_true, decide_eq_true_eq] at hc
  have hwire : hwWire q.opc tx { b with hwx := hwxDone b.hwx } =
      bitOrder.foldl (hwBit q.opc tx) (0, { b with hwx := hwxDone b.hwx }) := by
    unfold hwWire
    rw [if_pos (by simp [hwxDone, hc.1, hc.2, wire])]
  simp only [xfer, xferByMode, hm, hwExchange, hwire]
  exact ⟨_, rfl, rfl⟩

/-- The two strategies on one configured bus with CS low: the same answer and the same device (R193). -/
theorem xfer_strategies {p q : Params} (tx : Byte) {b : Bus} (hp : p.mode = .sw) (hq : q.mode = .hw)
    (hopc : p.opc = q.opc) (hcp : pinsConfigured p b = true) (hcq : pinsConfigured q b = true)
    (hlow : b.pins.cs.latch = false) (hb : b.hwx.budget ≠ some 0) :
    ∃ rx b1 b2, xfer p tx b = some (rx, b1) ∧ xfer q tx b = some (rx, b2) ∧ b1.chip = b2.chip := by
  have ready := Framed.swReady ⟨hcp, hlow⟩ hp
  obtain ⟨b1, hx1, hchip1⟩ := xfer_sw_turns hp tx b
  obtain ⟨b2, hx2, hchip2⟩ := xfer_hw_pulses tx hq hcq hb
  obtain ⟨hrx, hwires⟩ := swBits_hwBits p.opc (tx := tx) bitOrder
    (b := { b with engine := { shTx := tx, shRx := 0, bitCnt := 7 } }) (c := { b with hwx := hwxDone b.hwx })
    ⟨ready.cs, ready.sck, ready.mosi, ready.miso⟩ rfl ⟨rfl, rfl, rfl, rfl, rfl⟩
  refine ⟨_, b1, b2, hx1, ?_, hchip1.trans ?_⟩
  · rw [hx2, ← hopc]
    exact congrArg some (congrArg (·, b2) hrx)
  · rw [hchip2, ← hopc]
    exact hwires.chip.symm

/-! ### An unknown device -/

/-- The oracle's answer at the rising edge of turn `k` of an exchange of the byte `tx` from the bus `b` (R56). -/
def oracleAnswer (tx : Byte) (b : Bus) (k : Nat) : Bool :=
  Config.sampleBit (b.seen ++ ((byteBits tx).take (k + 1)).flatMap pulse) (b.draws + k)

/-- The samples of the turns `l`, shifted in: each is the oracle's answer to the history up to its rising edge. -/
theorem swBits_oracle (o : Opcodes) {tx : Byte} (l : List Nat) {b : Bus} (hw : b.wiring = .arbitrary)
    (hs : b.pins.sck.dir = .out) (hm : b.pins.mosi.dir = .out) (ht : b.engine.shTx = tx) :
    (l.foldl (swBit o) b).engine.shRx = (List.range l.length).foldl (fun rx k => shiftIn rx
      (Config.sampleBit (b.seen ++ ((l.map fun i => tx.getLsbD i).take (k + 1)).flatMap pulse) (b.draws + k)))
      b.engine.shRx := by
  induction l generalizing b with
  | nil => rfl
  | cons i l ih =>
    obtain ⟨r, out⟩ := swBit_out o b i
    obtain ⟨hrx, hdraws⟩ := swBit_oracle o b i hw hs hm
    rw [List.foldl_cons, ih (out.wiring.trans hw) (by rw [out.pins]; exact hs) (by rw [out.pins]; exact hm)
      (out.shTx.trans ht), swBit_seen o b i hs hm, hrx, hdraws, ht, List.length_cons, List.range_succ_eq_map,
      List.foldl_cons, List.foldl_map]
    simp [Nat.add_assoc, Nat.add_comm 1]

/-- Bit `7 - k` of a byte assembled most significant bit first is the sample of turn `k` (R188). -/
theorem shiftIn_range_getLsbD (f : Nat → Bool) {k : Nat} (hk : k < 8) :
    ((List.range 8).foldl (fun rx j => shiftIn rx (f j)) 0).getLsbD (7 - k) = f k := by
  obtain ⟨h7, h6, h5, h4, h3, h2, h1, h0⟩ :=
    shiftIn_getLsbD (f 0) (f 1) (f 2) (f 3) (f 4) (f 5) (f 6) (f 7)
  interval_cases k
  · exact h7
  · exact h6
  · exact h5
  · exact h4
  · exact h3
  · exact h2
  · exact h1
  · exact h0

/-- Settles O40: turn by turn the engine and the peripheral do the same on the wires, and the oracle answers by them. -/
theorem strategiesEquivalent : Obligations.StrategiesEquivalent := by
  refine ⟨fun p q tx b hp hq hopc hcp hcq hlow hb => ?_, fun o tx b hw hs hm => ⟨?_, fun k hk => ?_⟩⟩
  · obtain ⟨rx, b1, b2, hx1, hx2, hchip⟩ := xfer_strategies tx hp hq hopc hcp hcq hlow hb
    refine ⟨rx, b1, b2, hx1, hx2, hchip, ?_, ?_⟩
    · rw [(xfer_out p tx rx b b1 hx1).2, (xfer_out q tx rx b b2 hx2).2]
    · rw [xfer_seen p tx rx b b1 hcp hx1, xfer_seen q tx rx b b2 hcq hx2]
  · exact swBits_seen o tx bitOrder { b with engine := { shTx := tx, shRx := 0, bitCnt := 7 } } hs hm rfl
  · have hbits := swBits_oracle o bitOrder (b := { b with engine := { shTx := tx, shRx := 0, bitCnt := 7 } })
      hw hs hm rfl
    exact (congrArg (·.getLsbD (7 - k)) hbits).trans (shiftIn_range_getLsbD (oracleAnswer tx b) hk)

end Sys2Proof.Machine

/-! ## Proofs of the family 30_encoding: frames -/

namespace Sys2Proof.Machine

/-! ### The address field read back (R52, R86) -/

theorem toNat_append_byte {n : Nat} (x : BitVec n) (y : Byte) : (x ++ y).toNat = x.toNat * 256 + y.toNat := by
  rw [BitVec.toNat_append, ← Nat.shiftLeft_add_eq_or_of_lt y.isLt, Nat.shiftLeft_eq]

/-- The address field is read as the value of its bytes, and nothing more is taken. -/
theorem takeAddr_append {w : AddrWidth} {xs : List Byte} (tail : List Byte) (hlen : xs.length = w.bytes) :
    ∃ a, takeAddr w (xs ++ tail) = some (a, tail) ∧ a.toNat = beValue xs := by
  cases w with
  | w1 =>
    obtain ⟨x, rfl⟩ := List.length_eq_one_iff.1 hlen
    exact ⟨_, rfl, by simp [toNat_append_byte, beValue]⟩
  | w2 =>
    obtain ⟨x, y, rfl⟩ := List.length_eq_two.1 hlen
    exact ⟨_, rfl, by simp [toNat_append_byte, beValue]⟩
  | w3 =>
    obtain ⟨x, y, z, rfl⟩ := List.length_eq_three.1 hlen
    exact ⟨_, rfl, by simp [toNat_append_byte, beValue]⟩

theorem beValue_addrField_lt (w : AddrWidth) (a : Addr24) : beValue (addrField w a) < 2 ^ (8 * w.bytes) := by
  have byteLt (k : Nat) := (a.extractLsb' k 8).isLt
  have h0 := byteLt 0
  have h1 := byteLt 8
  have h2 := byteLt 16
  cases w <;> simp only [beValue, addrField, AddrWidth.bytes, List.foldl_cons, List.foldl_nil] <;> omega

theorem takeAddr_addrField {w : AddrWidth} {a : Addr24} (tail : List Byte) (hfits : addrFits w a = true) :
    takeAddr w (addrField w a ++ tail) = some (a, tail) := by
  obtain ⟨a', htake, hvalue⟩ := takeAddr_append tail (addrField_length w a)
  obtain rfl : a' = a := BitVec.eq_of_toNat_eq (hvalue.trans (beValue_addrField w a hfits))
  exact htake

/-- An address read from a field has no bit above the field's width. -/
theorem takeAddr_fits {w : AddrWidth} {bytes tail : List Byte} {a : Addr24} (h : takeAddr w bytes = some (a, tail)) :
    addrFits w a = true := by
  obtain ⟨a', htake, hvalue⟩ := takeAddr_append tail (addrField_length w a)
  obtain rfl : a = a' := by
    rw [takeAddr_eq_some h, htake] at h
    cases h; rfl
  simp only [addrFits, decide_eq_true_eq, hvalue, beValue_addrField_lt]

/-! ### What follows an opcode byte, format by format (R81 to R84) -/

theorem decodeDummies_replicate (dummy : Byte) (n : Nat) (i : Instr) :
    decodeDummies dummy n i (List.replicate n dummy) = some i := if_pos rfl

theorem decodeFAR_addrField (dummy : Byte) {w : AddrWidth} {a : Addr24} (hfits : addrFits w a = true) :
    decodeFAR dummy w (addrField w a ++ [dummy]) = some (.wireRead w a) := by
  simp only [decodeFAR, takeAddr_addrField [dummy] hfits]
  exact decodeDummies_replicate dummy 1 _

theorem decodeFAW_addrField {w : AddrWidth} {a : Addr24} {data : List Byte} (hfits : addrFits w a = true)
    (hlen : data.length < 2 ^ 16) : decodeFAW w (addrField w a ++ data) = some (.wireWrite w a data) := by
  simp only [decodeFAW, takeAddr_addrField data hfits, if_pos hlen]

theorem decodeFAR_wellFormed {dummy : Byte} {w : AddrWidth} {rest : List Byte} {i : Instr}
    (h : decodeFAR dummy w rest = some i) : i.wellFormed = true ∧ widthMatches w i = true := by
  unfold decodeFAR at h
  split at h
  · next a tail htake =>
    obtain ⟨rfl, -⟩ := decodeDummies_eq_some h
    exact ⟨takeAddr_fits htake, decide_eq_true rfl⟩
  · cases h

theorem decodeFAW_wellFormed {w : AddrWidth} {rest : List Byte} {i : Instr}
    (h : decodeFAW w rest = some i) : i.wellFormed = true ∧ widthMatches w i = true := by
  unfold decodeFAW at h
  split at h
  · next a data htake =>
    split at h
    · next hlen =>
      cases h
      exact ⟨Bool.and_eq_true_iff.2 ⟨takeAddr_fits htake, decide_eq_true hlen⟩, decide_eq_true rfl⟩
    · cases h
  · cases h

/-! ### The opcode byte chooses the format (R85) -/

/-- Pairwise distinct opcodes, in the order in which the decoder compares a frame's first byte with them: each differs from
every one before it. -/
structure OpcodesInOrder (o : Opcodes) : Prop where
  wrdi : o.wrdi ≠ o.wren
  rdsr : o.rdsr ≠ o.wren ∧ o.rdsr ≠ o.wrdi
  wrsr : o.wrsr ≠ o.wren ∧ o.wrsr ≠ o.wrdi ∧ o.wrsr ≠ o.rdsr
  read : o.read ≠ o.wren ∧ o.read ≠ o.wrdi ∧ o.read ≠ o.rdsr ∧ o.read ≠ o.wrsr
  write : o.write ≠ o.wren ∧ o.write ≠ o.wrdi ∧ o.write ≠ o.rdsr ∧ o.write ≠ o.wrsr ∧ o.write ≠ o.read
  rdid : o.rdid ≠ o.wren ∧ o.rdid ≠ o.wrdi ∧ o.rdid ≠ o.rdsr ∧ o.rdid ≠ o.wrsr ∧ o.rdid ≠ o.read ∧ o.rdid ≠ o.write

theorem opcodes_inOrder {o : Opcodes} (h : o.Distinct) : OpcodesInOrder o := by
  simp only [Opcodes.Distinct, Opcodes.toList, List.nodup_cons, List.mem_cons, List.not_mem_nil, or_false, not_or] at h
  constructor <;> grind

section
variable {o : Opcodes} (order : OpcodesInOrder o) (dummy : Byte) (w : AddrWidth) (rest : List Byte)
include order

theorem decodeAfter_wrdi : decodeAfter o dummy w o.wrdi rest = decodeF0 .wireWrdi rest := by
  simp only [decodeAfter, order.wrdi, if_false, if_true]

theorem decodeAfter_rdsr : decodeAfter o dummy w o.rdsr rest = decodeDummies dummy 1 .wireRdsr rest := by
  simp only [decodeAfter, order.rdsr, if_false, if_true]

theorem decodeAfter_wrsr : decodeAfter o dummy w o.wrsr rest = decodeF1W .wireWrsr rest := by
  simp only [decodeAfter, order.wrsr, if_false, if_true]

theorem decodeAfter_read : decodeAfter o dummy w o.read rest = decodeFAR dummy w rest := by
  simp only [decodeAfter, order.read, if_false, if_true]

theorem decodeAfter_write : decodeAfter o dummy w o.write rest = decodeFAW w rest := by
  simp only [decodeAfter, order.write, if_false, if_true]

theorem decodeAfter_rdid : decodeAfter o dummy w o.rdid rest = decodeDummies dummy 4 .wireRdid rest := by
  simp only [decodeAfter, order.rdid, if_false, if_true]

end

theorem decodeAfter_wren (o : Opcodes) (dummy : Byte) (w : AddrWidth) (rest : List Byte) :
    decodeAfter o dummy w o.wren rest = decodeF0 .wireWren rest := if_pos rfl

/-- Whatever the decoder accepts after an opcode byte fits the device's address width. -/
theorem decodeAfter_wellFormed {o : Opcodes} {dummy op : Byte} {w : AddrWidth} {rest : List Byte} {i : Instr}
    (h : decodeAfter o dummy w op rest = some i) : i.wellFormed = true ∧ widthMatches w i = true := by
  unfold decodeAfter at h
  split at h
  · obtain ⟨rfl, -⟩ := decodeF0_eq_some h; exact ⟨rfl, rfl⟩
  split at h
  · obtain ⟨rfl, -⟩ := decodeF0_eq_some h; exact ⟨rfl, rfl⟩
  split at h
  · obtain ⟨rfl, -⟩ := decodeDummies_eq_some h; exact ⟨rfl, rfl⟩
  split at h
  · obtain ⟨v, rfl, -⟩ := decodeF1W_eq_some h; exact ⟨rfl, rfl⟩
  split at h
  · exact decodeFAR_wellFormed h
  split at h
  · exact decodeFAW_wellFormed h
  split at h
  · obtain ⟨rfl, -⟩ := decodeDummies_eq_some h; exact ⟨rfl, rfl⟩
  · cases h

/-! ### Whole frames (R80) -/

theorem decodeFrame_cons_eq_ok_iff {o : Opcodes} {dummy op : Byte} {w : AddrWidth} {rest : List Byte} {i : Instr} :
    decodeFrame o dummy w (op :: rest) = .ok i ↔ decodeAfter o dummy w op rest = some i := by
  cases h : decodeAfter o dummy w op rest <;> simp [decodeFrame, h]

theorem encode_wire {i : Instr} (o : Opcodes) (dummy : Byte) (hi : isWire i = true) :
    encode o dummy i = .frame (frameBytes o dummy i) := by
  cases i <;> cases hi <;> rfl

theorem decode_encode_host {i : Instr} (o : Opcodes) (dummy : Byte) (w : AddrWidth) (hi : isWire i = false) :
    decode o dummy w (encode o dummy i) = .ok i := by
  cases i <;> cases hi <;> rfl

/-- The bytes of a well-formed frame of the device's width are read as the instruction they are the bytes of. -/
theorem decodeFrame_frameBytes {o : Opcodes} {w : AddrWidth} {i : Instr} (dummy : Byte) (hdistinct : o.Distinct)
    (hwf : i.wellFormed = true) (hwidth : widthMatches w i = true) (hi : isWire i = true) :
    decodeFrame o dummy w (frameBytes o dummy i) = .ok i := by
  have order := opcodes_inOrder hdistinct
  cases i <;> cases hi <;> refine decodeFrame_cons_eq_ok_iff.2 ?_
  case wireWren => exact decodeAfter_wren o dummy w []
  case wireWrdi => exact decodeAfter_wrdi order dummy w []
  case wireRdsr => exact (decodeAfter_rdsr order dummy w _).trans (decodeDummies_replicate dummy 1 _)
  case wireWrsr v => exact decodeAfter_wrsr order dummy w [v]
  case wireRead v a =>
    obtain rfl : v = w := of_decide_eq_true hwidth
    exact (decodeAfter_read order dummy v _).trans (decodeFAR_addrField dummy hwf)
  case wireWrite v a data =>
    obtain rfl : v = w := of_decide_eq_true hwidth
    obtain ⟨hfits, hlen⟩ := Bool.and_eq_true_iff.1 hwf
    exact (decodeAfter_write order dummy v _).trans (decodeFAW_addrField hfits (of_decide_eq_true hlen))
  case wireRdid => exact (decodeAfter_rdid order dummy w _).trans (decodeDummies_replicate dummy 4 _)

/-- Settles O2: a command word by its row, and a frame by its opcode and its format. -/
theorem decodeEncodeRoundTrip : Obligations.DecodeEncodeRoundTrip := by
  intro o dummy w i hdistinct hwf hwidth
  cases hi : isWire i with
  | false => exact decode_encode_host o dummy w hi
  | true =>
    rw [encode_wire o dummy hi]
    exact decodeFrame_frameBytes dummy hdistinct hwf hwidth hi

/-- Settles O3: the opcode byte and the format that accepted the frame say every one of its bytes. -/
theorem frameHasOneMeaning : Obligations.FrameHasOneMeaning := by
  intro o dummy w bytes i h
  cases bytes with
  | nil => cases h
  | cons op rest =>
    have hafter : decodeAfter o dummy w op rest = some i := decodeFrame_cons_eq_ok_iff.1 h
    obtain ⟨hwf, hwidth⟩ := decodeAfter_wellFormed hafter
    obtain ⟨hi, hbytes⟩ := decodeAfter_eq_some hafter
    exact ⟨hwf, hi, hwidth, by rw [encode_wire o dummy hi, hbytes]⟩

/-- Settles O1: each word is evaluated. -/
theorem specWordsDecode : Obligations.SpecWordsDecode := by
  unfold Obligations.SpecWordsDecode
  decide

end Sys2Proof.Machine

/-! ## Proofs of the family 30_encoding: the command word -/

namespace Sys2Proof.Machine

theorem decodeCommand_reserved {c : Command} (h : 10 ≤ (cmdOp c.word).toNat) :
    decodeCommand c = .error (.reservedCommand (cmdOp c.word)) := by
  unfold decodeCommand
  split
  case h_11 => rfl
  all_goals omega

/-- The decoder reads `cmd_op`, `cmd_en` for code 3, and the ports of the selected row (R97, R98). -/
theorem decodeCommand_congr {c c' : Command} (hop : cmdOp c'.word = cmdOp c.word)
    (hen : (cmdOp c.word).toNat = 3 → cmdEn c'.word = cmdEn c.word)
    (haddr : (cmdOp c.word).toNat ∈ [4, 5, 6] → c'.addr = c.addr)
    (hdata : (cmdOp c.word).toNat ∈ [2, 4, 9] → c'.data = c.data)
    (hcount : (cmdOp c.word).toNat = 5 → c'.count = c.count) : decodeCommand c' = decodeCommand c := by
  simp only [decodeCommand, hop]
  split
  · rfl
  · rfl
  · next h => rw [hdata (by simp [h])]
  · next h => rw [hen h]
  · next h => rw [haddr (by simp [h]), hdata (by simp [h])]
  · next h => rw [haddr (by simp [h]), hcount h]
  · next h => rw [haddr (by simp [h])]
  · rfl
  · rfl
  · next h => rw [hdata (by simp [h])]
  · rfl

/-- A code below 10 selects a host operation, and a command port carries any of them. -/
theorem decodeCommand_defined {c : Command} (h : (cmdOp c.word).toNat < 10) :
    ∃ i, decodeCommand c = .ok i ∧ isWire i = false ∧ i.wellFormed = true := by
  interval_cases hcode : (cmdOp c.word).toNat <;> simp only [decodeCommand, hcode]
  pick_goal 4
  · cases cmdEn c.word <;> exact ⟨_, rfl, rfl, rfl⟩
  all_goals exact ⟨_, rfl, rfl, rfl⟩

/-- Settles O4: the ten rows, the reserved codes, and what the decoder reads. -/
theorem commandWordTable : Obligations.CommandWordTable := by
  intro c
  refine ⟨?_, ?_, ?_, ?_, ?_, ?_, ?_, ?_, ?_, ?_, ?_, decodeCommand_defined, decodeCommand_reserved,
    fun hne c' hop haddr hdata hcount =>
      decodeCommand_congr hop (absurd · hne) (fun _ => haddr) (fun _ => hdata) (fun _ => hcount)⟩
  case refine_4 => intro h hen; simp [decodeCommand, h, hen]
  case refine_5 => intro h hen; simp [decodeCommand, h, hen]
  all_goals intro h; simp [decodeCommand, h]

theorem decodeInput_reserved {c : Command} (s : State) (h : 10 ≤ (cmdOp c.word).toNat) :
    decodeInput s (.command c) = .error (.reservedCommand (cmdOp c.word)) := decodeCommand_reserved h

/-- Settles O10: the refusal, the word consumed, and what the decoder reads. -/
theorem reservedCommandWord : Obligations.ReservedCommandWord := by
  refine ⟨fun s g c rest hb hin hcode => ?_, fun c c' hword =>
    decodeCommand_congr (by rw [hword]) (fun _ => by rw [hword])⟩
  have hfetch : fetch s = fetchRejected (.reservedCommand (cmdOp c.word)) { s with inbox := rest } := by
    rw [fetch_idle_cons hb hin]
    simp only [fetchIdle, decodeInput_reserved _ hcode]
  refine ⟨fun hc => step_of_stop ?_, fun hc => ?_⟩
  · simp only [hfetch, fetchRejected, hc]
  · simp only [step, hfetch, fetchRejected, hc]

end Sys2Proof.Machine

/-! ## Proofs of the family 30_encoding: the address field -/

namespace Sys2Proof.Machine

/-- Byte `k` of the field (R86): the most significant byte is sent first. -/
theorem addrBytes_getElem? {w : AddrWidth} {k : Nat} (a : Addr) (hk : k < w.bytes) :
    (addrBytes w a)[k]? = some (a.extractLsb' (8 * (w.bytes - 1 - k)) 8) := by
  cases w <;> simp only [AddrWidth.bytes] at hk <;> interval_cases k <;> rfl

theorem widthOf_eq_some_iff (r : Byte) (w : AddrWidth) : widthOf r = some w ↔ r.toNat = w.bytes := by
  unfold widthOf
  split
  · next h => cases w <;> simp [h, AddrWidth.bytes]
  · next h => cases w <;> simp [h, AddrWidth.bytes]
  · next h => cases w <;> simp [h, AddrWidth.bytes]
  · next h1 h2 h3 =>
    cases w with
    | w1 => exact iff_of_false nofun h1
    | w2 => exact iff_of_false nofun h2
    | w3 => exact iff_of_false nofun h3

theorem widthOf_eq_none_iff (r : Byte) : widthOf r = none ↔ r ≠ 1 ∧ r ≠ 2 ∧ r ≠ 3 := by
  simp only [Option.eq_none_iff_forall_ne_some, widthOf_eq_some_iff, ne_eq, BitVec.toNat_eq]
  exact ⟨fun h => ⟨h .w1, h .w2, h .w3⟩, fun ⟨h1, h2, h3⟩ w => by cases w <;> assumption⟩

/-- Settles O5: the field's length, its bytes and its value; and the widths that have a field. -/
theorem addressFieldBytes : Obligations.AddressFieldBytes :=
  ⟨fun w a => ⟨addrBytes_length w a, fun _ hk => addrBytes_getElem? a hk, beValue_addrBytes w a⟩,
    fun r => ⟨widthOf_eq_some_iff r, widthOf_eq_none_iff r⟩⟩

end Sys2Proof.Machine

/-! ## Proofs of the family 30_encoding: the opcode of the open frame -/

namespace Sys2Proof.Machine

/-- `f` starts with one of the seven opcodes (R85). -/
def StartsWithOpcode (o : Opcodes) (f : List (Byte × Byte)) : Prop := ∃ x, f.head? = some x ∧ x.1 ∈ o.toList

/-- What the block may leave on the bus `b` of the frame of an operation (R92): it had none; it completed one that starts
with an opcode; or it has one open that does, or will. -/
inductive OpcodeEnd (o : Opcodes) (b : Bus) (t : State) : Prop where
  | quiet (idle : t.busy = false) (frames : t.bus.frames = b.frames)
  | completed (idle : t.busy = false) (f : List (Byte × Byte)) (frames : t.bus.frames = b.frames ++ [f])
      (starts : StartsWithOpcode o f)
  | waiting (frames : t.bus.frames = b.frames) (opens : opensWithOpcode o t.todo t.bus.frame)

theorem OpcodeEnd.opcodeInv {b : Bus} {t : State} (h : OpcodeEnd t.params.opc b t) : OpcodeInv t := by
  intro busy
  cases h with
  | quiet idle _ => simp [idle] at busy
  | completed idle _ _ _ => simp [idle] at busy
  | waiting _ opens => exact opens

/-- The one frame added is the one that starts with an opcode. -/
theorem OpcodeEnd.starts {o : Opcodes} {b : Bus} {t : State} {f : List (Byte × Byte)} (h : OpcodeEnd o b t)
    (hf : t.bus.frames = b.frames ++ [f]) : StartsWithOpcode o f := by
  cases h with
  | quiet _ frames => simp [frames] at hf
  | completed _ g frames starts =>
    obtain rfl : g = f := by simpa [frames] using hf
    exact starts
  | waiting frames _ => simp [frames] at hf

theorem runBeats_opcodeEnd {beats : List Beat} {s t : State} {o : Opcodes} {b : Bus} (busy : s.busy = true)
    (hframes : s.bus.frames = b.frames) (hopen : opensWithOpcode o beats s.bus.frame)
    (h : runBeats beats s = .next t) : OpcodeEnd o b t := by
  rcases runBeats_open beats s t o hopen h busy with ⟨idle, f, frames, starts⟩ | ⟨-, frames, opens⟩
  · exact .completed idle f (hframes ▸ frames) starts
  · exact .waiting (hframes ▸ frames) opens

/-- An empty frame with its opcode as the next exchange. -/
theorem opensWithOpcode_begun {f : List (Byte × Byte)} (o : Opcodes) (k : OpKind) (rest : List Beat) (hf : f = []) :
    opensWithOpcode o (opcBeat (opcodeOf o k) :: rest) f :=
  .inr ⟨hf, _, rest, rfl, opcodeOf_mem o k⟩

theorem runPinOp_opcodeEnd {k : OpKind} {l : OpLatches} {frame : State → List Beat} {s t : State} {rest : List Beat}
    (hb : s.busy = false) (hframe : frame (accept (some k) l s) = opcBeat (opcodeOf s.params.opc k) :: rest)
    (h : runPinOp k l frame s = .next t) : OpcodeEnd s.params.opc s.bus t := by
  obtain ⟨busy, -⟩ | ⟨-, hrun⟩ := atAcceptance_end h
  · simp [hb] at busy
  · rw [hframe] at hrun
    obtain ⟨-, hempty, hframes⟩ := csAssert_out s.params.opc s.bus
    exact runBeats_opcodeEnd (s := framed k l s) rfl hframes (opensWithOpcode_begun _ k rest hempty) hrun

theorem execBegin_opcodeEnd {s t : State} (hb : s.busy = false) (h : exec .begin s = .next t) :
    OpcodeEnd s.params.opc s.bus t := by
  obtain ⟨hframes, hempty⟩ := beginFramed_frames s
  exact runBeats_opcodeEnd (s := beginFramed s) rfl hframes (opensWithOpcode_begun s.params.opc .begin _ hempty)
    ((execBegin_idle s hb).symm.trans h)

/-- A host operation is not accepted, or its frame is of the seven opcodes, case by case over what `exec` can do. -/
theorem exec_opcodeEnd {i : Instr} {s t : State} (hi : isWire i = false) (h : exec i s = .next t) :
    t = s ∨ OpcodeEnd s.params.opc s.bus t := by
  cases exec_end h with
  | same _ e => exact .inl e
  | disturbed _ wire _ _ => simp [hi] at wire
  | get _ _ e => rw [e]; exact .inr (.quiet rfl rfl)
  | set _ _ _ e => rw [e]; exact .inr (.quiet rfl rfl)
  | begin hb hbegin _ => exact .inr (execBegin_opcodeEnd hb (hbegin ▸ h))
  | pin hb k l frame _ _ _ hh r _ =>
    obtain ⟨rest, hframe⟩ := hh (accept (some k) l s) rfl rfl
    exact .inr (runPinOp_opcodeEnd hb hframe r)
  | wire _ wire _ => simp [hi] at wire

/-! ### A step -/

/-- What a step runs: a busy block the rest of its frame, with no change of its bus but at the device, and an idle one an
operation, or nothing that makes it busy. -/
theorem step_runs {s t : State} (h : step s = .next t) :
    (s.busy = true ∧ ∃ inbox bus, SameButDevice s.bus bus ∧
        runBeats s.todo { s with inbox := inbox, bus := bus } = .next t) ∨
      (s.busy = false ∧ ((∃ i inbox, exec i { s with inbox := inbox } = .next t) ∨ t.busy = false)) := by
  cases hf : fetch s with
  | idle =>
    obtain rfl : idleTick s = t := by simpa only [step, hf, Host.Outcome.next.injEq] using h
    have hb := fetch_idle hf
    exact .inr ⟨hb, .inr hb⟩
  | goOn s1 =>
    obtain ⟨hb, hs1⟩ := fetch_goOn hf
    obtain ⟨inbox, bus, same, rfl⟩ := goOn_same hs1
    exact .inl ⟨hb, inbox, bus, same, (step_of_goOn hf).symm.trans h⟩
  | run i s1 =>
    obtain ⟨hb, inbox, rfl⟩ := fetch_run hf
    exact .inr ⟨hb, .inl ⟨i, inbox, by simpa only [step, hf] using h⟩⟩
  | stop r => simp [step_of_stop hf] at h
  | skip s1 =>
    obtain rfl : s1 = t := by simpa only [step, hf, Host.Outcome.next.injEq] using h
    obtain ⟨hb, inbox, rfl | ⟨bytes, rfl⟩ | rfl⟩ := fetch_skip hf
    · exact .inr ⟨hb, .inr hb⟩
    · exact .inr ⟨hb, .inr hb⟩
    · exact .inr ⟨hb, .inr rfl⟩

theorem step_busy_opcodeEnd {s t : State} (hinv : OpcodeInv s) (hb : s.busy = true) (h : step s = .next t) :
    OpcodeEnd s.params.opc s.bus t := by
  obtain ⟨-, inbox, bus, same, hrun⟩ | ⟨idle, -⟩ := step_runs h
  · exact runBeats_opcodeEnd (s := { s with inbox := inbox, bus := bus }) hb same.frames (same.frame ▸ hinv hb) hrun
  · simp [hb] at idle

/-- No instruction leaves an idle block with a frame open that starts otherwise. -/
theorem exec_idle_opcodeInv {i : Instr} {s t : State} (hb : s.busy = false) (h : exec i s = .next t) : OpcodeInv t := by
  cases hi : isWire i with
  | true =>
    rw [exec_wire hi hb] at h
    cases h
    exact fun busy => by simp [hb] at busy
  | false =>
    obtain rfl | e := exec_opcodeEnd hi h
    · exact fun busy => by simp [hb] at busy
    · exact OpcodeEnd.opcodeInv ((execEnd_paramsKept (exec_end h)).params ▸ e)

/-- Settles O59: a busy block goes on with its frame, and an idle one begins a frame with its opcode. -/
theorem stepKeepsOpcodeInv : Obligations.StepKeepsOpcodeInv := by
  intro s t hinv h
  obtain ⟨hb, -⟩ | ⟨hb, ⟨i, inbox, hexec⟩ | idle⟩ := step_runs h
  · obtain ⟨hparams, -⟩ := stepKeepsParameters s t h
    exact OpcodeEnd.opcodeInv (hparams ▸ step_busy_opcodeEnd hinv hb h)
  · exact exec_idle_opcodeInv (s := { s with inbox := inbox }) hb hexec
  · exact fun busy => by simp [idle] at busy

/-- Settles O17: the frame added, by an operation or by a resumed step, is the one that starts with an opcode. -/
theorem onlyKnownOpcodesEmitted : Obligations.OnlyKnownOpcodesEmitted := by
  refine ⟨fun i s t f hi h hf => ?_, fun s t f hinv hb h hf => (step_busy_opcodeEnd hinv hb h).starts hf⟩
  obtain rfl | e := exec_opcodeEnd hi h
  · simp at hf
  · exact e.starts hf

end Sys2Proof.Machine

/-! ## Proofs of the family 40_config_ops: GETADDRLEN after any run -/

namespace Sys2Proof.Machine

/-! ### What a step takes from the inputs -/

/-- The inputs still presented once `f` is fetched, where they were `inbox`. -/
def Fetched.inputsAfter (inbox : List Entry) : Fetched → List Entry
  | .idle => inbox
  | .goOn s => s.inbox
  | .run _ s => s.inbox
  | .stop _ => inbox
  | .skip s => s.inbox

theorem fetchRejected_inputs (r : Reject) {s : State} {inbox : List Entry} (h : s.inbox <:+ inbox) :
    (fetchRejected r s).inputsAfter inbox <:+ inbox := by
  unfold fetchRejected
  split
  · split
    · exact List.suffix_rfl
    · exact h
  · exact h
  · exact h

theorem fetchBusy_inputs (e : Entry) (rest : List Entry) {s : State} (hin : s.inbox = e :: rest) :
    (fetchBusy e rest s).inputsAfter s.inbox <:+ s.inbox := by
  unfold fetchBusy
  split
  -- conduct `hardware` takes a frame of another master
  case h_6 => exact hin ▸ List.suffix_cons e rest
  all_goals exact List.suffix_rfl

/-- Inputs are taken from the head. -/
theorem fetch_inputs (s : State) : (fetch s).inputsAfter s.inbox <:+ s.inbox := by
  unfold fetch
  split
  · exact List.suffix_rfl
  · next e rest _ hin => exact hin ▸ fetchBusy_inputs e rest hin
  · exact List.suffix_rfl
  · next e rest _ hin =>
    rw [hin]
    unfold fetchIdle
    split
    · exact List.suffix_cons e rest
    · exact fetchRejected_inputs (s := { s with inbox := rest }) _ (List.suffix_cons e rest)

/-- What runs was decoded from an input. -/
theorem fetch_run_decoded {s s1 : State} {i : Instr} (h : fetch s = .run i s1) :
    ∃ e ∈ s.inbox, decodeInput s e.enc = .ok i := by
  obtain ⟨hb, -⟩ := fetch_run h
  cases hin : s.inbox with
  | nil => simp [fetch, hb, hin] at h
  | cons e rest =>
    refine ⟨e, List.mem_cons_self, ?_⟩
    rw [fetch_idle_cons hb hin] at h
    unfold fetchIdle at h
    split at h
    · next hdec => cases h; exact hdec
    · exact absurd h (fetchRejected_ne_run _ _ _ _)

theorem exec_inbox {i : Instr} {s t : State} (h : exec i s = .next t) : t.inbox = s.inbox := by
  cases exec_end h with
  | same _ e => rw [e]
  | disturbed _ _ _ e => rw [e]
  | get _ _ e => rw [e]; rfl
  | set _ _ _ e => rw [e]; rfl
  | begin _ _ e => exact (beatsEnd_inbox e :)
  | pin _ _ _ _ _ _ _ _ _ e => exact (beatsEnd_inbox e :)
  | wire _ _ e => rw [e]

/-- A step adds no input. -/
theorem step_inbox {s t : State} (h : step s = .next t) : t.inbox <:+ s.inbox := by
  have taken := fetch_inputs s
  unfold step at h
  cases hf : fetch s with
  | idle => rw [hf] at h; cases h; exact List.suffix_rfl
  | goOn s1 => rw [hf] at h taken; exact (beatsEnd_inbox (resume_end h)).symm ▸ taken
  | run i s1 => rw [hf] at h taken; exact (exec_inbox h).symm ▸ taken
  | stop r => rw [hf] at h; cases h
  | skip s1 => rw [hf] at h taken; cases h; exact taken

/-! ### The register keeps its value after reset -/

theorem decodeInput_congr {s t : State} (h : ParamsKept s t) (e : Encoded) : decodeInput t e = decodeInput s e := by
  simp only [decodeInput, h.params, h.chip]

/-- `ADDR_W` is 2, and no input presented writes it. -/
structure WidthUnset (s : State) : Prop where
  addrW : s.addrW = 2
  inputs : ∀ e ∈ s.inbox, ∀ m, decodeInput s e.enc ≠ .ok (.setAddrLen m)

/-- A step that decodes no SETADDRLEN keeps the value 2: only a reset writes the register then (R114, R230). -/
theorem step_addrW {s t : State} (hs : WidthUnset s) (h : step s = .next t) : t.addrW = 2 := by
  obtain ⟨hw, hin⟩ := hs
  obtain ⟨hexec, hbusy⟩ := onlySetAddrLenWritesAddrW
  have hstep := h
  unfold step at hstep
  cases hf : fetch s with
  | idle => rw [hf] at hstep; cases hstep; exact hw
  | goOn s1 => exact (hbusy s t (fetch_goOn hf).1 h).trans hw
  | run i s1 =>
    rw [hf] at hstep
    obtain ⟨-, inbox, rfl⟩ := fetch_run hf
    obtain kept | rfl := hexec i _ t hstep
    · exact kept.trans hw
    · obtain ⟨e, hmem, hdec⟩ := fetch_run_decoded hf
      exact absurd hdec (hin e hmem _)
  | stop r => rw [hf] at hstep; cases hstep
  | skip s1 =>
    rw [hf] at hstep; cases hstep
    obtain ⟨-, inbox, rfl | ⟨bytes, rfl⟩ | rfl⟩ := fetch_skip hf
    · exact hw
    · exact hw
    · rfl

theorem WidthUnset.step {s t : State} (h : WidthUnset s) (hs : step s = .next t) : WidthUnset t := by
  refine ⟨step_addrW h hs, fun e he m => ?_⟩
  rw [decodeInput_congr (stepEnd_paramsKept (step_end hs))]
  exact h.inputs e ((step_inbox hs).subset he) m

theorem WidthUnset.runSteps {n : Nat} {s t : State} (h : WidthUnset s) (hr : runSteps n s = some t) :
    WidthUnset t := by
  induction n generalizing s with
  | zero => cases hr; exact h
  | succ n ih =>
    unfold Machine.runSteps at hr
    split at hr
    · next hs => exact ih (h.step hs) hr
    · cases hr
    · cases hr

/-- Settles O22: the operation reads the register, and no run without SETADDRLEN writes anything but 2 to it. -/
theorem getAddrLenReturnsWidth : Obligations.GetAddrLenReturnsWidth := by
  refine ⟨fun c hcode => ?_, fun p w c budget es ws n s hin hrun hb => ?_, fun s hb => ?_⟩
  · obtain ⟨-, hget, -⟩ := commandWordTable c
    exact hget (BitVec.eq_of_toNat_eq hcode)
  · have start : WidthUnset { construct p w c budget with inbox := es, wdat := ws } := ⟨rfl, hin⟩
    exact ⟨_, exec_getAddrLen_idle hb, (start.runSteps hrun).addrW⟩
  · exact ⟨_, exec_getAddrLen_idle hb, rfl, ⟨rfl, rfl, rfl, rfl, rfl⟩, rfl, ⟨rfl, rfl, rfl, rfl⟩,
      ⟨rfl, rfl, rfl, rfl, rfl, rfl, rfl⟩, rfl, rfl⟩

end Sys2Proof.Machine

/-! ## Proofs of the family 40_config_ops: BEGIN's probe -/

namespace Sys2Proof.Machine

/-- BEGIN is accepted and has configured the pins; its probe is next (R112). -/
def beginConfigured (s : State) : State :=
  { accept (some .begin) s.lat s with bus := configurePins s.params s.bus }

theorem execBegin_runFrame {s : State} (hb : s.busy = false) :
    exec .begin s = runFrame (frameFID s.params) (beginConfigured s) := execBegin_idle s hb

/-- Everything BEGIN does when its engine lasts, but for the pins: `f` is the probe, `s'` the state after its last
exchange (R112, R113, R196). -/
structure ProbeOut (s s' : State) (f : List (Byte × Byte)) : Prop where
  bytes : f.map Prod.fst = probeBytes s.params
  progress : Progress (beginFramed s) s'
  wdat : s'.wdat = s.wdat
  frames : (finishOp s').bus.frames = s.bus.frames ++ [f]
  trace : (finishOp s').bus.trace = s.bus.trace ++ configEvents s.params ++ frameEvents s.params.mode f
  lines : LinesAfter s (finishOp s') f

/-- The lines after BEGIN's probe: chip-select and the exchanges move latches only, the configuration none but CS's. -/
theorem linesAfter_probe {s s' : State} {f : List (Byte × Byte)} (hf : f ≠ []) (p : Progress (beginFramed s) s')
    (hl : s.params.mode = .sw →
      (finishOp s').bus.pins.sck.latch = sckAfter f (beginConfigured s).bus.pins.sck.latch ∧
        (finishOp s').bus.pins.mosi.latch = mosiAfter f (beginConfigured s).bus.pins.mosi.latch) :
    LinesAfter s (finishOp s') f := by
  have cfg := configurePins_out s.params s.bus
  obtain ⟨down, -, -⟩ := csAssert_out s.params.opc (configurePins s.params s.bus)
  obtain ⟨up, -, -⟩ := csDeassert_out s'.params.opc s'.bus
  have hbus := (finishOp_out s').bus
  refine ⟨by rw [hbus, up.pins], ?_⟩
  cases hm : s.params.mode with
  | sw =>
    obtain ⟨hsck, hmosi⟩ := hl hm
    refine ⟨by rw [hsck, sckAfter, if_neg hf], by rw [hmosi, mosiAfter_some f _ hf], ?_⟩
    calc (finishOp s').bus.hwx
      _ = s'.bus.hwx := by rw [hbus, up.hwx]
      _ = (beginFramed s).bus.hwx := p.hwx hm
      _ = s.bus.hwx := down.hwx.trans (cfg.hwx hm)
  | hw =>
    obtain ⟨hsck, hmosi⟩ := p.hwLines hm
    obtain ⟨csck, cmosi, -⟩ := cfg.hw hm
    refine ⟨?_, ?_, ?_⟩
    · rw [hbus, up.pins]; exact hsck.trans ((congrArg Pins.sck down.pins).trans csck)
    · rw [hbus, up.pins]; exact hmosi.trans ((congrArg Pins.mosi down.pins).trans cmosi)
    · rw [hbus, up.engine, p.engine hm]; exact down.engine.trans cfg.engine

/-- BEGIN on an idle block completes when its engine does the five exchanges of the probe. -/
theorem execBegin_completed {s : State} (hb : s.busy = false) (hl : engineLasts 5 s = true) :
    ∃ f s', exec .begin s = .next (finishOp s') ∧ ProbeOut s s' f := by
  have cfg := configurePins_out s.params s.bus
  obtain ⟨f, s', hrun, hbytes, progress, -, hwdat, hframes, htrace, hlines⟩ :=
    runFrame_sent (frameFID s.params) (beginConfigured s) (probeBytes s.params) rfl
      ((engineLasts_congr (s := s) (t := beginConfigured s) rfl cfg.budget).trans hl) rfl
  have hne : f ≠ [] := by rintro rfl; cases hbytes
  refine ⟨f, s', (execBegin_runFrame hb).trans hrun, hbytes, progress, hwdat, ?_, ?_,
    linesAfter_probe hne progress hlines⟩
  · rw [hframes]; exact congrArg (· ++ [f]) cfg.frames
  · rw [htrace]; exact congrArg (· ++ frameEvents s.params.mode f) cfg.trace

/-- The pins stay as BEGIN configured them, to the end of its probe or where it waits (R28, R112). -/
theorem beginFramed_configured {beats : List Beat} {s t : State} (e : BeatsEnd beats (beginFramed s) t) :
    pinsConfigured t.params t.bus = true := by
  obtain ⟨hcs, hsck, hmosi, hmiso, hset⟩ := beatsEnd_dirs e
  obtain ⟨down, -, -⟩ := csAssert_out s.params.opc (configurePins s.params s.bus)
  rw [(beatsEnd_params e).1, pinsConfigured_congr _ hcs hsck hmosi (congrArg PinState.dir hmiso) hset]
  exact (down.pinsConfigured s.params).trans (configurePins_out s.params s.bus).configured

/-- What the end of BEGIN delivers (R32, R112). -/
theorem finishOp_begin {s : State} (h : s.op = some .begin) :
    (finishOp s).init = true ∧ (finishOp s).resp.ok = true := by
  rw [(finishOp_out s).init, (finishOp_out s).resp]
  simp [respondOp, h, respond]

/-- Settles O24: the probe is one frame after the configuration, and its end delivers the response. -/
theorem beginCompletes : Obligations.BeginCompletes := by
  intro s hb hl
  obtain ⟨f, s', hexec, out⟩ := execBegin_completed hb hl
  have e : BeatsEnd [] (beginFramed s) (finishOp s') := .finished s' out.progress rfl
  have fin := finishOp_out s'
  obtain ⟨hinit, hok⟩ := finishOp_begin out.progress.op
  obtain ⟨hparams, hwiring, hchip⟩ := (beginFramed_paramsKept s).beatsEnd e
  exact ⟨f, finishOp s', hexec, out.bytes, hinit, hok, fin.rest, fin.valid,
    ⟨hparams, (beatsEnd_inbox e :), hwiring, hchip⟩, (beatsEnd_addrW e :), fin.wdat.trans out.wdat,
    beginFramed_configured e, out.lines, out.frames, out.trace⟩

end Sys2Proof.Machine

/-! ## Proofs of the family 40_config_ops: an exchange that never completes -/

namespace Sys2Proof.Machine

/-- In hardware mode the peripheral completes an exchange and has one fewer to complete, or has none (R195, R216). -/
theorem xfer_hw_cases {p : Params} {b : Bus} {n : Nat} (hm : p.mode = .hw) (hb : b.hwx.budget = some n) (tx : Byte) :
    (n = 0 ∧ xfer p tx b = none) ∨
      ∃ m rx b', n = m + 1 ∧ xfer p tx b = some (rx, b') ∧ b'.hwx.budget = some m := by
  cases n with
  | zero => exact .inl ⟨rfl, (xfer_hw_none_iff p hm tx b).2 hb⟩
  | succ m =>
    cases hx : xfer p tx b with
    | none => simp [(xfer_hw_none_iff p hm tx b).1 hx] at hb
    | some r =>
      obtain ⟨rx, b'⟩ := r
      obtain ⟨out, -⟩ := xfer_out p tx rx b b' hx
      obtain ⟨-, -, hhwx⟩ := out.hw hm
      exact .inr ⟨m, rx, b', rfl, rfl, by simp [hhwx, hwxDone, hb]⟩

/-- The exchanges of a frame up to the one that is pending for ever, byte `n` (R216). -/
theorem runBeats_pending {beats : List Beat} {s : State} {txs : List Byte} {n : Nat}
    (h : txsOf beats s.wdat = some txs) (busy : s.busy = true) (hm : s.params.mode = .hw)
    (hb : s.bus.hwx.budget = some n) (hn : n < txs.length) :
    ∃ t, runBeats beats s = .next t ∧ t.busy = true ∧ t.bus.hwx.pending = txs[n]? := by
  induction beats generalizing s txs n with
  | nil => cases h; cases hn
  | cons beat beats ih =>
    cases beat with
    | malformed w => cases h
    | byte ph tx keep =>
      simp only [txsOf, Option.map_eq_some_iff] at h
      obtain ⟨rest, h, rfl⟩ := h
      obtain ⟨rfl, hx⟩ | ⟨m, rx, b, rfl, hx, hb'⟩ := xfer_hw_cases hm hb tx <;> simp only [runBeats, hx]
      · exact ⟨_, rfl, busy, rfl⟩
      · exact ih (s := beatDone ph keep rx b s) (txs := rest) h busy hm hb' (Nat.lt_of_succ_lt_succ hn)
    | stream i =>
      cases hwdat : s.wdat with
      | nil => rw [hwdat] at h; cases h
      | cons tx more =>
        simp only [hwdat, txsOf, Option.map_eq_some_iff] at h
        obtain ⟨rest, h, rfl⟩ := h
        obtain ⟨rfl, hx⟩ | ⟨m, rx, b, rfl, hx, hb'⟩ := xfer_hw_cases hm hb tx <;> simp only [runBeats, hwdat, hx]
        · exact ⟨_, rfl, busy, rfl⟩
        · exact ih (s := beatDone (.data i) false rx b { s with wdat := more }) (txs := rest) h busy hm hb'
            (Nat.lt_of_succ_lt_succ hn)

/-- From `s`, where its frame began, to `t`, where the operation waits for the exchange of the byte `pending` (R216). -/
structure InFlight (pending : Option Byte) (s t : State) : Prop where
  busy : t.busy = true
  seq : t.seq ≠ .idle
  respValid : t.respValid = s.respValid
  init : t.init = s.init
  cs : t.bus.pins.cs = s.bus.pins.cs
  pending : t.bus.hwx.pending = pending
  frames : t.bus.frames = s.bus.frames

/-- A frame longer than the peripheral lasts hangs. -/
theorem runBeats_hangs {beats : List Beat} {s : State} {txs : List Byte} {n : Nat}
    (h : txsOf beats s.wdat = some txs) (hphases : phasesOk beats = true) (busy : s.busy = true)
    (hm : s.params.mode = .hw) (hb : s.bus.hwx.budget = some n) (hn : n < txs.length) :
    ∃ t, runBeats beats s = .next t ∧ InFlight txs[n]? s t := by
  obtain ⟨t, hrun, hbusy, hpending⟩ := runBeats_pending h busy hm hb hn
  refine ⟨t, hrun, ?_⟩
  cases runBeats_end beats s t hrun with
  | finished s' p e => rw [e] at hbusy; cases hbusy
  | waiting s' ph todo p e ok =>
    obtain ⟨hph, -⟩ := ok hphases
    subst e
    exact ⟨hbusy, hph, p.respValid, p.init, p.cs, hpending, p.frames⟩

/-- BEGIN hangs in its probe (R113). -/
theorem execBegin_hangs {s : State} {n : Nat} (hb : s.busy = false) (hm : s.params.mode = .hw)
    (hbudget : s.bus.hwx.budget = some n) (hn : n < (probeBytes s.params).length) :
    ∃ t, exec .begin s = .next t ∧ InFlight (probeBytes s.params)[n]? (beginFramed s) t := by
  obtain ⟨down, -, -⟩ := csAssert_out s.params.opc (configurePins s.params s.bus)
  have hbudget' : (beginFramed s).bus.hwx.budget = some n :=
    (congrArg Hwx.budget down.hwx).trans ((configurePins_out s.params s.bus).budget.trans hbudget)
  rw [execBegin_idle s hb]
  exact runBeats_hangs (beats := frameFID s.params) rfl rfl rfl hm hbudget' hn

/-- Every host operation with a frame hangs in it (R195, R216). -/
theorem exec_hostFrame_hangs {i : Instr} {s : State} {txs : List Byte} {n : Nat} (h : opBytes s i = some txs)
    (ha : Admitted s) (hst : streamFull s i = true) (hm : s.params.mode = .hw) (hbudget : s.bus.hwx.budget = some n)
    (hn : n < txs.length) : ∃ k l t, exec i s = .next t ∧ InFlight txs[n]? (framed k l s) t := by
  obtain ⟨k, l, frame, hexec, -, htxs, -, -, hphases⟩ := exec_hostFrame i s txs h hst
  obtain ⟨down, -, -⟩ := csAssert_out s.params.opc s.bus
  have hbudget' : (framed k l s).bus.hwx.budget = some n := (congrArg Hwx.budget down.hwx).trans hbudget
  obtain ⟨t, hrun, flight⟩ := runBeats_hangs (s := framed k l s) htxs hphases rfl hm hbudget' hn
  exact ⟨k, l, t, hexec.trans ((runPinOp_admitted k l frame s ha).trans hrun), flight⟩

/-- Settles O36: BEGIN's probe and the frame of every other operation, from the state in which CS has fallen. -/
theorem hangInExchange : Obligations.HangInExchange := by
  refine ⟨fun s n hb hm hbudget hn => ?_, fun i s txs n h ha hst hm hbudget hn => ?_⟩
  · obtain ⟨t, hexec, flight⟩ := execBegin_hangs hb hm hbudget hn
    obtain ⟨down, -, -⟩ := csAssert_out s.params.opc (configurePins s.params s.bus)
    obtain ⟨hframes, -⟩ := beginFramed_frames s
    exact ⟨t, hexec, flight.busy, flight.seq, flight.respValid, flight.init,
      by rw [flight.cs]; simp [beginFramed, down.pins], flight.pending, flight.frames.trans hframes⟩
  · obtain ⟨k, l, t, hexec, flight⟩ := exec_hostFrame_hangs h ha hst hm hbudget hn
    obtain ⟨down, -, hframes⟩ := csAssert_out s.params.opc s.bus
    exact ⟨t, hexec, flight.busy, flight.seq, flight.respValid,
      by rw [flight.cs]; simp [framed, down.pins], flight.pending, flight.frames.trans hframes⟩

end Sys2Proof.Machine

/-! ## Proofs of the family 41_write_control -/

namespace Sys2Proof.Machine

/-- A pin-touching operation whose frame is its opcode alone (R81) completes with one exchange, and takes nothing from
the stream. -/
theorem runPinOp_opcodeAlone {k : OpKind} {l : OpLatches} {frame : State → List Beat} {s : State} {op : Byte}
    (ha : Admitted s) (hk : k ≠ .begin) (hframe : frame (accept (some k) l s) = frameF0 op)
    (hl : engineLasts 1 s = true) :
    ∃ rx t, runPinOp k l frame s = .next t ∧ Completed s t [(op, rx)] ∧ t.wdat = s.wdat := by
  have htxs : txsOf (frame (accept (some k) l s)) s.wdat = some [op] := by rw [hframe]; rfl
  have hstream : streamAfter (frame (accept (some k) l s)) s.wdat = s.wdat := by rw [hframe]; rfl
  obtain ⟨f, t, hrun, hsent, hcompleted, hwdat, -, -⟩ :=
    runPinOp_completed k l frame s [op] ha hk htxs (List.cons_ne_nil _ _) (by rw [hframe]; exact hl)
  obtain ⟨⟨_, rx⟩, rfl, rfl⟩ := List.map_eq_singleton_iff.1 hsent
  exact ⟨rx, t, hrun, hcompleted, hwdat.trans hstream⟩

/-- Settles O25: the frame of either form is the one opcode that the latch EN selects (R130, R131). -/
theorem writeEnableEmitsOneByte : Obligations.WriteEnableEmitsOneByte := by
  intro s ha hl
  have selects (en : Bool) (k : OpKind) :
      frameEnable (accept (some k) { s.lat with en } s) = frameF0 (enableOpcode s.params.opc en) := rfl
  exact ⟨runPinOp_opcodeAlone ha nofun (selects true .writeEnableT) hl,
    runPinOp_opcodeAlone ha nofun (selects false .writeEnableF) hl⟩

end Sys2Proof.Machine

/-! ## Proofs of the family 42_memory_access: the frame of an addressed operation -/

namespace Sys2Proof.Machine

theorem framed_engineLasts (n : Nat) (k : OpKind) (l : OpLatches) (s : State) :
    engineLasts n (framed k l s) = engineLasts n s := by
  obtain ⟨cs, -, -⟩ := csAssert_out s.params.opc s.bus
  exact engineLasts_congr rfl (congrArg Hwx.budget cs.hwx)

/-! ### The address field of an accepted operation -/

/-- An operation that the block `s` accepts with the address `a` sends `xs` in the place of its address field. -/
def AddressSent (s : State) (a : Addr) (xs : List Byte) : Prop :=
  ∀ k l, l.addr = a → addrBeats (accept k l s) = addrPhases xs

theorem addressSent_of_width {s : State} {w : AddrWidth} (hw : widthOf s.addrW = some w) (a : Addr) :
    AddressSent s a (addrBytes w a) := by
  rintro k l rfl
  exact addrBeats_of_width (s := accept k l s) hw

/-- In conduct `hardware` another width sends free bytes: one list for the three operations (R141, assumption 4). -/
theorem addressSent_of_hardware {s : State} (hw : widthOf s.addrW = none) (hc : s.params.conduct = .hardware)
    (a : Addr) : AddressSent s a (Config.malformedAddress (s.frees + 1) s.addrW a) := by
  rintro k l rfl
  exact addrBeats_of_hardware (s := accept k l s) hw hc

/-! ### The frame -/

/-- A frame of an opcode, an address field and data exchanges completes; the address field keeps no answer and takes
nothing from the stream (R84, R191). -/
theorem runPinOp_addressed {k : OpKind} {l : OpLatches} {frame : State → List Beat} {s : State} {op : Byte}
    {xs sent : List Byte} {data : List Beat} (ha : Admitted s) (hk : k ≠ .begin)
    (hframe : frame (accept (some k) l s) = opcBeat op :: addrPhases xs ++ data) (hdata : txsOf data s.wdat = some sent)
    (hl : engineLasts (1 + xs.length + data.length) s = true) :
    ∃ f t, runPinOp k l frame s = .next t ∧ Completed s t f ∧ f.map Prod.fst = op :: xs ++ sent ∧
      t.wdat = streamAfter data s.wdat ∧
      t.resp = responseOf k (accept (some k) l s) (keptOf data ((f.map Prod.snd).drop (1 + xs.length))) := by
  have htxs : txsOf (frame (accept (some k) l s)) s.wdat = some (op :: xs ++ sent) := by
    simp only [hframe, opcBeat, List.cons_append, txsOf, txsOf_addrPhases, hdata, Option.map_some]
  have hlen : (frame (accept (some k) l s)).length = 1 + xs.length + data.length := by
    simp only [hframe, List.length_append, List.length_cons, addrPhases_length, Nat.add_comm xs.length]
  obtain ⟨f, t, hrun, hsent, hcompleted, hwdat, hresp, -⟩ :=
    runPinOp_completed k l frame s _ ha hk htxs (List.cons_ne_nil _ _) (by rw [hlen]; exact hl)
  refine ⟨f, t, hrun, hcompleted, hsent, hwdat.trans ?_, hresp.trans ?_⟩
  · simp only [hframe, opcBeat, List.cons_append, streamAfter, streamAfter_addrPhases]
  · obtain _ | ⟨x, f⟩ := f
    · cases hsent
    · simp only [hframe, opcBeat, List.cons_append, List.map_cons, keptOf, Bool.false_eq_true, if_false,
        keptOf_addrPhases, Nat.add_comm 1, List.drop_succ_cons]

/-- WRITE8 at any width that sends an address field (R143). -/
theorem exec_write8_completed {s : State} {a : Addr} {xs : List Byte} (v : Byte) (ha : Admitted s)
    (haddr : AddressSent s a xs) (hl : engineLasts (2 + xs.length) s = true) :
    ∃ f t, exec (.write8 a v) s = .next t ∧ Completed s t f ∧
      f.map Prod.fst = s.params.opc.write :: xs ++ [v] ∧ t.wdat = s.wdat := by
  have hframe : frameFAW8 (accept (some .write8) { s.lat with addr := a, data := v } s) =
      opcBeat s.params.opc.write :: addrPhases xs ++ [.byte (.data 0) v false] := by
    rw [frameFAW8, haddr _ _ rfl]; rfl
  obtain ⟨f, t, hrun, hcompleted, hsent, hwdat, -⟩ := runPinOp_addressed (sent := [v]) ha (by decide) hframe rfl
    (by rw [List.length_singleton, Nat.add_right_comm]; exact hl)
  exact ⟨f, t, hrun, hcompleted, hsent, hwdat⟩

/-- WRITE at any width that sends an address field (R144, R145). -/
theorem exec_write_completed {s : State} {a : Addr} {count : Half} {xs : List Byte} (ha : Admitted s)
    (haddr : AddressSent s a xs) (hcount : count.toNat ≤ s.wdat.length)
    (hl : engineLasts (1 + xs.length + count.toNat) s = true) :
    ∃ f t, exec (.write a count) s = .next t ∧ Completed s t f ∧
      f.map Prod.fst = s.params.opc.write :: xs ++ s.wdat.take count.toNat ∧ t.wdat = s.wdat.drop count.toNat := by
  have hframe : frameFAW (accept (some .write) { s.lat with addr := a, count := count } s) =
      opcBeat s.params.opc.write :: addrPhases xs ++ (List.range count.toNat).map Beat.stream := by
    rw [frameFAW, haddr _ _ rfl]; rfl
  have hdata := txsOf_streams (List.range count.toNat) s.wdat (by rw [List.length_range]; exact hcount)
  obtain ⟨f, t, hrun, hcompleted, hsent, hwdat, -⟩ := runPinOp_addressed ha (by decide) hframe hdata
    (by rw [List.length_map, List.length_range]; exact hl)
  rw [streamAfter_streams] at hwdat
  rw [List.length_range] at hsent hwdat
  exact ⟨f, t, hrun, hcompleted, hsent, hwdat⟩

/-- READ8 at any width that sends an address field: one byte is received with the dummy, and the response is made of it
alone (R146). -/
theorem exec_read8_completed {s : State} {a : Addr} {xs : List Byte} (ha : Admitted s) (haddr : AddressSent s a xs)
    (hl : engineLasts (2 + xs.length) s = true) :
    ∃ f t rx, exec (.read8 a) s = .next t ∧ Completed s t f ∧
      f.map Prod.fst = s.params.opc.read :: xs ++ [s.params.dummy] ∧ f.getLast? = some (s.params.dummy, rx) ∧
      t.wdat = s.wdat ∧ t.resp = responseOf .read8 (accept (some .read8) { s.lat with addr := a } s) [rx] := by
  have hframe : frameFAR (accept (some .read8) { s.lat with addr := a } s) =
      opcBeat s.params.opc.read :: addrPhases xs ++ [dummyBeat s.params 0] := by
    rw [frameFAR, haddr _ _ rfl]; rfl
  obtain ⟨f, t, hrun, hcompleted, hsent, hwdat, hresp⟩ := runPinOp_addressed (sent := [s.params.dummy]) ha (by decide)
    hframe rfl (by rw [List.length_singleton, Nat.add_right_comm]; exact hl)
  obtain ⟨before, last, rfl, hbefore, hlast⟩ := List.map_eq_append_iff.1 hsent
  obtain ⟨⟨_, rx⟩, rfl, rfl⟩ := List.map_eq_singleton_iff.1 hlast
  have hlen : (before.map Prod.snd).length = 1 + xs.length := by
    rw [List.length_map, ← List.length_map (f := Prod.fst), hbefore, List.length_cons, Nat.add_comm]
  rw [List.map_append, List.drop_left' hlen] at hresp
  exact ⟨_, t, rx, hrun, hcompleted, hsent, List.getLast?_concat, hwdat, hresp⟩

/-- Settles O26: a legal width sends its address bytes. -/
theorem write8EmitsFrame : Obligations.Write8EmitsFrame := by
  intro s a v w ha hw hl
  exact exec_write8_completed v ha (addressSent_of_width hw a) (by rw [addrBytes_length]; exact hl)

/-- Settles O27: a legal width sends its address bytes, and the stream gives the data. -/
theorem writeEmitsFrame : Obligations.WriteEmitsFrame := by
  intro s a count w ha hw hcount hl
  exact exec_write_completed ha (addressSent_of_width hw a) hcount (by rw [addrBytes_length]; exact hl)

/-- Settles O28: at a legal width the response is the byte received with the dummy. -/
theorem read8ReturnsLastByte : Obligations.Read8ReturnsLastByte := by
  intro s a w ha hw hl
  obtain ⟨f, t, rx, hrun, hcompleted, hsent, hlast, hwdat, hresp⟩ :=
    exec_read8_completed ha (addressSent_of_width hw a) (by rw [addrBytes_length]; exact hl)
  have hdata : t.resp.data = rx := by
    rw [hresp]
    simp only [responseOf, respond, readResult, accept_addrW, hw, result, List.getD_cons_zero]
  exact ⟨f, t, hrun, hcompleted, hsent, by rw [hdata]; exact hlast, hwdat⟩

/-! ### Widths outside 1, 2, 3 (R141) -/

/-- In conduct `strict` an addressed frame faults after its opcode exchange. -/
theorem runPinOp_malformed {k : OpKind} {l : OpLatches} {frame : State → List Beat} {s : State} {op : Byte}
    {data : List Beat} (ha : Admitted s) (hc : s.params.conduct = .strict) (hw : widthOf s.addrW = none)
    (hl : engineLasts 1 s = true)
    (hframe : frame (accept (some k) l s) = opcBeat op :: addrBeats (accept (some k) l s) ++ data) :
    runPinOp k l frame s = .fault (.malformedWidth s.addrW) := by
  obtain ⟨rx, b, hx, -⟩ := engineLasts_succ (n := 0) ((framed_engineLasts 1 k l s).trans hl) op
  rw [runPinOp_admitted k l frame s ha, hframe, addrBeats_of_strict (s := accept (some k) l s) hw hc]
  simp only [opcBeat, List.cons_append, runBeats, hx, raiseMalformedWidth, accept_addrW]

/-- Settles O20: the address field of each of the three frames is the fault. -/
theorem malformedWidthFaults : Obligations.MalformedWidthFaults := by
  intro s a v n ha hc hw hl
  exact ⟨runPinOp_malformed (k := .write8) (frame := frameFAW8) ha hc hw hl rfl,
    runPinOp_malformed (k := .write) (frame := frameFAW) ha hc hw hl rfl,
    runPinOp_malformed (k := .read8) (frame := frameFAR) ha hc hw hl rfl⟩

/-- Settles O21: the free address bytes are one list for the three frames. -/
theorem malformedWidthHardwareCompletes : Obligations.MalformedWidthHardwareCompletes := by
  intro s a v count hb hc hl hw
  have ha : Admitted s := ⟨hb, .inr hc⟩
  have haddr := addressSent_of_hardware hw hc a
  refine ⟨_, exec_write8_completed v ha haddr (hl _), fun hcount => exec_write_completed ha haddr hcount (hl _), ?_⟩
  obtain ⟨f, t, rx, hrun, hcompleted, hsent, -, hwdat, -⟩ := exec_read8_completed ha haddr (hl _)
  exact ⟨f, t, hrun, hcompleted, hsent, hwdat⟩

end Sys2Proof.Machine

/-! ## Proofs of the family 42_memory_access: frames of the same bytes leave the same bus -/

namespace Sys2Proof.Machine

/-- The bus after the exchanges of `txs`, if all of them complete. -/
def sendBytes (p : Params) : List Byte → Bus → Option Bus
  | [], b => some b
  | tx :: txs, b => (xfer p tx b).bind fun r => sendBytes p txs r.2

theorem sendBytes_cons {p : Params} {tx rx : Byte} {b b' : Bus} (h : xfer p tx b = some (rx, b')) (txs : List Byte) :
    sendBytes p (tx :: txs) b = sendBytes p txs b' := by
  simp only [sendBytes, h, Option.bind_some]

/-- The rest of a frame ends with a bus that its bytes alone decide, wherever each byte comes from. -/
theorem runBeats_bus {beats : List Beat} {s : State} {txs : List Byte} (h : txsOf beats s.wdat = some txs)
    (hl : engineLasts beats.length s = true) :
    ∃ t, runBeats beats s = .next t ∧ (sendBytes s.params txs s.bus).map (csDeassert s.params.opc) = some t.bus := by
  induction beats generalizing s txs with
  | nil => cases h; exact ⟨finishOp s, rfl, by rw [(finishOp_out s).bus]; rfl⟩
  | cons beat beats ih =>
    cases beat with
    | malformed w => cases h
    | byte ph tx keep =>
      simp only [txsOf, Option.map_eq_some_iff] at h
      obtain ⟨rest, h, rfl⟩ := h
      obtain ⟨rx, b, hx, hn⟩ := engineLasts_succ hl tx
      simp only [runBeats, hx, sendBytes_cons hx]
      exact ih (s := beatDone ph keep rx b s) h (hn _ rfl rfl)
    | stream i =>
      cases hwdat : s.wdat with
      | nil => rw [hwdat] at h; cases h
      | cons tx more =>
        simp only [hwdat, txsOf, Option.map_eq_some_iff] at h
        obtain ⟨rest, h, rfl⟩ := h
        obtain ⟨rx, b, hx, hn⟩ := engineLasts_succ hl tx
        simp only [runBeats, hwdat, hx, sendBytes_cons hx]
        exact ih (s := beatDone (.data i) false rx b { s with wdat := more }) h (hn _ rfl rfl)

/-- The bytes of a host operation's frame decide the bus it leaves. -/
theorem exec_hostFrame_bus {i : Instr} {s : State} {txs : List Byte} (h : opBytes s i = some txs) (ha : Admitted s)
    (hst : streamFull s i = true) (hl : engineLasts txs.length s = true) :
    ∃ t, exec i s = .next t ∧ (sendBytes s.params txs (csAssert s.params.opc s.bus)).map (csDeassert s.params.opc) =
      some t.bus := by
  obtain ⟨k, l, frame, hexec, -, htxs, hlen, -, -⟩ := exec_hostFrame i s txs h hst
  rw [hexec, runPinOp_admitted k l frame s ha]
  exact runBeats_bus (s := framed k l s) htxs (by rw [framed_engineLasts, hlen]; exact hl)

/-- Settles O32: both operations send the same bytes. -/
theorem writeOfOneIsWrite8 : Obligations.WriteOfOneIsWrite8 := by
  intro s a v w ws ha hw hl hwdat
  have hlasts := engineLasts_addressed hl s.params.opc.write a v
  have hbytes : opBytes s (.write a 1) = some (s.params.opc.write :: addrBytes w a ++ [v]) := by
    rw [opBytes_write hw, hwdat]; rfl
  have hstream : streamFull s (.write a 1) = true := by simp [streamFull, hwdat]
  obtain ⟨t, ht, hbus⟩ := exec_hostFrame_bus (opBytes_write8 hw a v) ha rfl hlasts
  obtain ⟨u, hu, hbus'⟩ := exec_hostFrame_bus hbytes ha hstream hlasts
  exact ⟨t, u, ht, hu, Option.some.inj (hbus.symm.trans hbus')⟩

end Sys2Proof.Machine

/-! ## Proofs of the family 42_memory_access: a WRITE that ran out of data goes on -/

namespace Sys2Proof.Machine

theorem finishOp_waitAt (ph : Seq) (todo : List Beat) (s : State) : finishOp (waitAt ph todo s) = finishOp s := by
  cases hop : s.op with
  | none => simp [finishOp, respondOp, hop, waitAt, complete]
  | some k => cases k <;> simp [finishOp, respondOp, hop, waitAt, respond, complete, readResult, result]

/-- The rest of a frame does not depend on where the operation waited before it. -/
theorem runBeats_waitAt (beats : List Beat) (ph : Seq) (todo : List Beat) (s : State) :
    runBeats beats (waitAt ph todo s) = runBeats beats s := by
  induction beats generalizing ph s with
  | nil => exact congrArg Host.Outcome.next (finishOp_waitAt ph todo s)
  | cons beat beats ih =>
    cases beat with
    | malformed w => rfl
    | byte ph' tx keep =>
      simp only [runBeats, waitAt_params, waitAt_bus]
      cases xfer s.params tx s.bus with
      | none => rfl
      | some r => exact ih ph' (beatDone ph' keep r.1 r.2 s)
    | stream i =>
      simp only [runBeats, waitAt_params, waitAt_bus, waitAt_wdat]
      cases s.wdat with
      | nil => rfl
      | cons tx more =>
        dsimp only
        cases xfer s.params tx s.bus with
        | none => rfl
        | some r => exact ih (.data i) (beatDone (.data i) false r.1 r.2 { s with wdat := more })

/-- A frame whose stream is too short waits, and with the missing bytes `ys` on the stream it goes on as the frame that
had them from the start (R244). -/
theorem runBeats_stalled {beats : List Beat} {s : State} {ys txs : List Byte} (busy : s.busy = true)
    (hl : engineLasts beats.length s = true) (hshort : txsOf beats s.wdat = none)
    (hfull : txsOf beats (s.wdat ++ ys) = some txs) :
    ∃ t, runBeats beats s = .next t ∧ t.busy = true ∧
      resume { t with wdat := ys } = runBeats beats { s with wdat := s.wdat ++ ys } := by
  induction beats generalizing s txs with
  | nil => cases hshort
  | cons beat beats ih =>
    cases beat with
    | malformed w => cases hfull
    | byte ph tx keep =>
      simp only [txsOf, Option.map_eq_none_iff, Option.map_eq_some_iff] at hshort hfull
      obtain ⟨rest, hfull, -⟩ := hfull
      obtain ⟨rx, b, hx, hn⟩ := engineLasts_succ hl tx
      simp only [runBeats, hx]
      exact ih (s := beatDone ph keep rx b s) busy (hn _ rfl rfl) hshort hfull
    | stream i =>
      cases hwdat : s.wdat with
      | nil =>
        refine ⟨waitAt (.data i) (.stream i :: beats) s, by simp only [runBeats, hwdat], busy, ?_⟩
        exact runBeats_waitAt (.stream i :: beats) (.data i) (.stream i :: beats) { s with wdat := ys }
      | cons tx more =>
        simp only [hwdat, List.cons_append, txsOf, Option.map_eq_none_iff, Option.map_eq_some_iff] at hshort hfull
        obtain ⟨rest, hfull, -⟩ := hfull
        obtain ⟨rx, b, hx, hn⟩ := engineLasts_succ hl tx
        simp only [runBeats, hwdat, List.cons_append, hx]
        exact ih (s := beatDone (.data i) false rx b { s with wdat := more }) busy (hn _ rfl rfl) hshort hfull

theorem txsOf_streams_short {is : List Nat} {w : List Byte} (h : w.length < is.length) :
    txsOf (is.map Beat.stream) w = none := by
  induction is generalizing w with
  | nil => cases h
  | cons i is ih =>
    cases w with
    | nil => rfl
    | cons x w => simp only [List.map_cons, txsOf, ih (Nat.lt_of_succ_lt_succ h), Option.map_none]

theorem txsOf_frameFAW_short {s : State} {w : AddrWidth} {ws : List Byte} (hw : widthOf s.addrW = some w)
    (h : ws.length < s.lat.count.toNat) : txsOf (frameFAW s) ws = none := by
  have hdata := txsOf_streams_short (is := List.range s.lat.count.toNat) (by rw [List.length_range]; exact h)
  simp only [frameFAW, opcBeat, addrBeats_of_width hw, List.cons_append, txsOf, txsOf_addrPhases, hdata,
    Option.map_none]

/-- The step of a busy block to which nothing is presented. -/
theorem step_busy_nil {s : State} (hb : s.busy = true) (hin : s.inbox = []) : step s = resume s :=
  step_of_goOn (by simp only [fetch, hb, hin])

/-- WRITE waits for the rest of its buffer, and goes on as the WRITE that had all of it from the start (R144, R244). -/
theorem exec_write_stalled {s : State} {a : Addr} {count : Half} {w : AddrWidth} {ys : List Byte} (ha : Admitted s)
    (hw : widthOf s.addrW = some w) (hl : ∀ n, engineLasts n s = true) (hshort : s.wdat.length < count.toNat)
    (hcount : count.toNat ≤ (s.wdat ++ ys).length) :
    ∃ t, exec (.write a count) s = .next t ∧ t.busy = true ∧ t.inbox = s.inbox ∧
      resume { t with wdat := ys } = exec (.write a count) { s with wdat := s.wdat ++ ys } := by
  have admitted := runPinOp_admitted .write { s.lat with addr := a, count := count } frameFAW
  have hw' : widthOf (accept (some .write) { s.lat with addr := a, count := count } s).addrW = some w := hw
  obtain ⟨t, ht, hbusy, hresume⟩ := runBeats_stalled
    (s := framed .write { s.lat with addr := a, count := count } s) rfl
    ((framed_engineLasts _ _ _ s).trans (hl _)) (txsOf_frameFAW_short hw' hshort) (txsOf_frameFAW hw' _ hcount)
  exact ⟨t, (admitted s ha).trans ht, hbusy, (beatsEnd_inbox (runBeats_end _ _ _ ht) :),
    hresume.trans (admitted { s with wdat := s.wdat ++ ys } ha).symm⟩

/-- Settles O58: nothing is presented, so the step goes on with the WRITE, and the whole WRITE completes. -/
theorem stalledWriteResumes : Obligations.StalledWriteResumes := by
  rintro s a count w xs ys ha hw hl hin rfl hshort henough
  have hcount : count.toNat ≤ (s.wdat ++ ys).length := by rw [List.length_append]; exact henough
  obtain ⟨-, u, hu, -⟩ := exec_write_completed (s := { s with wdat := s.wdat ++ ys }) ha
    (addressSent_of_width hw a) hcount (hl _)
  obtain ⟨t, ht, hbusy, hinbox, hresume⟩ := exec_write_stalled (a := a) ha hw hl hshort hcount
  have hstep : step { t with wdat := ys } = resume { t with wdat := ys } :=
    step_busy_nil hbusy (hinbox.trans hin)
  exact ⟨t, u, ht, hbusy, hstep.trans (hresume.trans hu), hu⟩

end Sys2Proof.Machine

/-! ## Proofs of the family 43_identification_status -/

namespace Sys2Proof.Machine

/-- A pin-touching operation that takes nothing from the stream sends the bytes `txs` of its frame, receives as many, and
delivers its response from the answers it keeps (R81 to R83, R88). -/
theorem runPinOp_answered (k : OpKind) (l : OpLatches) (frame : State → List Beat) (s : State) (txs : List Byte)
    (ha : Admitted s) (hk : k ≠ .begin) (htxs : txsOf (frame (accept (some k) l s)) s.wdat = some txs)
    (hstream : streamAfter (frame (accept (some k) l s)) s.wdat = s.wdat) (hne : txs ≠ [])
    (hl : engineLasts (frame (accept (some k) l s)).length s = true) :
    ∃ rxs t, rxs.length = txs.length ∧ runPinOp k l frame s = .next t ∧ Completed s t (txs.zip rxs) ∧
      t.wdat = s.wdat ∧
      t.resp = responseOf k (accept (some k) l s) (keptOf (frame (accept (some k) l s)) rxs) := by
  obtain ⟨f, t, hrun, hsent, hcompleted, hwdat, hresp, -⟩ := runPinOp_completed k l frame s txs ha hk htxs hne hl
  have hlen : (f.map Prod.snd).length = txs.length := by simp only [← hsent, List.length_map]
  have hf : f = txs.zip (f.map Prod.snd) := List.zip_of_prod hsent rfl
  exact ⟨f.map Prod.snd, t, hlen, hrun, hf ▸ hcompleted, hwdat.trans hstream, hresp⟩

/-- The product ID is its two bytes joined, the first one high (R88). -/
theorem productId_eq_append (a2 a3 : Byte) : productId a2 a3 = (a2 ++ a3 : BitVec 16) := by
  rw [BitVec.append_def, BitVec.shiftLeftZeroExtend_eq, BitVec.setWidth'_eq]
  rfl

/-- Settles O29: of the four answers kept, the response takes the first, the third and the fourth. -/
theorem getDeviceIdShuffle : Obligations.GetDeviceIdShuffle := by
  intro s ha hl
  obtain ⟨rxs, t, hlen, hrun, hcompleted, hwdat, hresp⟩ := runPinOp_answered .getDeviceId s.lat
    (fun s1 => frameFID s1.params) s (probeBytes s.params) ha nofun rfl rfl nofun hl
  match rxs, hlen with
  | [r, a0, a1, a2, a3], _ =>
    have hmfg : t.resp.mfg = a0 := by rw [hresp]; rfl
    have hprod : t.resp.prod = productId a2 a3 := by rw [hresp]; rfl
    exact ⟨r, a0, a1, a2, a3, t, hrun, hcompleted, hmfg, hprod.trans (productId_eq_append a2 a3), hwdat⟩

/-- Settles O30: the one answer kept is the dummy's. -/
theorem getStatusReturnsByte : Obligations.GetStatusReturnsByte := by
  intro s ha hl
  obtain ⟨rxs, t, hlen, hrun, hcompleted, hwdat, hresp⟩ := runPinOp_answered .getStatus s.lat
    (fun s1 => frameF1R s1.params s1.params.opc.rdsr) s [s.params.opc.rdsr, s.params.dummy] ha nofun rfl rfl nofun hl
  obtain ⟨r, v, rfl⟩ := List.length_eq_two.1 hlen
  have hdata : t.resp.data = v := by rw [hresp]; rfl
  exact ⟨r, v, t, hrun, hcompleted, hdata, hwdat⟩

/-- Settles O31: the byte sent after the opcode is the data latch. -/
theorem setStatusEmitsFrame : Obligations.SetStatusEmitsFrame := by
  intro s v ha hl
  obtain ⟨rxs, t, hlen, hrun, hcompleted, hwdat, -⟩ := runPinOp_answered .setStatus { s.lat with data := v }
    (fun s1 => frameF1W s1.params.opc.wrsr s1.lat.data) s [s.params.opc.wrsr, v] ha nofun rfl rfl nofun hl
  obtain ⟨r, r', rfl⟩ := List.length_eq_two.1 hlen
  exact ⟨r, r', t, hrun, hcompleted, hwdat⟩

end Sys2Proof.Machine

/-! ## Proofs of the family 44_transfer_primitive: the software exchange -/

namespace Sys2Proof.Machine

/-- Settles O39: what a software exchange does to the bus does not depend on the block around it, so the law of `Xfer`
for a block of the software form with the opcodes `o` says it. -/
theorem softwareExchangeSequence : Obligations.SoftwareExchangeSequence := by
  intro o tx b
  obtain ⟨out, -⟩ := xferSW_out { paramsOf (.sw 0 1 2 3) with opc := o } rfl tx b
  obtain ⟨hsck, hmosi, -⟩ := out.sw rfl
  exact ⟨out.trace, rfl, hsck, hmosi⟩

end Sys2Proof.Machine

/-! ## Proofs of the family 44_transfer_primitive: how many events an operation has -/

namespace Sys2Proof.Machine

/-! ### The events of one exchange -/

theorem exchangeEvents_count_cs (m : Mode) (x : Byte × Byte) (v : Bool) :
    (exchangeEvents m x).count (.pinWrite .cs v) = 0 := by
  cases m <;> simp [exchangeEvents, byteEvents, bitOrder]

theorem exchangeEvents_sw_length (x : Byte × Byte) : (exchangeEvents .sw x).length = 32 := rfl

theorem exchangeEvents_hw_length (x : Byte × Byte) : (exchangeEvents .hw x).length = 1 := rfl

theorem exchangeEvents_sw_sckHigh (x : Byte × Byte) : (exchangeEvents .sw x).count (.pinWrite .sck true) = 8 := by
  simp [exchangeEvents, byteEvents, bitOrder]

theorem exchangeEvents_hw_sckHigh (x : Byte × Byte) : (exchangeEvents .hw x).count (.pinWrite .sck true) = 0 := by
  simp [exchangeEvents]

/-! ### The events of one frame -/

theorem frameEvents_count_cs (m : Mode) (f : List (Byte × Byte)) (v : Bool) :
    (frameEvents m f).count (.pinWrite .cs v) = 1 := by
  have hexchanges : (f.flatMap (exchangeEvents m)).count (.pinWrite .cs v) = 0 := by
    simp [List.count_flatMap, Function.comp_def, exchangeEvents_count_cs]
  cases v <;> simp [frameEvents, hexchanges]

/-- A frame whose exchanges have `n` events each. -/
theorem frameEvents_length {m : Mode} {n : Nat} (h : ∀ x, (exchangeEvents m x).length = n) (f : List (Byte × Byte)) :
    (frameEvents m f).length = 2 + n * f.length := by
  have hexchanges : (f.flatMap (exchangeEvents m)).length = n * f.length := by
    simp [List.length_flatMap, h, Nat.mul_comm]
  simp only [frameEvents, List.length_append, List.length_cons, List.length_nil, hexchanges]
  omega

/-- A frame whose exchanges have `n` rising edges of SCK each. -/
theorem frameEvents_sckHigh {m : Mode} {n : Nat} (h : ∀ x, (exchangeEvents m x).count (.pinWrite .sck true) = n)
    (f : List (Byte × Byte)) : sckHighWrites (frameEvents m f) = n * f.length := by
  simp [sckHighWrites, frameEvents, List.count_flatMap, Function.comp_def, h, Nat.mul_comm]

theorem sckHighWrites_append (es es' : List Event) :
    sckHighWrites (es ++ es') = sckHighWrites es + sckHighWrites es' := List.count_append

/-! ### BEGIN's configuration events -/

theorem configEvents_count_cs (p : Params) (v : Bool) :
    (configEvents p).count (.pinWrite .cs v) = if v then 1 else 0 := by
  cases hm : p.mode <;> cases v <;> simp [configEvents, hm]

theorem configEvents_sckHigh (p : Params) : sckHighWrites (configEvents p) = 0 := by
  cases hm : p.mode <;> simp [configEvents, hm, sckHighWrites]

theorem configEvents_sw_length {p : Params} (hm : p.mode = .sw) : (configEvents p).length = 5 := by
  simp [configEvents, hm]

theorem configEvents_hw_length {p : Params} (hm : p.mode = .hw) : (configEvents p).length = 3 := by
  simp [configEvents, hm]

/-! ### The events of an operation -/

theorem execBegin_events {s : State} (hb : s.busy = false) (hl : engineLasts 5 s = true) :
    ∃ f t, exec .begin s = .next t ∧ f.length = 5 ∧
      t.bus.trace = s.bus.trace ++ (configEvents s.params ++ frameEvents s.params.mode f) := by
  obtain ⟨f, s', hrun, out⟩ := execBegin_completed hb hl
  exact ⟨f, finishOp s', hrun, by rw [← List.length_map (f := Prod.fst), out.bytes]; rfl,
    by rw [out.trace, List.append_assoc]⟩

theorem exec_hostFrame_events {i : Instr} {s : State} {txs : List Byte} (h : opBytes s i = some txs) (ha : Admitted s)
    (hst : streamFull s i = true) (hl : engineLasts txs.length s = true) :
    ∃ f t, exec i s = .next t ∧ f.length = txs.length ∧
      t.bus.trace = s.bus.trace ++ frameEvents s.params.mode f := by
  obtain ⟨f, t, hrun, hsent, -, -, -, -, -, -, htrace⟩ := exec_hostFrame_completed h ha hst hl
  exact ⟨f, t, hrun, by rw [← hsent, List.length_map], htrace⟩

/-- Settles O34: the counts of the frame's events, and for BEGIN those of its configuration on top. -/
theorem eventCounts : Obligations.EventCounts := by
  refine ⟨fun s hb hl => ?_, fun i s txs h ha hst hl => ?_⟩
  · obtain ⟨f, t, hrun, hf, htrace⟩ := execBegin_events hb hl
    refine ⟨t, _, hrun, htrace, ?_, ?_, fun hm => ⟨?_, ?_⟩, fun hm => ⟨?_, ?_⟩⟩
    · rw [List.count_append, configEvents_count_cs, frameEvents_count_cs]; rfl
    · rw [List.count_append, configEvents_count_cs, frameEvents_count_cs]; rfl
    · rw [List.length_append, configEvents_sw_length hm, hm, frameEvents_length exchangeEvents_sw_length, hf]
    · rw [sckHighWrites_append, configEvents_sckHigh, hm, frameEvents_sckHigh exchangeEvents_sw_sckHigh, hf]
    · rw [List.length_append, configEvents_hw_length hm, hm, frameEvents_length exchangeEvents_hw_length, hf]
    · rw [sckHighWrites_append, configEvents_sckHigh, hm, frameEvents_sckHigh exchangeEvents_hw_sckHigh, hf]
  · obtain ⟨f, t, hrun, hf, htrace⟩ := exec_hostFrame_events h ha hst hl
    refine ⟨t, _, hrun, htrace, frameEvents_count_cs _ f false, frameEvents_count_cs _ f true,
      fun hm => ⟨?_, ?_⟩, fun hm => ⟨?_, ?_⟩⟩
    · rw [hm, frameEvents_length exchangeEvents_sw_length, hf]
    · rw [hm, frameEvents_sckHigh exchangeEvents_sw_sckHigh, hf]
    · rw [hm, frameEvents_length exchangeEvents_hw_length, hf, Nat.one_mul]
    · rw [hm, frameEvents_sckHigh exchangeEvents_hw_sckHigh, Nat.zero_mul]

end Sys2Proof.Machine

/-! ## Proofs of the family 44_transfer_primitive: edges -/

namespace Sys2Proof.Machine

/-- An exchange keeps to the contract from any level of SCK; it leaves SCK high in software mode, and as it was in
hardware mode (R189, R190). -/
theorem edgesOk_exchange (m : Mode) (x : Byte × Byte) (sck : Bool) {es : List Event}
    (h : ∀ sck', edgesOk sck' es = true) : edgesOk sck (exchangeEvents m x ++ es) = true := by
  cases m with
  | sw => exact h true
  | hw => exact h sck

theorem edgesOk_frameEvents (m : Mode) (f : List (Byte × Byte)) (sck : Bool) :
    edgesOk sck (frameEvents m f) = true := by
  have hrest : ∀ sck', edgesOk sck' (f.flatMap (exchangeEvents m) ++ [.pinWrite .cs true]) = true := by
    induction f with
    | nil => exact fun _ => rfl
    | cons x f ih =>
      intro sck'
      rw [List.flatMap_cons, List.append_assoc]
      exact edgesOk_exchange m x sck' ih
  exact hrest sck

/-- BEGIN's configuration neither moves MOSI nor samples MISO nor moves SCK (R112). -/
theorem edgesOk_configEvents (p : Params) (sck : Bool) (es : List Event) :
    edgesOk sck (configEvents p ++ es) = edgesOk sck es := by
  cases hm : p.mode <;> simp only [configEvents, hm] <;> rfl

/-- Settles O35: exchange by exchange along the frame. -/
theorem edgeContract : Obligations.EdgeContract := by
  refine ⟨fun s sck hb hl => ?_, fun i s txs sck h ha hst hl => ?_⟩
  · obtain ⟨f, t, hrun, -, htrace⟩ := execBegin_events hb hl
    exact ⟨t, _, hrun, htrace, (edgesOk_configEvents _ sck _).trans (edgesOk_frameEvents s.params.mode f sck)⟩
  · obtain ⟨f, t, hrun, -, htrace⟩ := exec_hostFrame_events h ha hst hl
    exact ⟨t, _, hrun, htrace, edgesOk_frameEvents s.params.mode f sck⟩

end Sys2Proof.Machine

/-! ## Proofs of the family 44_transfer_primitive: loopback -/

namespace Sys2Proof.Machine

/-! ### An exchange with MISO wired to MOSI -/

/-- A driven MOSI is the level on MISO (R194). -/
theorem misoLevel_loopback {b : Bus} (hw : b.wiring = .loopback) (d : Bool) : misoLevel (some d) b = (d, b) := by
  simp only [misoLevel, hw]

theorem swBit_loopback (o : Opcodes) {b : Bus} (i : Nat) (hw : b.wiring = .loopback) (hmosi : b.pins.mosi.dir = .out)
    (hmiso : b.pins.miso.dir = .inp) :
    (swBit o b i).engine.shRx = shiftIn b.engine.shRx (b.engine.shTx.getLsbD i) := by
  obtain ⟨b3, hb3, hrx, -⟩ := swBit_eq o b i
  obtain ⟨hread, -⟩ := pinRead_sample (b := b3) (d := b.engine.shTx.getLsbD i) (by simp [hb3, hmiso])
    (by simp [hb3, wire, hmosi])
  rw [hrx, hread, misoLevel_loopback (by simp [hb3, hw])]

theorem hwBit_loopback (o : Opcodes) (tx : Byte) {acc : Byte × Bus} (i : Nat) (hw : acc.2.wiring = .loopback) :
    (hwBit o tx acc i).1 = shiftIn acc.1 (tx.getLsbD i) := by
  rw [hwBit, misoLevel_loopback (by simp [hw])]

/-- Bits of the byte `tx` shifted in after `rx`. -/
def shiftBits (tx : Byte) (l : List Nat) (rx : Byte) : Byte := l.foldl (fun r i => shiftIn r (tx.getLsbD i)) rx

/-- The bits of a byte in the order of R51 make the byte. -/
theorem shiftBits_bitOrder (tx : Byte) : shiftBits tx bitOrder 0 = tx := shiftIn_bits tx

theorem swBits_loopback (o : Opcodes) {tx : Byte} (l : List Nat) {b : Bus} (hw : b.wiring = .loopback)
    (hmosi : b.pins.mosi.dir = .out) (hmiso : b.pins.miso.dir = .inp) (ht : b.engine.shTx = tx) :
    (l.foldl (swBit o) b).engine.shRx = shiftBits tx l b.engine.shRx := by
  induction l generalizing b with
  | nil => rfl
  | cons i l ih =>
    obtain ⟨r, out⟩ := swBit_out o b i
    rw [List.foldl_cons, ih (out.wiring.trans hw) (by rw [out.pins]; exact hmosi) (by rw [out.pins]; exact hmiso)
      (out.shTx.trans ht), swBit_loopback o i hw hmosi hmiso, ht]
    rfl

theorem hwBits_loopback (o : Opcodes) (tx : Byte) (l : List Nat) {acc : Byte × Bus} (hw : acc.2.wiring = .loopback) :
    (l.foldl (hwBit o tx) acc).1 = shiftBits tx l acc.1 := by
  induction l generalizing acc with
  | nil => rfl
  | cons i l ih =>
    rw [List.foldl_cons, ih ((hwBit_same o tx acc i).wiring.trans hw), hwBit_loopback o tx i hw]
    rfl

/-- On a configured bus in loopback an exchange of either strategy that completes returns its byte. -/
theorem xfer_loopback {p : Params} {tx rx : Byte} {b b' : Bus} (hw : b.wiring = .loopback)
    (hc : pinsConfigured p b = true) (hx : xfer p tx b = some (rx, b')) : rx = tx := by
  cases hm : p.mode with
  | sw =>
    simp only [pinsConfigured, hm, Bool.and_eq_true, decide_eq_true_eq] at hc
    obtain ⟨-, ⟨-, hmosi⟩, hmiso⟩ := hc
    obtain ⟨b1, hx1, -⟩ := xfer_sw_turns hm tx b
    obtain ⟨rfl, -⟩ := Prod.mk.inj (Option.some.inj (hx.symm.trans hx1))
    exact (swBits_loopback p.opc bitOrder (b := { b with engine := { shTx := tx, shRx := 0, bitCnt := 7 } })
      hw hmosi hmiso rfl).trans (shiftBits_bitOrder tx)
  | hw =>
    have hb : b.hwx.budget ≠ some 0 := fun hb => by simp [(xfer_hw_none_iff p hm tx b).2 hb] at hx
    obtain ⟨b1, hx1, -⟩ := xfer_hw_pulses tx hm hc hb
    obtain ⟨rfl, -⟩ := Prod.mk.inj (Option.some.inj (hx.symm.trans hx1))
    exact (hwBits_loopback p.opc tx bitOrder (acc := (0, { b with hwx := hwxDone b.hwx })) hw).trans
      (shiftBits_bitOrder tx)

/-- An exchange completes unless the peripheral completes no more (R195). -/
theorem xfer_completes (p : Params) (tx : Byte) {b : Bus} (hb : b.hwx.budget ≠ some 0) :
    ∃ rx b', xfer p tx b = some (rx, b') := by
  cases hm : p.mode with
  | sw => exact xfer_sw_some p hm tx b
  | hw =>
    cases hx : xfer p tx b with
    | none => exact absurd ((xfer_hw_none_iff p hm tx b).1 hx) hb
    | some r => exact ⟨r.1, r.2, rfl⟩

/-! ### A frame with MISO wired to MOSI -/

/-- A configured bus in loopback whose open frame has an echo of every byte sent. -/
structure Echoing (p : Params) (b : Bus) : Prop where
  wiring : b.wiring = .loopback
  configured : pinsConfigured p b = true
  echoes : ∀ x ∈ b.frame, x.2 = x.1

theorem Echoing.csAssert {p : Params} {b : Bus} (hw : b.wiring = .loopback) (hc : pinsConfigured p b = true) :
    Echoing p (csAssert p.opc b) := by
  obtain ⟨down, hframe, -⟩ := csAssert_out p.opc b
  exact ⟨down.wiring.trans hw, (down.pinsConfigured p).trans hc, by simp [hframe]⟩

theorem Echoing.xfer {p : Params} {tx rx : Byte} {b b' : Bus} (h : Echoing p b) (hx : xfer p tx b = some (rx, b')) :
    Echoing p b' := by
  obtain ⟨out, hframe⟩ := xfer_out p tx rx b b' hx
  have hrx : rx = tx := xfer_loopback h.wiring h.configured hx
  refine ⟨out.wiring.trans h.wiring, ?_, ?_⟩
  · rw [pinsConfigured_congr p (by rw [out.cs]) out.sckDir out.mosiDir (by rw [out.miso]) out.settings]
    exact h.configured
  · simpa [hframe, or_imp, forall_and, hrx] using h.echoes

theorem Echoing.sendBytes {p : Params} {txs : List Byte} {b b' : Bus} (h : Echoing p b)
    (hs : sendBytes p txs b = some b') : Echoing p b' := by
  induction txs generalizing b with
  | nil => cases hs; exact h
  | cons tx txs ih =>
    obtain ⟨⟨rx, b1⟩, hx, hrest⟩ := Option.bind_eq_some_iff.1 hs
    exact ih (h.xfer hx) hrest

/-- The frame that a host operation completes in loopback is all echoes. -/
theorem exec_hostFrame_loopback {i : Instr} {s t : State} {txs : List Byte} {f : List (Byte × Byte)}
    (h : opBytes s i = some txs) (ha : Admitted s) (hst : streamFull s i = true) (hl : engineLasts txs.length s = true)
    (hw : s.bus.wiring = .loopback) (hc : pinsConfigured s.params s.bus = true) (hrun : exec i s = .next t)
    (hf : t.bus.frames = s.bus.frames ++ [f]) : ∀ x ∈ f, x.2 = x.1 := by
  obtain ⟨u, hu, hbus⟩ := exec_hostFrame_bus h ha hst hl
  obtain rfl : t = u := Host.Outcome.next.inj (hrun.symm.trans hu)
  obtain ⟨b, hsent, hb⟩ := Option.map_eq_some_iff.1 hbus
  obtain ⟨-, -, hframes⟩ := csDeassert_out s.params.opc b
  obtain ⟨-, hopen⟩ := List.append_inj' (hframes.symm.trans ((congrArg Bus.frames hb).trans hf)) rfl
  rw [← List.singleton_inj.1 hopen]
  exact (Echoing.sendBytes (.csAssert hw hc) hsent).echoes

/-- An engine that lasts for more exchanges lasts for fewer. -/
theorem engineLasts_mono {m n : Nat} {s : State} (hmn : m ≤ n) (h : engineLasts n s = true) :
    engineLasts m s = true := by
  unfold engineLasts at h ⊢
  split at h
  · rfl
  · rfl
  · exact decide_eq_true (hmn.trans (of_decide_eq_true h))

/-- Settles O41: each result is received with a dummy byte, so it is the dummy byte. -/
theorem loopbackEchoes : Obligations.LoopbackEchoes := by
  refine ⟨fun p tx b hw hc hb => ?_, fun s a w hw hr ha hwidth hl => ⟨?_, ?_⟩⟩
  · obtain ⟨rx, b', hx⟩ := xfer_completes p tx hb
    obtain rfl := xfer_loopback hw hc hx
    exact ⟨b', hx⟩
  · have hl8 : engineLasts (2 + w.bytes) s = true := engineLasts_mono (by omega) hl
    obtain ⟨f, t, hrun, ⟨-, -, -, -, -, hframes, -⟩, -, hlast, -⟩ := read8ReturnsLastByte s a w ha hwidth hl8
    have echo := exec_hostFrame_loopback (opBytes_read8 hwidth a) ha rfl (engineLasts_addressed hl8 _ a _) hw hr.1 hrun
      hframes
    exact ⟨t, hrun, echo _ (List.mem_of_getLast? hlast)⟩
  · have hl5 : engineLasts 5 s = true := engineLasts_mono (by omega) hl
    obtain ⟨r, a0, a1, a2, a3, t, hrun, ⟨-, -, -, -, -, hframes, -⟩, hmfg, hprod, -⟩ := getDeviceIdShuffle s ha hl5
    have echo := exec_hostFrame_loopback (i := .getDeviceId) rfl ha rfl hl5 hw hr.1 hrun hframes
    simp only [List.forall_mem_cons] at echo
    obtain ⟨-, h0, -, h2, h3, -⟩ := echo
    exact ⟨t, hrun, hmfg.trans h0, by rw [hprod, h2, h3]⟩

end Sys2Proof.Machine

/-! ## Proofs of the family 60_exceptions -/

namespace Sys2Proof.Machine

/-! ### Refusal before BEGIN -/

/-- The eight pin-touching operations are one frame behind one acceptance (R213). -/
theorem exec_eq_runPinOp {i : Instr} {k : OpKind} (h : pinOpOf i = some k) (s : State) :
    ∃ l frame, exec i s = runPinOp k l frame s := by
  cases i <;> cases h <;> exact ⟨_, _, by simp only [exec]; rfl⟩

/-- The frame, and the address field in it, comes after acceptance (R215). -/
theorem runPinOp_uninitialised {s : State} (hb : s.busy = false) (hi : s.init = false)
    (hc : s.params.conduct = .strict) (k : OpKind) (l : OpLatches) (frame : State → List Beat) :
    runPinOp k l frame s = .refused (.notInitialised k) := by
  simp only [runPinOp, atAcceptance, hb, hi, Bool.false_eq_true, if_false, refuseOr_strict hc]

/-- Settles O18: the refusal is made at acceptance, where `ADDR_W` is not read. -/
theorem notInitialisedTakesPrecedence : Obligations.NotInitialisedTakesPrecedence := by
  intro i k s hk hb hi hc
  obtain ⟨l, frame, hexec⟩ := exec_eq_runPinOp hk s
  exact hexec.trans (runPinOp_uninitialised hb hi hc k l frame)

/-! ### A hang -/

/-- While only commands of the host are presented, a busy block goes on with its operation (R26). -/
theorem step_busy_commands {s : State} (hb : s.busy = true)
    (hin : ∀ e ∈ s.inbox, e.agent = .primary ∧ ∃ c, e.enc = .command c) : step s = resume s := by
  cases hinbox : s.inbox with
  | nil => exact step_busy_nil hb hinbox
  | cons e rest =>
    obtain ⟨hagent, c, henc⟩ := hin e (by rw [hinbox]; exact List.mem_cons_self)
    obtain ⟨agent, enc⟩ := e
    obtain rfl : agent = .primary := hagent
    obtain rfl : enc = .command c := henc
    exact step_of_goOn ((fetch_busy_cons hb hinbox).trans (fetchBusy_command s .primary c rest (.inl rfl)))

/-- A peripheral that completes no further exchange leaves the next one started and pending (R195, R216). -/
theorem resume_hung {s : State} {ph : Seq} {tx : Byte} {keep : Bool} {rest : List Beat} (hm : s.params.mode = .hw)
    (hbudget : s.bus.hwx.budget = some 0) (htodo : s.todo = .byte ph tx keep :: rest) :
    resume s = .next (waitAt ph s.todo (startedOnly tx s)) := by
  have hx : xfer s.params tx s.bus = none := (xfer_hw_none_iff s.params hm tx s.bus).2 hbudget
  simp only [resume, htodo, runBeats, hx]

/-- Settles O37: the step goes on with the operation, whose exchange is started once more and not done. -/
theorem hangIsPermanent : Obligations.HangIsPermanent := by
  intro s ph tx keep rest hb hm hbudget htodo hin
  exact ⟨waitAt ph s.todo (startedOnly tx s), (step_busy_commands hb hin).trans (resume_hung hm hbudget htodo),
    hb, rfl, rfl, rfl, hbudget, rfl, rfl, rfl⟩

end Sys2Proof.Machine

/-! ## Proofs of the family 70_reset_and_hazards: a WRITE that runs out of data -/

namespace Sys2Proof.Machine

/-- The first exchanges of a frame complete, and the rest of it goes on from the state they leave: the open frame holds
their bytes, and the stream what they did not take. -/
theorem runBeats_append {beats : List Beat} {s : State} {txs : List Byte} (h : txsOf beats s.wdat = some txs)
    (hl : engineLasts beats.length s = true) (rest : List Beat) :
    ∃ s', runBeats (beats ++ rest) s = runBeats rest s' ∧ Progress s s' ∧
      s'.bus.frame.map Prod.fst = s.bus.frame.map Prod.fst ++ txs ∧ s'.wdat = streamAfter beats s.wdat := by
  induction beats generalizing s txs with
  | nil => cases h; exact ⟨s, rfl, .refl s, (List.append_nil _).symm, rfl⟩
  | cons beat beats ih =>
    cases beat with
    | malformed w => cases h
    | byte ph tx keep =>
      simp only [txsOf, Option.map_eq_some_iff] at h
      obtain ⟨txs, h, rfl⟩ := h
      obtain ⟨rx, b, hx, hn⟩ := engineLasts_succ hl tx
      obtain ⟨out, hpair⟩ := xfer_out s.params tx rx s.bus b hx
      obtain ⟨s', hrun, progress, hframe, hwdat⟩ := ih (s := beatDone ph keep rx b s) h (hn _ rfl rfl)
      refine ⟨s', ?_, (progress_beat out ph keep s.wdat).trans progress, ?_, hwdat⟩
      · simpa only [List.cons_append, runBeats, hx] using hrun
      · simpa [hpair] using hframe
    | stream i =>
      cases hw : s.wdat with
      | nil => rw [hw] at h; cases h
      | cons tx more =>
        simp only [hw, txsOf, Option.map_eq_some_iff] at h
        obtain ⟨txs, h, rfl⟩ := h
        obtain ⟨rx, b, hx, hn⟩ := engineLasts_succ hl tx
        obtain ⟨out, hpair⟩ := xfer_out s.params tx rx s.bus b hx
        obtain ⟨s', hrun, progress, hframe, hwdat⟩ :=
          ih (s := beatDone (.data i) false rx b { s with wdat := more }) h (hn _ rfl rfl)
        refine ⟨s', ?_, (progress_beat out (.data i) false more).trans progress, ?_, hwdat⟩
        · simpa only [List.cons_append, runBeats, hw, hx] using hrun
        · simpa [hpair] using hframe

/-! ### The exchanges of a WRITE before data byte number `n` -/

/-- The data exchanges of WRITE: those before number `n`, and number `n` with those after it. -/
theorem range_streams_split {n count : Nat} (h : n < count) :
    ∃ rest, (List.range count).map Beat.stream = (List.range n).map Beat.stream ++ .stream n :: rest := by
  obtain ⟨m, rfl⟩ := Nat.exists_eq_add_of_lt h
  exact ⟨_, by
    rw [Nat.add_assoc, List.range_add, List.range_succ_eq_map, List.map_append, List.map_cons, List.map_cons]; rfl⟩

/-- The exchanges of a WRITE before its data byte number `n`: the opcode, the address bytes `xs` and `n` bytes of the
stream (R84, R144). -/
def writeBeats (op : Byte) (xs : List Byte) (n : Nat) : List Beat :=
  opcBeat op :: addrPhases xs ++ (List.range n).map Beat.stream

theorem frameFAW_split {s : State} {w : AddrWidth} {n : Nat} (hw : widthOf s.addrW = some w)
    (h : n < s.lat.count.toNat) :
    ∃ rest, frameFAW s = writeBeats s.params.opc.write (addrBytes w s.lat.addr) n ++ .stream n :: rest := by
  obtain ⟨rest, hsplit⟩ := range_streams_split h
  exact ⟨rest, by rw [frameFAW, addrBeats_of_width hw, hsplit, writeBeats, List.append_assoc]⟩

theorem writeBeats_length (op : Byte) (xs : List Byte) (n : Nat) : (writeBeats op xs n).length = 1 + xs.length + n := by
  simp only [writeBeats, List.length_append, List.length_cons, addrPhases_length, List.length_map, List.length_range,
    Nat.add_comm xs.length]

theorem txsOf_writeBeats_all (op : Byte) (xs ws : List Byte) :
    txsOf (writeBeats op xs ws.length) ws = some (op :: xs ++ ws) := by
  have hdata := txsOf_streams (List.range ws.length) ws List.length_range.le
  simp only [writeBeats, opcBeat, List.cons_append, txsOf, txsOf_addrPhases, hdata, List.length_range,
    List.take_length, Option.map_some]

theorem streamAfter_writeBeats_all (op : Byte) (xs ws : List Byte) :
    streamAfter (writeBeats op xs ws.length) ws = [] := by
  simp only [writeBeats, opcBeat, List.cons_append, streamAfter, streamAfter_addrPhases, streamAfter_streams,
    List.length_range, List.drop_length]

/-! ### The frame stays open -/

/-- A data exchange of WRITE with nothing on the stream waits in its phase (R36, R244). -/
theorem runBeats_stream_nil {s : State} (h : s.wdat = []) (i : Nat) (rest : List Beat) :
    runBeats (.stream i :: rest) s = .next (waitAt (.data i) (.stream i :: rest) s) := by
  simp only [runBeats, h]

/-- From `s`, inside a frame, to `t`, where the same frame has sent the bytes `sent` and waits with an empty stream for
its data byte number `n` (R36, R244). -/
structure WaitsForData (n : Nat) (sent : List Byte) (s t : State) : Prop where
  busy : t.busy = true
  seq : t.seq = .data n
  wdat : t.wdat = []
  ready : wdatReady t = true
  respValid : t.respValid = s.respValid
  cs : t.bus.pins.cs = s.bus.pins.cs
  frames : t.bus.frames = s.bus.frames
  frame : t.bus.frame.map Prod.fst = s.bus.frame.map Prod.fst ++ sent

/-- A frame whose first exchanges empty the stream waits at its next data exchange. -/
theorem runBeats_waitsForData {beats : List Beat} {s : State} {sent : List Byte} (busy : s.busy = true)
    (h : txsOf beats s.wdat = some sent) (hempty : streamAfter beats s.wdat = [])
    (hl : engineLasts beats.length s = true) (n : Nat) (rest : List Beat) :
    ∃ t, runBeats (beats ++ .stream n :: rest) s = .next t ∧ WaitsForData n sent s t := by
  obtain ⟨s', hrun, progress, hframe, hwdat⟩ := runBeats_append h hl (.stream n :: rest)
  have hbusy : s'.busy = true := progress.busy.trans busy
  exact ⟨_, hrun.trans (runBeats_stream_nil (hwdat.trans hempty) n rest), hbusy, rfl, hwdat.trans hempty, hbusy,
    progress.respValid, progress.cs, progress.frames, hframe⟩

/-- Settles O38: the exchanges before data byte number `s.wdat.length` send what was offered and empty the stream. -/
theorem writeWaitsForData : Obligations.WriteWaitsForData := by
  intro s a count w ha hw hshort hl
  obtain ⟨down, hframe, hframes⟩ := csAssert_out s.params.opc s.bus
  obtain ⟨rest, hsplit⟩ :=
    frameFAW_split (s := accept (some .write) { s.lat with addr := a, count := count } s) hw hshort
  have hlasts : engineLasts (writeBeats s.params.opc.write (addrBytes w a) s.wdat.length).length
      (framed .write { s.lat with addr := a, count := count } s) = true := by
    rw [framed_engineLasts, writeBeats_length, addrBytes_length]
    exact engineLasts_mono (by omega) hl
  obtain ⟨t, hrun, waits⟩ := runBeats_waitsForData (s := framed .write { s.lat with addr := a, count := count } s) rfl
    (txsOf_writeBeats_all _ _ s.wdat) (streamAfter_writeBeats_all _ _ s.wdat) hlasts s.wdat.length rest
  refine ⟨t, ?_, waits.busy, waits.seq, waits.wdat, waits.ready, waits.respValid, ?_, waits.frames.trans hframes, ?_⟩
  · exact (runPinOp_admitted .write _ frameFAW s ha).trans ((congrArg (runBeats · _) hsplit).trans hrun)
  · rw [waits.cs]; simp [framed, down.pins]
  · rw [waits.frame]; exact congrArg (List.map Prod.fst · ++ _) hframe

end Sys2Proof.Machine

/-! ## Proofs of the family 70_reset_and_hazards: construction and `rst` -/

namespace Sys2Proof.Machine

theorem construct_resetColumn (p : Params) (w : Wiring) (c : Chip) (budget : Option Nat) :
    ResetColumn (construct p w c budget) :=
  ⟨rfl, rfl, rfl, rfl, rfl, rfl, rfl, rfl, rfl, rfl, rfl, rfl, rfl⟩

/-- The input `rst` leaves the column of a construction around the same device (R230). -/
theorem resetBlock_resetColumn (s : State) : ResetColumn (resetBlock s) :=
  construct_resetColumn s.params s.bus.wiring s.bus.chip s.bus.hwx.budget

/-- An idle block takes `rst` at once, in both conducts (R230). -/
theorem step_rst_idle {s : State} {g : Agent} {rest : List Entry} (hb : s.busy = false)
    (hin : s.inbox = { agent := g, enc := .rst } :: rest) : step s = .next (resetBlock { s with inbox := rest }) := by
  have hfetch : fetch s = .skip (resetBlock { s with inbox := rest }) := fetch_idle_cons hb hin
  simp only [step, hfetch]

/-- `rst` waits while `BUSY = 1`, whoever presents it, in both conducts (R232, D8). -/
theorem fetchBusy_rst (s : State) (g : Agent) (rest : List Entry) :
    fetchBusy { agent := g, enc := .rst } rest s = .goOn s := by
  cases hc : s.params.conduct <;> simp only [fetchBusy, hc]

theorem step_rst_busy {s : State} {g : Agent} {rest : List Entry} (hb : s.busy = true)
    (hin : s.inbox = { agent := g, enc := .rst } :: rest) : step s = resume s :=
  step_of_goOn ((fetch_busy_cons hb hin).trans (fetchBusy_rst s g rest))

/-- Settles O6: construction and the idle block's `rst` leave one column; a busy block goes on with its frame, over
which the inputs stay. -/
theorem constructionValues : Obligations.ConstructionValues := by
  refine ⟨fun _ _ _ _ _ _ _ => ⟨rfl, rfl, rfl, rfl⟩,
    fun p w c budget => ⟨rfl, construct_resetColumn p w c budget, rfl, rfl, rfl⟩,
    fun s g rest hin => ⟨fun hb => ?_, fun hb => ?_⟩⟩
  · exact ⟨_, step_rst_idle hb hin, resetBlock_resetColumn _, rfl, rfl, rfl, rfl, rfl, rfl, rfl⟩
  · have hstep := step_rst_busy hb hin
    exact ⟨hstep, fun t h => beatsEnd_inbox (resume_end (hstep ▸ h))⟩

end Sys2Proof.Machine
